-- ==== Sys2Proof/Word.lean ====
section
/-! DEFINITION. The words of the unit: bytes of BUF, 16-bit operand registers, 32-bit command and bus words. -/

namespace Sys2Proof

/-- A byte of BUF (`00_scope.md` R6). -/
abbrev Byte := BitVec 8

/-- The contents of an operand register or of OLEN (`10_state.md` R23, R28). -/
abbrev Half := BitVec 16

/-- A command word or a bus word (`30_encoding.md` R80, `20_memory.md` R61). -/
abbrev Word := BitVec 32

end Sys2Proof
end

