-- ==== Sys2Proof/Syntax.lean ====
section
/-! DEFINITION. The twenty commands (`30_encoding.md` R85), one constructor per row of the opcode table, in the table's order. -/

namespace Sys2Proof

/-- A four-bit register field of a command word (`30_encoding.md` R81). Which of its values are legal is
the field's class (R83), checked by `WellFormed`. -/
abbrev RegField := BitVec 4

/-- A command. Operands stand in the order `rd, rs1, rs2, lang` of the assembler syntax (`30_encoding.md`
R88); a field the command does not use is not an operand. -/
inductive Instr where
  | lda (rd : RegField) (imm : Half)
  | errclr
  | fld (rd rs1 : RegField)
  | fst (rd rs1 : RegField)
  | fadd (rd rs1 rs2 : RegField)
  | fsub (rd rs1 rs2 : RegField)
  | fmul (rd rs1 rs2 : RegField)
  | fsq (rd rs1 : RegField)
  | scred (rd rs1 : RegField)
  | scclamp (rs1 : RegField)
  | gesmb (rd rs1 : RegField)
  | gep3p2 (rd rs1 : RegField)
  | gecomp (rd rs1 : RegField)
  | b58eb (rd rs1 rs2 : RegField)
  | b58db (rd rs1 rs2 : RegField)
  | b58enc (rd rs1 rs2 : RegField)
  | b58dec (rd rs1 rs2 : RegField)
  | mnenc (rd rs1 rs2 : RegField) (lang : BitVec 4)
  | mndec (rd rs1 rs2 : RegField) (lang : BitVec 4)
  | mncsum (rd rs1 rs2 : RegField) (lang : BitVec 4)
deriving DecidableEq, Repr

end Sys2Proof
end

