-- ==== Sys2Proof/WellFormed.lean ====
section
/-! DEFINITION. The class constraints on register fields (`30_encoding.md` R83). -/

namespace Sys2Proof

/-- Class A: an operand register A0..A7, so bit 3 of the field is zero. -/
def isClassA (r : RegField) : Bool := decide (r.toNat < 8)

/-- Class P: a point register P0..P3, so bits 3:2 of the field are zero. -/
def isClassP (r : RegField) : Bool := decide (r.toNat < 4)

/-- Every register field lies in its class, per row of `30_encoding.md` R85. Class F admits all sixteen
values and `lang` is not constrained (R87), so neither is checked. -/
def WellFormed : Instr → Bool
  | .lda rd _ => isClassA rd
  | .errclr => true
  | .fld _ rs1 => isClassA rs1
  | .fst rd _ => isClassA rd
  | .fadd _ _ _ => true
  | .fsub _ _ _ => true
  | .fmul _ _ _ => true
  | .fsq _ _ => true
  | .scred rd rs1 => isClassA rd && isClassA rs1
  | .scclamp rs1 => isClassA rs1
  | .gesmb rd rs1 => isClassP rd && isClassA rs1
  | .gep3p2 rd rs1 => isClassP rd && isClassP rs1
  | .gecomp rd rs1 => isClassA rd && isClassP rs1
  | .b58eb rd rs1 rs2 => isClassA rd && isClassA rs1 && isClassA rs2
  | .b58db rd rs1 rs2 => isClassA rd && isClassA rs1 && isClassA rs2
  | .b58enc rd rs1 rs2 => isClassA rd && isClassA rs1 && isClassA rs2
  | .b58dec rd rs1 rs2 => isClassA rd && isClassA rs1 && isClassA rs2
  | .mnenc rd rs1 rs2 _ => isClassA rd && isClassA rs1 && isClassA rs2
  | .mndec rd rs1 rs2 _ => isClassA rd && isClassA rs1 && isClassA rs2
  | .mncsum rd rs1 rs2 _ => isClassA rd && isClassA rs1 && isClassA rs2

end Sys2Proof
end

