-- ==== Sys2Proof/Decode.lean ====
section
/-! DEFINITION. The decoder and the encoder of command words (`30_encoding.md` R80 to R90), both written from the rows of R85. -/

namespace Sys2Proof

/-! The fields of a command word (`30_encoding.md` R81). -/

/-- `op = w[31:24]`. -/
def opField (w : Word) : BitVec 8 := w.extractLsb' 24 8
/-- `rd = w[23:20]`. -/
def rdField (w : Word) : RegField := w.extractLsb' 20 4
/-- `rs1 = w[19:16]`. -/
def rs1Field (w : Word) : RegField := w.extractLsb' 16 4
/-- `rs2 = w[15:12]`. -/
def rs2Field (w : Word) : RegField := w.extractLsb' 12 4
/-- `lang = w[11:8]`. -/
def langField (w : Word) : BitVec 4 := w.extractLsb' 8 4
/-- `imm16 = w[15:0]`. -/
def immField (w : Word) : Half := w.extractLsb' 0 16

/-- Why a word is illegal: the two places where the procedure of `30_encoding.md` R90 rejects. Both are
the one verdict *illegal* of R86. -/
inductive Illegal where
  /-- The top byte is none of the twenty opcodes. -/
  | noSuchOpcode
  /-- A must-be-zero bit is set, or a class A or class P field is out of range. -/
  | fieldNotAllowed
deriving DecidableEq, Repr

/-- A row of the opcode map (`30_encoding.md` R85): the opcode, `match`, `mask`, and the command read from
a word of the row. -/
structure OpcodeRow where
  op : BitVec 8
  pattern : Word
  mask : Word
  build : Word → Instr

/-- A row whose command uses `rd` and `rs1`. -/
def row2 (op : BitVec 8) (pattern mask : Word) (mk : RegField → RegField → Instr) : OpcodeRow :=
  ⟨op, pattern, mask, fun w => mk (rdField w) (rs1Field w)⟩

/-- A row whose command uses `rd`, `rs1` and `rs2`. -/
def row3 (op : BitVec 8) (pattern mask : Word) (mk : RegField → RegField → RegField → Instr) : OpcodeRow :=
  ⟨op, pattern, mask, fun w => mk (rdField w) (rs1Field w) (rs2Field w)⟩

/-- A row of format M, which uses `lang` too. -/
def rowM (op : BitVec 8) (pattern mask : Word)
    (mk : RegField → RegField → RegField → BitVec 4 → Instr) : OpcodeRow :=
  ⟨op, pattern, mask, fun w => mk (rdField w) (rs1Field w) (rs2Field w) (langField w)⟩

/-- The control rows. -/
def controlRows : List OpcodeRow :=
  [ ⟨0x01#8, 0x01000000#32, 0xFF8F0000#32, fun w => .lda (rdField w) (immField w)⟩,
    ⟨0x02#8, 0x02000000#32, 0xFFFFFFFF#32, fun _ => .errclr⟩ ]

/-- The field rows. -/
def fieldRows : List OpcodeRow :=
  [ row2 0x10#8 0x10000000#32 0xFF08FFFF#32 .fld,
    row2 0x11#8 0x11000000#32 0xFF80FFFF#32 .fst,
    row3 0x12#8 0x12000000#32 0xFF000FFF#32 .fadd,
    row3 0x13#8 0x13000000#32 0xFF000FFF#32 .fsub,
    row3 0x14#8 0x14000000#32 0xFF000FFF#32 .fmul,
    row2 0x15#8 0x15000000#32 0xFF00FFFF#32 .fsq ]

/-- The scalar and curve rows. -/
def curveRows : List OpcodeRow :=
  [ row2 0x20#8 0x20000000#32 0xFF88FFFF#32 .scred,
    ⟨0x21#8, 0x21000000#32, 0xFFF8FFFF#32, fun w => .scclamp (rs1Field w)⟩,
    row2 0x22#8 0x22000000#32 0xFFC8FFFF#32 .gesmb,
    row2 0x23#8 0x23000000#32 0xFFCCFFFF#32 .gep3p2,
    row2 0x24#8 0x24000000#32 0xFF8CFFFF#32 .gecomp ]

/-- The Base58 rows. -/
def base58Rows : List OpcodeRow :=
  [ row3 0x30#8 0x30000000#32 0xFF888FFF#32 .b58eb,
    row3 0x31#8 0x31000000#32 0xFF888FFF#32 .b58db,
    row3 0x32#8 0x32000000#32 0xFF888FFF#32 .b58enc,
    row3 0x33#8 0x33000000#32 0xFF888FFF#32 .b58dec ]

/-- The mnemonic rows. -/
def mnemonicRows : List OpcodeRow :=
  [ rowM 0x40#8 0x40000000#32 0xFF8880FF#32 .mnenc,
    rowM 0x41#8 0x41000000#32 0xFF8880FF#32 .mndec,
    rowM 0x42#8 0x42000000#32 0xFF8880FF#32 .mncsum ]

/-- The opcode map (`30_encoding.md` R85). -/
def opcodeRows : List OpcodeRow :=
  controlRows ++ fieldRows ++ curveRows ++ base58Rows ++ mnemonicRows

/-- The decoding procedure of `30_encoding.md` R90: find the row of the opcode, check `w and mask =
match`, extract the fields. -/
def decode (w : Word) : Except Illegal Instr :=
  match opcodeRows.find? (fun r => r.op == opField w) with
  | none => .error .noSuchOpcode
  | some r => if w &&& r.mask = r.pattern then .ok (r.build w) else .error .fieldNotAllowed

/-! The encoder, from the four formats of `30_encoding.md` R82. -/

/-- Format R: `op | rd | rs1 | rs2 | 0000 | 00000000`. -/
def encR (op : BitVec 8) (rd rs1 rs2 : RegField) : Word := op ++ rd ++ rs1 ++ rs2 ++ 0#12

/-- Format M: `op | rd | rs1 | rs2 | lang | 00000000`. -/
def encM (op : BitVec 8) (rd rs1 rs2 : RegField) (lang : BitVec 4) : Word :=
  op ++ rd ++ rs1 ++ rs2 ++ lang ++ 0#8

/-- Format I: `op | rd | 0000 | imm16`. -/
def encI (op : BitVec 8) (rd : RegField) (imm : Half) : Word := op ++ rd ++ 0#4 ++ imm

/-- Format Z: `op | 24 zero bits`. -/
def encZ (op : BitVec 8) : Word := op ++ 0#24

/-- The command word of a command (`30_encoding.md` R82, R85); fields a command does not use are zero. -/
def encode : Instr → Word
  | .lda rd imm => encI 0x01#8 rd imm
  | .errclr => encZ 0x02#8
  | .fld rd rs1 => encR 0x10#8 rd rs1 0#4
  | .fst rd rs1 => encR 0x11#8 rd rs1 0#4
  | .fadd rd rs1 rs2 => encR 0x12#8 rd rs1 rs2
  | .fsub rd rs1 rs2 => encR 0x13#8 rd rs1 rs2
  | .fmul rd rs1 rs2 => encR 0x14#8 rd rs1 rs2
  | .fsq rd rs1 => encR 0x15#8 rd rs1 0#4
  | .scred rd rs1 => encR 0x20#8 rd rs1 0#4
  | .scclamp rs1 => encR 0x21#8 0#4 rs1 0#4
  | .gesmb rd rs1 => encR 0x22#8 rd rs1 0#4
  | .gep3p2 rd rs1 => encR 0x23#8 rd rs1 0#4
  | .gecomp rd rs1 => encR 0x24#8 rd rs1 0#4
  | .b58eb rd rs1 rs2 => encR 0x30#8 rd rs1 rs2
  | .b58db rd rs1 rs2 => encR 0x31#8 rd rs1 rs2
  | .b58enc rd rs1 rs2 => encR 0x32#8 rd rs1 rs2
  | .b58dec rd rs1 rs2 => encR 0x33#8 rd rs1 rs2
  | .mnenc rd rs1 rs2 lang => encM 0x40#8 rd rs1 rs2 lang
  | .mndec rd rs1 rs2 lang => encM 0x41#8 rd rs1 rs2 lang
  | .mncsum rd rs1 rs2 lang => encM 0x42#8 rd rs1 rs2 lang

/-- The command the decoder reads from the low `nbits` bits of `w`, every bit above them zero; a command
is one 32-bit word, so the table's bit numbering is the word's own. -/
def decodeTableWord (nbits w : Nat) : Option Instr :=
  match decode (BitVec.ofNat 32 (w % 2 ^ nbits)) with
  | .ok i => some i
  | .error _ => none

end Sys2Proof
end

