-- ==== Sys2Proof/Config.lean ====
section
/-! DEFINITION. What is fixed for the unit (`00_scope.md` R5, `10_state.md` R31) and the values the spec leaves open: the language configuration and the draw of GESMB. -/

namespace Sys2Proof

/-- The field prime `p = 2^255 - 19` (`40_field.md` R110). -/
abbrev p : Nat :=
  57896044618658097711785492504343953926634992332820282019728792003956564819949

/-- An element of GF(p), held as its canonical integer in `[0, p)` (`10_state.md` R21). -/
abbrev Elem := Fin p

/-- BUFSIZE, the number of bytes of BUF (`00_scope.md` R5). -/
abbrev bufSize : Nat := 1024

/-- A language configuration with the constraints `00_scope.md` R5 puts on it: `N = words.length` is at
least 1, every word is non-empty and holds no byte 0x20, and PREFIXLEN is at least 1. The defaults only
show that such a configuration exists; they are no configuration of the unit. -/
structure LangConfig where
  /-- `WL`, the ordered word list. -/
  words : List (List Byte) := [[0x61#8]]
  /-- `PREFIXLEN`. -/
  prefixLen : Nat := 1
  /-- `CRC32`, a total function to `[0, 2^32)`. -/
  crc32 : List Byte → BitVec 32 := fun _ => 0#32
  words_nonempty : words ≠ [] := by decide
  word_legal : ∀ w ∈ words, w ≠ [] ∧ 0x20#8 ∉ w := by decide
  prefix_pos : 1 ≤ prefixLen := by decide
deriving Inhabited

/-- `N`, the length of the word list (`43_mnemonic.md` R191). -/
def LangConfig.size (c : LangConfig) : Nat := c.words.length

/-- The English language configuration: OPEN in the spec (`00_scope.md` R5, decisions D21 and D22), so
nothing is known of it beyond the constraints its type carries. Log entry 4. -/
opaque Config.english : LangConfig

/-- The free value behind GESMB's draw of lambda (`41_curve_scalar.md` R139): one unknown number per draw,
indexed by the count of draws already made. Log entry 3. -/
opaque Config.drawSeed : Nat → Nat

end Sys2Proof
end

