-- ==== Sys2Proof/Machine/Bytes.lean ====
section
/-! DEFINITION. Byte strings as integers, both ways (`00_scope.md` R6), and BUF as a list of its non-zero bytes. -/

namespace Sys2Proof.Machine

/-- `LE(s)`: the byte at the lowest offset has the least weight. -/
def le : List Byte → Nat
  | [] => 0
  | b :: bs => b.toNat + 256 * le bs

/-- `BE(s)`: the byte at the lowest offset has the greatest weight. -/
def be (bs : List Byte) : Nat := le bs.reverse

/-- `toLE(v, n)`. Defined by the spec only for `v < 2^(8n)`; beyond that this is `v mod 2^(8n)`, and no
command asks for it. -/
def toLE (v : Nat) : Nat → List Byte
  | 0 => []
  | n + 1 => BitVec.ofNat 8 v :: toLE (v / 256) n

/-- `toBE(v, n)`. -/
def toBE (v n : Nat) : List Byte := (toLE v n).reverse

/-- The slice of `n` bytes of `s` from index `i`. -/
def slice (s : List Byte) (i n : Nat) : List Byte := (s.drop i).take n

/-! BUF. -/

/-- The byte at an offset; an unlisted offset holds 0 (`10_state.md` R40). -/
def bufRead : List Host.Cell → Nat → Byte
  | [], _ => 0#8
  | (k, v) :: m, x => if k = x then v else bufRead m x

/-- The buffer with no entry for an offset. -/
def bufErase (m : List Host.Cell) (x : Nat) : List Host.Cell := m.filter (fun c => c.1 ≠ x)

/-- An entry put before the first entry of a greater offset. -/
def bufInsert : List Host.Cell → Nat → Byte → List Host.Cell
  | [], x, b => [(x, b)]
  | (k, v) :: m, x, b => if x < k then (x, b) :: (k, v) :: m else (k, v) :: bufInsert m x b

/-- Store a byte. Storing 0 removes the entry, so equal buffers are equal lists. -/
def bufWrite (m : List Host.Cell) (x : Nat) (b : Byte) : List Host.Cell :=
  if b = 0#8 then bufErase m x else bufInsert (bufErase m x) x b

/-- Store a byte string from an offset upwards. -/
def bufWriteBytes (m : List Host.Cell) (x : Nat) : List Byte → List Host.Cell
  | [] => m
  | b :: bs => bufWriteBytes (bufWrite m x b) (x + 1) bs

/-- The canonical form: offsets at least `lo`, strictly rising and inside BUF, and no entry holds 0. -/
def bufWfFrom (lo : Nat) : List Host.Cell → Bool
  | [] => true
  | (k, v) :: m => decide (lo ≤ k) && decide (k < bufSize) && decide (v ≠ 0#8) && bufWfFrom (k + 1) m

/-- BUF is in its canonical form. -/
def Memory.wf (m : List Host.Cell) : Bool := bufWfFrom 0 m

end Sys2Proof.Machine
end

