-- ==== Sys2Proof/Machine/State.lean ====
section
/-! DEFINITION. The state of the machine as plain data, the host's moves, the error kinds, and the reasons a step can stop. -/

namespace Sys2Proof.Machine

/-- The error kinds a command can raise (`60_exceptions.md` R234), in the order of their codes. -/
inductive ErrKind where
  /-- Code 1: a Base58 character outside the alphabet. -/
  | invalidDigit
  /-- Code 2: a Base58 length or a mnemonic word count with no decoding. -/
  | invalidEncodedSize
  /-- Code 3: a Base58 group's value exceeds `2^64 - 1`. -/
  | overflow
  /-- Code 4: a word not found in the truncated list. -/
  | invalidMnemonic
  /-- Code 5: a triple of words that no 32-bit group encodes to. -/
  | mnemonicChecksumMismatch
  /-- Code 6: `lang` is not 0. -/
  | unsupportedLanguage
  /-- Code 7: a buffer range outside BUF, or a length that is illegal in itself. -/
  | contractViolation
  /-- Code 8: a word that is none of the twenty commands. -/
  | illegalCommand
deriving DecidableEq, Repr

/-- The width of a host bus access. Only `word` is in the host's contract (`20_memory.md` R61). -/
inductive AccessSize where
  | byte
  | halfword
  | word
deriving DecidableEq, Repr

/-- A move of the host (`60_exceptions.md` R247): a bus access at a byte offset 0x000..0x7FF from the
unit's base (`20_memory.md` R60), or the `rst` input. -/
inductive HostMove where
  | write (size : AccessSize) (offset : BitVec 11) (data : Word)
  | read (size : AccessSize) (offset : BitVec 11)
  | reset
deriving DecidableEq, Repr

/-- The reasons for which the machine stops with a fault: none. Every word in every state has an outcome
(`60_exceptions.md` R230), every command retires (`70_reset_and_hazards.md` R264), and
`93_implementation_defined.md` Part 1 lists no behaviour whose treatment is `stuck`; an access outside BUF
is the error `contractViolation`, a next state. -/
inductive Fault
deriving DecidableEq, Repr

/-- The reasons for which the model refuses. -/
inductive Refusal where
  /-- Raised by an arm of `exec` whose command has no meaning yet: none has. Safe. -/
  | notModelled (mnemonic : String)
  /-- Raised by `hostStep` for a byte or halfword access, which `20_memory.md` R61 tells a model to
  refuse. Safe: nothing is claimed of what the unit would do. -/
  | subWordAccess
  /-- Raised by `hostStep` for a word access at an offset that is no multiple of 4, which `20_memory.md`
  R61 tells a model to refuse. Safe: nothing is claimed of what the unit would do. -/
  | misalignedAccess
deriving DecidableEq, Repr

/-- The state. The first seven fields are the unit's (`10_state.md` R21 to R30, R40); the last three are
the model's own (log entries 1 to 3). -/
structure State where
  /-- `F0..F15` (`10_state.md` R21); `Pk` is `F[4k..4k+3]` (R22), not separate storage. -/
  f : Vector Elem 16
  /-- `A0..A7` (`10_state.md` R23). -/
  a : Vector Half 8
  /-- `BUF` (`10_state.md` R30): the non-zero bytes by rising offset; an unlisted offset holds 0, its
  reset value (R40). -/
  buf : List Host.Cell
  /-- `STATUS.ERR` (`10_state.md` R26). -/
  err : Bool
  /-- `STATUS.ECODE` (`10_state.md` R26). -/
  ecode : BitVec 4
  /-- `ECMD` (`10_state.md` R27). -/
  ecmd : Word
  /-- `OLEN` (`10_state.md` R28). -/
  olen : Half
  /-- The model's: how many draws of lambda GESMB has made (`41_curve_scalar.md` R139). -/
  draws : Nat
  /-- The model's: the moves the host has yet to make, the next one first (`10_state.md` R24). -/
  moves : List HostMove
  /-- The model's: the words the host's reads have returned, the latest first (`20_memory.md` R60). -/
  replies : List Word
deriving DecidableEq, Repr

/-- The machine right after reset (`10_state.md` R40): every piece of the unit's state is zero. The host
has no move to make and has read nothing. -/
def State.reset : State where
  f := Vector.replicate 16 0
  a := Vector.replicate 8 0#16
  buf := []
  err := false
  ecode := 0#4
  ecmd := 0#32
  olen := 0#16
  draws := 0
  moves := []
  replies := []

end Sys2Proof.Machine
end

