-- ==== Sys2Proof/Machine/Base58Codec.lean ====
section
/-! DEFINITION. The Base58 tables and block functions (`42_base58.md` R160 to R166) and their iteration over a whole string (R168, R169). -/

namespace Sys2Proof.Machine

/-- The characters of the alphabet, in the tens of `42_base58.md` R160. -/
def alphabetChars : List Char :=
  ['1', '2', '3', '4', '5', '6', '7', '8', '9', 'A']
  ++ ['B', 'C', 'D', 'E', 'F', 'G', 'H', 'J', 'K', 'L']
  ++ ['M', 'N', 'P', 'Q', 'R', 'S', 'T', 'U', 'V', 'W']
  ++ ['X', 'Y', 'Z', 'a', 'b', 'c', 'd', 'e', 'f', 'g']
  ++ ['h', 'i', 'j', 'k', 'm', 'n', 'o', 'p', 'q', 'r']
  ++ ['s', 't', 'u', 'v', 'w', 'x', 'y', 'z']

/-- `ALPH`, one ASCII byte per character (`42_base58.md` R160, `20_memory.md` R54). -/
def alphabet : List Byte := alphabetChars.map (fun c => BitVec.ofNat 8 c.toNat)

/-- `TAB`, raw length to encoded length (`42_base58.md` R161). The table ends at 8; no command looks
beyond it. -/
def encodedLength (n : Nat) : Nat := [0, 2, 3, 5, 6, 7, 9, 10, 11].getD n 0

/-- `REV`, encoded length to raw length; 1, 4, 8 and everything above 11 have none (`42_base58.md` R162). -/
def rawLength : Nat → Option Nat
  | 0 => some 0
  | 2 => some 1
  | 3 => some 2
  | 5 => some 3
  | 6 => some 4
  | 7 => some 5
  | 9 => some 6
  | 10 => some 7
  | 11 => some 8
  | _ => none

/-- `digit(c)` (`42_base58.md` R163). -/
def digit (c : Byte) : Option Nat := alphabet.idxOf? c

/-- The character of a digit. -/
def digitChar (i : Nat) : Byte := alphabet.getD i 0#8

/-- `encblk(s)` (`42_base58.md` R164). -/
def encodeBlock (s : List Byte) : List Byte :=
  let m := encodedLength s.length
  (List.range m).map (fun j => digitChar (be s / 58 ^ (m - 1 - j) % 58))

/-- The loop of `decblk` (`42_base58.md` R166): Horner's rule on an unbounded integer, each character's
`InvalidDigit` before the `Overflow` its digit would cause. -/
def decodeDigits : Nat → List Byte → Except ErrKind Nat
  | v, [] => .ok v
  | v, c :: cs =>
    match digit c with
    | none => .error .invalidDigit
    | some x => if v * 58 + x > 2 ^ 64 - 1 then .error .overflow else decodeDigits (v * 58 + x) cs

/-- `decblk(t)` for a group whose raw length is `n` (`42_base58.md` R166): the last `n` of the eight
big-endian bytes of the value. -/
def decodeGroup (t : List Byte) (n : Nat) : Except ErrKind (List Byte) :=
  match decodeDigits 0 t with
  | .error e => .error e
  | .ok v => .ok ((toBE v 8).drop (8 - n))

/-- The encoding of a byte string (`42_base58.md` R168): its full blocks of 8 bytes in order, then the
tail. -/
def encodeBase58 (src : List Byte) : List Byte :=
  let q := src.length / 8
  let r := src.length % 8
  (List.range q).flatMap (fun i => encodeBlock (slice src (8 * i) 8))
    ++ (if r > 0 then encodeBlock (slice src (8 * q) r) else [])

/-- The decodings of a list of groups one after the other, each group with its raw length; the first
failure from the left is the outcome. -/
def decodeGroups : List (List Byte × Nat) → Except ErrKind (List Byte)
  | [] => .ok []
  | (t, n) :: gs =>
    match decodeGroup t n with
    | .error e => .error e
    | .ok out =>
      match decodeGroups gs with
      | .error e => .error e
      | .ok rest => .ok (out ++ rest)

/-- The decoding of a text (`42_base58.md` R169): its size first, then its full groups of 11 characters in
order, then the tail. -/
def decodeBase58 (txt : List Byte) : Except ErrKind (List Byte) :=
  let q := txt.length / 11
  let r := txt.length % 11
  match rawLength r with
  | none => .error .invalidEncodedSize
  | some n =>
    decodeGroups ((List.range q).map (fun i => (slice txt (11 * i) 11, 8))
      ++ (if r > 0 then [(slice txt (11 * q) r, n)] else []))

end Sys2Proof.Machine
end

