-- ==== Sys2Proof/Machine/Flags.lean ====
section
/-! DEFINITION. The unit's one flag and the STATUS word it stands in (`10_state.md` R25, R26). -/

namespace Sys2Proof.Machine

/-- The code of an error kind (`60_exceptions.md` R234). -/
def ErrKind.code : ErrKind → BitVec 4
  | .invalidDigit => 1#4
  | .invalidEncodedSize => 2#4
  | .overflow => 3#4
  | .invalidMnemonic => 4#4
  | .mnemonicChecksumMismatch => 5#4
  | .unsupportedLanguage => 6#4
  | .contractViolation => 7#4
  | .illegalCommand => 8#4

/-- STATUS as the host reads it (`10_state.md` R26): `ECODE` in bits 7:4, `ERR` in bit 0, the other bits
hardwired to zero. -/
def State.status (s : State) : Word := 0#24 ++ s.ecode ++ 0#3 ++ BitVec.ofBool s.err

end Sys2Proof.Machine
end

