-- ==== Sys2Proof/Machine/Ops.lean ====
section
/-! DEFINITION. The named operations over registers, BUF and the error record (`00_scope.md` R7): the only places where State is read or written. -/

namespace Sys2Proof.Machine

/-! Registers. -/

/-- `F[i]`. -/
def State.readF (s : State) (i : RegField) : Elem :=
  s.f[i.toNat]'(by have := i.isLt; omega)

/-- `F[i] <- v`. No field register is hardwired (`10_state.md` R21). -/
def State.writeF (s : State) (i : RegField) (v : Elem) : State :=
  { s with f := s.f.set i.toNat v (by have := i.isLt; omega) }

/-- `A[i]`. In a class A field bit 3 is zero (`30_encoding.md` R83), so the low three bits are the index. -/
def State.readA (s : State) (i : RegField) : Half :=
  s.a[i.toNat % 8]'(Nat.mod_lt _ (by decide))

/-- `A[i] <- v`. -/
def State.writeA (s : State) (i : RegField) (v : Half) : State :=
  { s with a := s.a.set (i.toNat % 8) v (Nat.mod_lt _ (by decide)) }

/-- The index of the field register that is coordinate `j` (0 `X`, 1 `Y`, 2 `Z`, 3 `T`) of point register
`k`: `4k + j` (`10_state.md` R22). -/
def coordIndex (k : RegField) (j : BitVec 4) : RegField := 4#4 * k + j

/-- Coordinate `j` of point register `k`. -/
def State.coord (s : State) (k : RegField) (j : BitVec 4) : Elem := s.readF (coordIndex k j)

/-- Write the coordinates `X, Y, Z` of point register `k`. -/
def State.writeXYZ (s : State) (k : RegField) (x y z : Elem) : State :=
  ((s.writeF (coordIndex k 0#4) x).writeF (coordIndex k 1#4) y).writeF (coordIndex k 2#4) z

/-! BUF. -/

/-- `BUF[x]`; DESIGN CHOICE (log entry 14, safe): total, so an `x` past the buffer has a value too. -/
def State.byte (s : State) (x : Nat) : Byte := bufRead s.buf x

/-- `MemRead(x, n)`, `00_scope.md` R7, which defines it only when `x + n <= BUFSIZE`.  DESIGN CHOICE (log
entry 14, safe): it is total here; past the buffer it returns what the list holds there, or 0. No command
asks for that, since its range is checked first (`20_memory.md` R56). -/
def State.memRead (s : State) (x n : Nat) : List Byte := (List.range n).map (fun i => s.byte (x + i))

/-- `MemWrite(x, |bs|, bs)`, `00_scope.md` R7, which defines it only when `x + |bs| <= BUFSIZE`.  DESIGN
CHOICE (log entry 14, safe): it is total here; a write past the buffer lists entries there. No command asks
for that, since its range is checked first (`20_memory.md` R56), and `StepKeepsInvariant` says that no step
lists such an entry. -/
def State.memWrite (s : State) (x : Nat) (bs : List Byte) : State :=
  { s with buf := bufWriteBytes s.buf x bs }

/-- `OLEN <- n`. -/
def State.setOlen (s : State) (n : Nat) : State := { s with olen := BitVec.ofNat 16 n }

/-! The error record. -/

/-- Error entry, `Enter(E, w)` (`60_exceptions.md` R233): the record is written and nothing else changes. -/
def State.enter (s : State) (e : ErrKind) (w : Word) : State :=
  { s with err := true, ecode := e.code, ecmd := w }

/-- The return from an error (`60_exceptions.md` R239, `44_control.md` R221): the record is cleared and
nothing is restored. -/
def State.clearError (s : State) : State :=
  { s with err := false, ecode := 0#4, ecmd := 0#32 }

/-- What running the rule of a command gives (`60_exceptions.md` R230): the state with every write made,
or the error raised, with none. -/
abbrev Run := Except ErrKind State

/-- The end of a command (`60_exceptions.md` R230): a run to the end commits its writes; an error raised
discards them and enters the error with the command's word. -/
def retire (w : Word) (s : State) (r : Run) : Host.Outcome State Fault Refusal :=
  .next (match r with
    | .ok t => t
    | .error e => s.enter e w)

/-! Reset and the draw. -/

/-- The `rst` input (`10_state.md` R40, `70_reset_and_hazards.md` R260): the unit's state goes to zero. The
host's side of the state and the count of draws are no state of the unit and stay. -/
def State.resetUnit (s : State) : State :=
  { State.reset with draws := s.draws, moves := s.moves, replies := s.replies }

/-- The `n`-th draw of lambda (`41_curve_scalar.md` R139): some element of `[1, p)`, no one knows which. -/
def freeLambda (n : Nat) : Elem :=
  ⟨1 + Config.drawSeed n % (p - 1), by
    have := Nat.mod_lt (Config.drawSeed n) (show 0 < p - 1 by decide)
    omega⟩

/-- The state after one draw of lambda. -/
def State.countDraw (s : State) : State := { s with draws := s.draws + 1 }

end Sys2Proof.Machine
end

