-- ==== Sys2Proof/Machine/Operands.lean ====
section
/-! DEFINITION. The one addressing mode of commands (`20_memory.md` R55) and its range check (R56). -/

namespace Sys2Proof.Machine

/-- The offset or length an operand register holds, as an integer (`20_memory.md` R55). -/
def State.operand (s : State) (r : RegField) : Nat := (s.readA r).toNat

/-- `Bounds(x, n)` passes (`20_memory.md` R56): the range lies in BUF, the sum taken without wrap-around. -/
abbrev inBuf (x n : Nat) : Prop := x + n ≤ bufSize

/-- The end of every command that writes BUF (`20_memory.md` R56, R57, `10_state.md` R28): the destination
range is checked, then all of the output is written and OLEN is its length. -/
def State.storeOutput (s : State) (x : Nat) (out : List Byte) : Run :=
  if inBuf x out.length then .ok ((s.memWrite x out).setOlen out.length)
  else .error .contractViolation

/-- The end of a command whose output may be an error met in its data (`60_exceptions.md` R236): the
data's error comes before the check of the destination. -/
def State.storeResult (s : State) (x : Nat) (out : Except ErrKind (List Byte)) : Run :=
  match out with
  | .error e => .error e
  | .ok bs => s.storeOutput x bs

end Sys2Proof.Machine
end

