-- ==== Sys2Proof/Machine/Base58.lean ====
section
/-! DEFINITION. The Base58 commands B58EB, B58DB, B58ENC, B58DEC (`42_base58.md` R165 to R169). -/

namespace Sys2Proof.Machine

/-- B58EB (`42_base58.md` R165): the length, then the source range, then the destination. -/
def execB58eb (rd rs1 rs2 : RegField) (s : State) : Host.Outcome State Fault Refusal :=
  retire (encode (.b58eb rd rs1 rs2)) s
    (let x := s.operand rs1
     let n := s.operand rs2
     if n < 1 ∨ n > 8 then .error .contractViolation
     else if inBuf x n then s.storeOutput (s.operand rd) (encodeBlock (s.memRead x n))
     else .error .contractViolation)

/-- B58DB (`42_base58.md` R167): the source range, the size, the characters, the destination. -/
def execB58db (rd rs1 rs2 : RegField) (s : State) : Host.Outcome State Fault Refusal :=
  retire (encode (.b58db rd rs1 rs2)) s
    (let x := s.operand rs1
     let m := s.operand rs2
     if inBuf x m then
       if m = 0 then .error .invalidEncodedSize
       else
         match rawLength m with
         | none => .error .invalidEncodedSize
         | some n => s.storeResult (s.operand rd) (decodeGroup (s.memRead x m) n)
     else .error .contractViolation)

/-- B58ENC (`42_base58.md` R168). -/
def execB58enc (rd rs1 rs2 : RegField) (s : State) : Host.Outcome State Fault Refusal :=
  retire (encode (.b58enc rd rs1 rs2)) s
    (let x := s.operand rs1
     let n := s.operand rs2
     if inBuf x n then s.storeOutput (s.operand rd) (encodeBase58 (s.memRead x n))
     else .error .contractViolation)

/-- B58DEC (`42_base58.md` R169). -/
def execB58dec (rd rs1 rs2 : RegField) (s : State) : Host.Outcome State Fault Refusal :=
  retire (encode (.b58dec rd rs1 rs2)) s
    (let x := s.operand rs1
     let n := s.operand rs2
     if inBuf x n then s.storeResult (s.operand rd) (decodeBase58 (s.memRead x n))
     else .error .contractViolation)

end Sys2Proof.Machine
end

