-- ==== Sys2Proof/Machine/Control.lean ====
section
/-! DEFINITION. The control commands LDA and ERRCLR (`44_control.md` R220, R221). -/

namespace Sys2Proof.Machine

/-- LDA (`44_control.md` R220): `A[d] <- imm16`. -/
def execLda (rd : RegField) (imm : Half) (s : State) : Host.Outcome State Fault Refusal :=
  retire (encode (.lda rd imm)) s (.ok (s.writeA rd imm))

/-- ERRCLR (`44_control.md` R221): the error record is cleared. -/
def execErrclr (s : State) : Host.Outcome State Fault Refusal :=
  retire (encode .errclr) s (.ok s.clearError)

end Sys2Proof.Machine
end

