-- ==== Sys2Proof/Machine/FieldArith.lean ====
section
/-! DEFINITION. Arithmetic in GF(p) and the 32-byte encoding (`40_field.md` R110, R111). -/

namespace Sys2Proof.Machine

/-- The element a non-negative integer is congruent to: `n mod p`. -/
def elemOfNat (n : Nat) : Elem := ⟨n % p, Nat.mod_lt _ (by decide)⟩

/-- `(x + y) mod p` (`40_field.md` R114). -/
def fieldAdd (x y : Elem) : Elem := elemOfNat (x.val + y.val)

/-- `(x + p - y) mod p` (`40_field.md` R115). -/
def fieldSub (x y : Elem) : Elem := elemOfNat (x.val + p - y.val)

/-- `(x * y) mod p` (`40_field.md` R116). -/
def fieldMul (x y : Elem) : Elem := elemOfNat (x.val * y.val)

/-- `z^e mod p`, by the hexadecimal digits of `e`, for an `e` of at most `fuel` digits. -/
def powModFuel : Nat → Nat → Nat → Nat
  | 0, _, _ => 1
  | fuel + 1, z, e =>
    if e = 0 then 1 else powModFuel fuel z (e / 16) ^ 16 * z ^ (e % 16) % p

/-- `inv(z) = z^(p-2) mod p` (`00_scope.md` R8): the inverse of `z`, and 0 when `z = 0`. -/
def fieldInv (z : Elem) : Elem := elemOfNat (powModFuel 64 z.val (p - 2))

/-- The element of a 32-byte string: bit 255 is ignored and the rest reduced (`40_field.md` R112). -/
def decodeElem (bs : List Byte) : Elem := elemOfNat (le bs % 2 ^ 255)

/-- The 32-byte encoding of an element (`40_field.md` R111). -/
def encodeElem (v : Elem) : List Byte := toLE v.val 32

end Sys2Proof.Machine
end

