-- ==== Sys2Proof/Machine/Field.lean ====
section
/-! DEFINITION. The field commands FLD, FST, FADD, FSUB, FMUL, FSQ (`40_field.md` R112 to R117). -/

namespace Sys2Proof.Machine

/-- FLD (`40_field.md` R112). -/
def execFld (rd rs1 : RegField) (s : State) : Host.Outcome State Fault Refusal :=
  retire (encode (.fld rd rs1)) s
    (let x := s.operand rs1
     if inBuf x 32 then .ok (s.writeF rd (decodeElem (s.memRead x 32)))
     else .error .contractViolation)

/-- FST (`40_field.md` R113). -/
def execFst (rd rs1 : RegField) (s : State) : Host.Outcome State Fault Refusal :=
  retire (encode (.fst rd rs1)) s (s.storeOutput (s.operand rd) (encodeElem (s.readF rs1)))

/-- FADD (`40_field.md` R114). -/
def execFadd (rd rs1 rs2 : RegField) (s : State) : Host.Outcome State Fault Refusal :=
  retire (encode (.fadd rd rs1 rs2)) s (.ok (s.writeF rd (fieldAdd (s.readF rs1) (s.readF rs2))))

/-- FSUB (`40_field.md` R115). -/
def execFsub (rd rs1 rs2 : RegField) (s : State) : Host.Outcome State Fault Refusal :=
  retire (encode (.fsub rd rs1 rs2)) s (.ok (s.writeF rd (fieldSub (s.readF rs1) (s.readF rs2))))

/-- FMUL (`40_field.md` R116). -/
def execFmul (rd rs1 rs2 : RegField) (s : State) : Host.Outcome State Fault Refusal :=
  retire (encode (.fmul rd rs1 rs2)) s (.ok (s.writeF rd (fieldMul (s.readF rs1) (s.readF rs2))))

/-- FSQ (`40_field.md` R117). -/
def execFsq (rd rs1 : RegField) (s : State) : Host.Outcome State Fault Refusal :=
  retire (encode (.fsq rd rs1)) s (.ok (s.writeF rd (fieldMul (s.readF rs1) (s.readF rs1))))

end Sys2Proof.Machine
end

