-- ==== Sys2Proof/Machine/MnemonicCodec.lean ====
section
/-! DEFINITION. The mnemonic codec over any language configuration (`43_mnemonic.md` R191 to R199). -/

namespace Sys2Proof.Machine

/-- `trunc(w)` (`43_mnemonic.md` R191). -/
def truncWord (c : LangConfig) (w : List Byte) : List Byte := w.take c.prefixLen

/-- `lookup(w)`: the least index whose truncated word is the truncation of `w` (`43_mnemonic.md` R192). -/
def lookupWord (c : LangConfig) (w : List Byte) : Option Nat :=
  c.words.findIdx? (fun x => truncWord c x == truncWord c w)

/-- `WL[i]`. -/
def wordAt (c : LangConfig) (i : Nat) : List Byte := c.words.getD i []

/-- The pieces of a byte string between its 0x20 bytes, at least one. -/
def splitPieces : List Byte → List (List Byte)
  | [] => [[]]
  | b :: bs =>
    if b = 0x20#8 then [] :: splitPieces bs
    else
      match splitPieces bs with
      | [] => [[b]]
      | w :: ws => (b :: w) :: ws

/-- `split(s)` (`43_mnemonic.md` R193). -/
def splitWords (s : List Byte) : List (List Byte) := if s = [] then [] else splitPieces s

/-- `join(ws)` (`43_mnemonic.md` R193). -/
def joinWords : List (List Byte) → List Byte
  | [] => []
  | [w] => w
  | w :: ws => w ++ 0x20#8 :: joinWords ws

/-- `triple(x)` (`43_mnemonic.md` R194). -/
def triple (c : LangConfig) (x : Nat) : Nat × Nat × Nat :=
  let n := c.size
  let w1 := x % n
  let w2 := (x / n + w1) % n
  let w3 := (x / n / n + w2) % n
  (w1, w2, w3)

/-- `untriple(i1, i2, i3)` (`43_mnemonic.md` R195). -/
def untriple (c : LangConfig) (i1 i2 i3 : Nat) : Nat :=
  let n := c.size
  i1 + n * ((n - i1 + i2) % n) + n ^ 2 * ((n - i2 + i3) % n)

/-- `csum(ws)` (`43_mnemonic.md` R197). -/
def checksumIndex (c : LangConfig) (ws : List (List Byte)) : Nat :=
  (c.crc32 (ws.flatMap (truncWord c))).toNat % ws.length

/-- The three words of a four-byte group (`43_mnemonic.md` R196, `20_memory.md` R53). -/
def groupWords (c : LangConfig) (g : List Byte) : List (List Byte) :=
  match triple c (le g) with
  | (w1, w2, w3) => [wordAt c w1, wordAt c w2, wordAt c w3]

/-- The data words of a seed, group by group (`43_mnemonic.md` R196). -/
def seedWords (c : LangConfig) (seed : List Byte) : List (List Byte) :=
  (List.range (seed.length / 4)).flatMap (fun j => groupWords c (slice seed (4 * j) 4))

/-- The words of the phrase of a seed: the data words and the checksum word (`43_mnemonic.md` R196). -/
def phraseWords (c : LangConfig) (seed : List Byte) : List (List Byte) :=
  seedWords c seed ++ [(seedWords c seed).getD (checksumIndex c (seedWords c seed)) []]

/-- The phrase of a seed (`43_mnemonic.md` R196). -/
def encodePhrase (c : LangConfig) (seed : List Byte) : List Byte := joinWords (phraseWords c seed)

/-- The bytes of a triple of words (`43_mnemonic.md` R198): the three lookups from the left, then the
consistency check. -/
def decodeTriple (c : LangConfig) (u v w : List Byte) : Except ErrKind (List Byte) :=
  match lookupWord c u with
  | none => .error .invalidMnemonic
  | some i1 =>
    match lookupWord c v with
    | none => .error .invalidMnemonic
    | some i2 =>
      match lookupWord c w with
      | none => .error .invalidMnemonic
      | some i3 =>
        let x := untriple c i1 i2 i3
        if x % c.size ≠ i1 ∨ x ≥ 2 ^ 32 then .error .mnemonicChecksumMismatch
        else .ok (toLE x 4)

/-- The triples of a word list from the left; the words left over (the checksum word) are dropped unread
(`43_mnemonic.md` R198). -/
def decodeTriples (c : LangConfig) : List (List Byte) → Except ErrKind (List Byte)
  | u :: v :: w :: ws =>
    match decodeTriple c u v w with
    | .error e => .error e
    | .ok out =>
      match decodeTriples c ws with
      | .error e => .error e
      | .ok rest => .ok (out ++ rest)
  | _ => .ok []

/-- The seed of a phrase (`43_mnemonic.md` R198): the word count first, then the triples. -/
def decodePhrase (c : LangConfig) (phrase : List Byte) : Except ErrKind (List Byte) :=
  let ws := splitWords phrase
  if ws.length % 3 ≠ 1 then .error .invalidEncodedSize else decodeTriples c ws

end Sys2Proof.Machine
end

