-- ==== Sys2Proof/Machine/Mnemonic.lean ====
section
/-! DEFINITION. The mnemonic commands MNENC, MNDEC, MNCSUM (`43_mnemonic.md` R190, R196 to R199): each rule over any language configuration, and the command's meaning at the English one. -/

namespace Sys2Proof.Machine

/-- The rule of MNENC (`43_mnemonic.md` R196). -/
def runMnenc (c : LangConfig) (rd rs1 rs2 : RegField) (lang : BitVec 4) (s : State) : Run :=
  if lang ≠ 0#4 then .error .unsupportedLanguage
  else
    let x := s.operand rs1
    let n := s.operand rs2
    if n = 0 ∨ n % 4 ≠ 0 then .error .contractViolation
    else if inBuf x n then s.storeOutput (s.operand rd) (encodePhrase c (s.memRead x n))
    else .error .contractViolation

/-- The rule of MNDEC (`43_mnemonic.md` R198). -/
def runMndec (c : LangConfig) (rd rs1 rs2 : RegField) (lang : BitVec 4) (s : State) : Run :=
  if lang ≠ 0#4 then .error .unsupportedLanguage
  else
    let x := s.operand rs1
    let n := s.operand rs2
    if inBuf x n then s.storeResult (s.operand rd) (decodePhrase c (s.memRead x n))
    else .error .contractViolation

/-- The rule of MNCSUM (`43_mnemonic.md` R199). -/
def runMncsum (c : LangConfig) (rd rs1 rs2 : RegField) (lang : BitVec 4) (s : State) : Run :=
  if lang ≠ 0#4 then .error .unsupportedLanguage
  else
    let x := s.operand rs1
    let n := s.operand rs2
    if inBuf x n then
      let ws := splitWords (s.memRead x n)
      if ws.length = 0 then .error .contractViolation
      else .ok (s.writeA rd (BitVec.ofNat 16 (checksumIndex c ws)))
    else .error .contractViolation

/-- MNENC (`43_mnemonic.md` R196). -/
def execMnenc (rd rs1 rs2 : RegField) (lang : BitVec 4) (s : State) : Host.Outcome State Fault Refusal :=
  retire (encode (.mnenc rd rs1 rs2 lang)) s (runMnenc Config.english rd rs1 rs2 lang s)

/-- MNDEC (`43_mnemonic.md` R198). -/
def execMndec (rd rs1 rs2 : RegField) (lang : BitVec 4) (s : State) : Host.Outcome State Fault Refusal :=
  retire (encode (.mndec rd rs1 rs2 lang)) s (runMndec Config.english rd rs1 rs2 lang s)

/-- MNCSUM (`43_mnemonic.md` R199). -/
def execMncsum (rd rs1 rs2 : RegField) (lang : BitVec 4) (s : State) : Host.Outcome State Fault Refusal :=
  retire (encode (.mncsum rd rs1 rs2 lang)) s (runMncsum Config.english rd rs1 rs2 lang s)

end Sys2Proof.Machine
end

