-- ==== Sys2Proof/Machine/EdwardsCurve.lean ====
section
/-! DEFINITION. The curve, its constants and its group law (`41_curve_scalar.md` R130 to R134), and the scalar and point encodings. -/

namespace Sys2Proof.Machine

/-- The curve constant `d` (`41_curve_scalar.md` R131). -/
def curveD : Elem :=
  ⟨37095705934669439343138083508754565189542113879843219016388785533085940283555, by decide⟩

/-- The group order `L` (`41_curve_scalar.md` R132). -/
def groupOrder : Nat :=
  7237005577332262213973186563042994240857116359379907606001950938285454250989

/-- A point in affine coordinates (`00_scope.md` R8). -/
structure Point where
  x : Elem
  y : Elem
deriving DecidableEq, Repr

/-- The base point `B` (`41_curve_scalar.md` R133). -/
def basePoint : Point where
  x := ⟨15112221349535400772501151409588531511454012693041857206046113283949847762202, by decide⟩
  y := ⟨46316835694926478169428394003475163141307993866256225615783033603165251855960, by decide⟩

/-- The neutral element `O = (0, 1)` (`41_curve_scalar.md` R134). -/
def neutral : Point where
  x := ⟨0, by decide⟩
  y := ⟨1, by decide⟩

/-- The equation of the curve, `-x^2 + y^2 = 1 + d x^2 y^2` (`41_curve_scalar.md` R130). -/
def Point.onCurve (P : Point) : Bool :=
  let x2 := fieldMul P.x P.x
  let y2 := fieldMul P.y P.y
  decide (fieldSub y2 x2 = fieldAdd ⟨1, by decide⟩ (fieldMul curveD (fieldMul x2 y2)))

/-- `P + Q` by the addition law (`41_curve_scalar.md` R134). -/
def pointAdd (P Q : Point) : Point :=
  let t := fieldMul (fieldMul curveD (fieldMul P.x Q.x)) (fieldMul P.y Q.y)
  { x := fieldMul (fieldAdd (fieldMul P.x Q.y) (fieldMul Q.x P.y)) (fieldInv (fieldAdd ⟨1, by decide⟩ t))
    y := fieldMul (fieldAdd (fieldMul P.y Q.y) (fieldMul P.x Q.x)) (fieldInv (fieldSub ⟨1, by decide⟩ t)) }

/-- `[k]P` for a `k` of at most `fuel` bits: twice `[k div 2]P`, and `P` once more when `k` is odd. -/
def scalarMulFuel : Nat → Nat → Point → Point
  | 0, _, _ => neutral
  | fuel + 1, k, P =>
    if k = 0 then neutral
    else
      let h := scalarMulFuel fuel (k / 2) P
      let hh := pointAdd h h
      if k % 2 = 1 then pointAdd hh P else hh

/-- `[k]P`, the `k`-fold sum of `P` (`41_curve_scalar.md` R134). The sum is bracketed by doubling; log
entry 5. -/
def scalarMul (k : Nat) (P : Point) : Point := scalarMulFuel k k P

/-- `n mod L` as 32 bytes (`41_curve_scalar.md` R135). -/
def reduceScalar (bs : List Byte) : List Byte := toLE (le bs % groupOrder) 32

/-- Bits 0, 1, 2 and 255 cleared and bit 254 set (`41_curve_scalar.md` R136). -/
def clampScalar (bs : List Byte) : List Byte :=
  (bs.modify 0 (fun b => b &&& 0xF8#8)).modify 31 (fun b => (b &&& 0x7F#8) ||| 0x40#8)

/-- The compression of the affine point `(x, y)`: `y` as 32 bytes, the least significant bit of `x` in bit
7 of the last (`41_curve_scalar.md` R140). -/
def compressAffine (x y : Elem) : List Byte :=
  (encodeElem y).modify 31 (fun b => b ||| (BitVec.ofNat 8 (x.val % 2) <<< 7))

/-- The compression of `(X : Y : Z)`, through `x = X inv(Z)`, `y = Y inv(Z)` (`41_curve_scalar.md` R140). -/
def compress (X Y Z : Elem) : List Byte :=
  compressAffine (fieldMul X (fieldInv Z)) (fieldMul Y (fieldInv Z))

end Sys2Proof.Machine
end

