-- ==== Sys2Proof/Machine/ScalarCurve.lean ====
section
/-! DEFINITION. The scalar and curve commands SCRED, SCCLAMP, GESMB, GEP3P2, GECOMP (`41_curve_scalar.md` R135 to R141). -/

namespace Sys2Proof.Machine

/-- SCRED (`41_curve_scalar.md` R135): both ranges are checked, then the source is read. -/
def execScred (rd rs1 : RegField) (s : State) : Host.Outcome State Fault Refusal :=
  retire (encode (.scred rd rs1)) s
    (let x := s.operand rs1
     if inBuf x 64 then s.storeOutput (s.operand rd) (reduceScalar (s.memRead x 64))
     else .error .contractViolation)

/-- SCCLAMP (`41_curve_scalar.md` R136): in place. -/
def execScclamp (rs1 : RegField) (s : State) : Host.Outcome State Fault Refusal :=
  retire (encode (.scclamp rs1)) s
    (let x := s.operand rs1
     if inBuf x 32 then s.storeOutput x (clampScalar (s.memRead x 32))
     else .error .contractViolation)

/-- The extended representative of an affine point with a given `Z` written to point register `k`
(`41_curve_scalar.md` R138). -/
def State.writeExtended (s : State) (k : RegField) (P : Point) (z : Elem) : State :=
  (s.writeXYZ k (fieldMul z P.x) (fieldMul z P.y) z).writeF (coordIndex k 3#4)
    (fieldMul (fieldMul z P.x) P.y)

/-- GESMB (`41_curve_scalar.md` R138): `[k]B` in the representative a draw of lambda chooses (R139). -/
def execGesmb (rd rs1 : RegField) (s : State) : Host.Outcome State Fault Refusal :=
  retire (encode (.gesmb rd rs1)) s
    (let x := s.operand rs1
     if inBuf x 32 then
       .ok (s.countDraw.writeExtended rd (scalarMul (le (s.memRead x 32)) basePoint) (freeLambda s.draws))
     else .error .contractViolation)

/-- GEP3P2 (`41_curve_scalar.md` R141): `X, Y, Z` are copied and the destination's `T` is left. -/
def execGep3p2 (rd rs1 : RegField) (s : State) : Host.Outcome State Fault Refusal :=
  retire (encode (.gep3p2 rd rs1)) s
    (.ok (s.writeXYZ rd (s.coord rs1 0#4) (s.coord rs1 1#4) (s.coord rs1 2#4)))

/-- GECOMP (`41_curve_scalar.md` R140): `T` is not read and nothing about the point is checked. -/
def execGecomp (rd rs1 : RegField) (s : State) : Host.Outcome State Fault Refusal :=
  retire (encode (.gecomp rd rs1)) s
    (s.storeOutput (s.operand rd) (compress (s.coord rs1 0#4) (s.coord rs1 1#4) (s.coord rs1 2#4)))

end Sys2Proof.Machine
end

