-- ==== Sys2Proof/Machine/Dispatch.lean ====
section
/-! DEFINITION. The rule of each command (`60_exceptions.md` R230 "run the rule of c on the current state"), one arm per constructor. -/

namespace Sys2Proof.Machine

def exec (i : Instr) (s : State) : Host.Outcome State Fault Refusal :=
  match i with
  | .lda rd imm => Sys2Proof.Machine.execLda rd imm s
  | .errclr => Sys2Proof.Machine.execErrclr s
  | .fld rd rs1 => Sys2Proof.Machine.execFld rd rs1 s
  | .fst rd rs1 => Sys2Proof.Machine.execFst rd rs1 s
  | .fadd rd rs1 rs2 => Sys2Proof.Machine.execFadd rd rs1 rs2 s
  | .fsub rd rs1 rs2 => Sys2Proof.Machine.execFsub rd rs1 rs2 s
  | .fmul rd rs1 rs2 => Sys2Proof.Machine.execFmul rd rs1 rs2 s
  | .fsq rd rs1 => Sys2Proof.Machine.execFsq rd rs1 s
  | .scred rd rs1 => Sys2Proof.Machine.execScred rd rs1 s
  | .scclamp rs1 => Sys2Proof.Machine.execScclamp rs1 s
  | .gesmb rd rs1 => Sys2Proof.Machine.execGesmb rd rs1 s
  | .gep3p2 rd rs1 => Sys2Proof.Machine.execGep3p2 rd rs1 s
  | .gecomp rd rs1 => Sys2Proof.Machine.execGecomp rd rs1 s
  | .b58eb rd rs1 rs2 => Sys2Proof.Machine.execB58eb rd rs1 rs2 s
  | .b58db rd rs1 rs2 => Sys2Proof.Machine.execB58db rd rs1 rs2 s
  | .b58enc rd rs1 rs2 => Sys2Proof.Machine.execB58enc rd rs1 rs2 s
  | .b58dec rd rs1 rs2 => Sys2Proof.Machine.execB58dec rd rs1 rs2 s
  | .mnenc rd rs1 rs2 lang => Sys2Proof.Machine.execMnenc rd rs1 rs2 lang s
  | .mndec rd rs1 rs2 lang => Sys2Proof.Machine.execMndec rd rs1 rs2 lang s
  | .mncsum rd rs1 rs2 lang => Sys2Proof.Machine.execMncsum rd rs1 rs2 lang s

end Sys2Proof.Machine
end

