-- ==== Sys2Proof/Machine/Issue.lean ====
section
/-! DEFINITION. The unit's step for a command word, `Issue(w)` (`60_exceptions.md` R230), and the host's bus (`20_memory.md` R60 to R62). -/

namespace Sys2Proof.Machine

/-- The word of ERRCLR, the one command executed while an error is on record (`60_exceptions.md` R231). -/
def errclrWord : Word := 0x02000000#32

/-- `Issue(w)` (`60_exceptions.md` R230). -/
def issue (w : Word) (s : State) : Host.Outcome State Fault Refusal :=
  if s.err then
    if w = errclrWord then exec .errclr s else .next s
  else
    match decode w with
    | .error _ => .next (s.enter .illegalCommand w)
    | .ok i => exec i s

/-! The bus map (`20_memory.md` R60). -/

/-- The word a read of an aligned offset returns; CMD and the reserved offsets read 0. -/
def busRead (offset : BitVec 11) (s : State) : Word :=
  let x := offset.toNat
  if x = 0x004 then s.status
  else if x = 0x008 then s.ecmd
  else if x = 0x00C then s.olen.setWidth 32
  else if 0x020 ≤ x ∧ x < 0x040 then (s.readA (BitVec.ofNat 4 ((x - 0x020) / 4))).setWidth 32
  else if 0x400 ≤ x then BitVec.ofNat 32 (le (s.memRead (x - 0x400) 4))
  else 0#32

/-- A word write to an aligned offset: CMD issues a command, the window stores its four bytes whether or
not an error is on record (`20_memory.md` R62), and every other offset ignores it. -/
def busWrite (offset : BitVec 11) (w : Word) (s : State) : Host.Outcome State Fault Refusal :=
  let x := offset.toNat
  if x = 0x000 then issue w s
  else if 0x400 ≤ x then .next (s.memWrite (x - 0x400) (toLE w.toNat 4))
  else .next s

/-- An access is in the host's contract when it is a word at a multiple of 4 (`20_memory.md` R61). -/
def checkAccess (size : AccessSize) (offset : BitVec 11)
    (k : Host.Outcome State Fault Refusal) : Host.Outcome State Fault Refusal :=
  if size ≠ .word then .refused .subWordAccess
  else if offset.toNat % 4 ≠ 0 then .refused .misalignedAccess
  else k

/-- A move of the host and the unit's answer to it (`60_exceptions.md` R247). -/
def hostStep (m : HostMove) (s : State) : Host.Outcome State Fault Refusal :=
  match m with
  | .write size offset w => checkAccess size offset (busWrite offset w s)
  | .read size offset =>
    checkAccess size offset (.next { s with replies := busRead offset s :: s.replies })
  | .reset => .next s.resetUnit

/-- The next move of the host, taken from the list, and the unit's answer; with no move left the unit is
idle and holds its state (`60_exceptions.md` R242). -/
def nextMove (s : State) : Host.Outcome State Fault Refusal :=
  match s.moves with
  | [] => .next s
  | m :: rest => hostStep m { s with moves := rest }

/-- The host's next move made the write of a command word to CMD. -/
def State.withCommand (s : State) (w : Word) : State :=
  { s with moves := .write .word 0#11 w :: s.moves }

end Sys2Proof.Machine
end

