-- ==== Sys2Proof/Machine/Step.lean ====
section
/-! DEFINITION. One step of the machine: the host's next move and the unit's answer to it (`10_state.md` R20). -/

namespace Sys2Proof.Machine

/-- One step (`10_state.md` R20, R24). -/
def step (s : State) : Host.Outcome State Fault Refusal := nextMove s

/-- The state whose next step runs the command of the low `nbits` bits of `w`, all bits above them zero:
the host's next move is a write of that word to CMD. The rest of the state is untouched. -/
def State.withFetchWord (s : State) (nbits w : Nat) : State :=
  s.withCommand (BitVec.ofNat 32 (w % 2 ^ nbits))

end Sys2Proof.Machine
end

