-- ==== Sys2Proof/Safety.lean ====
section
/-! DEFINITION. The terms the claims are stated in: the invariant of the machine, what a command leaves unchanged, and the tables of the spec that say which command may write or raise what. -/

namespace Sys2Proof.Machine

/-! The invariant. -/

/-- What holds of every state the machine can be in: BUF is in its canonical form, inside its 1024 bytes
(`10_state.md` R30); with no error on record ECODE and ECMD are 0, and with one ECODE is a code 1..8 (R26,
R27); OLEN is the length of something that fits BUF (R28). -/
def State.Inv (s : State) : Prop :=
  Memory.wf s.buf = true
    ∧ (s.err = false → s.ecode = 0#4 ∧ s.ecmd = 0#32)
    ∧ (s.err = true → 1 ≤ s.ecode.toNat ∧ s.ecode.toNat ≤ 8)
    ∧ s.olen.toNat ≤ bufSize

/-- Every piece of the unit's state is zero (`10_state.md` R40). -/
def State.UnitIsZero (s : State) : Prop :=
  (∀ i : RegField, (s.readF i).val = 0) ∧ (∀ i : RegField, s.readA i = 0#16) ∧ (∀ y : Nat, s.byte y = 0#8)
    ∧ s.err = false ∧ s.ecode = 0#4 ∧ s.ecmd = 0#32 ∧ s.olen = 0#16

/-! Frames: `s` before, `t` after. -/

/-- The error record is unchanged. -/
def SameRecord (s t : State) : Prop := t.err = s.err ∧ t.ecode = s.ecode ∧ t.ecmd = s.ecmd

/-- The host's side of the state is unchanged. -/
def SameHost (s t : State) : Prop := t.moves = s.moves ∧ t.replies = s.replies

/-- Every field register is unchanged. -/
def SameFieldRegs (s t : State) : Prop := ∀ i : RegField, t.readF i = s.readF i

/-- Every operand register is unchanged. -/
def SameOperandRegs (s t : State) : Prop := ∀ i : RegField, t.readA i = s.readA i

/-- Every byte of BUF is unchanged. -/
def SameBuffer (s t : State) : Prop := ∀ y : Nat, t.byte y = s.byte y

/-- Nothing but the field registers in `D` (and the count of draws) may have changed. -/
def OnlyFieldRegs (D : RegField → Prop) (s t : State) : Prop :=
  (∀ i, ¬ D i → t.readF i = s.readF i) ∧ SameOperandRegs s t ∧ SameBuffer s t ∧ SameRecord s t
    ∧ t.olen = s.olen ∧ SameHost s t

/-- Nothing but operand register `d` may have changed. -/
def OnlyOperandReg (d : RegField) (s t : State) : Prop :=
  (∀ i, isClassA i = true → i ≠ d → t.readA i = s.readA i) ∧ SameFieldRegs s t ∧ SameBuffer s t
    ∧ SameRecord s t ∧ t.olen = s.olen ∧ t.draws = s.draws ∧ SameHost s t

/-- Nothing but `BUF[x .. x+n-1]` and OLEN may have changed. -/
def OnlyBuffer (x n : Nat) (s t : State) : Prop :=
  (∀ y, y < x ∨ x + n ≤ y → t.byte y = s.byte y) ∧ SameFieldRegs s t ∧ SameOperandRegs s t
    ∧ SameRecord s t ∧ t.draws = s.draws ∧ SameHost s t

/-- Nothing but the error record may have changed. -/
def OnlyRecord (s t : State) : Prop :=
  SameFieldRegs s t ∧ SameOperandRegs s t ∧ SameBuffer s t ∧ t.olen = s.olen ∧ t.draws = s.draws
    ∧ SameHost s t

/-- The `n` bytes `out` stand at `x`, OLEN is `n`, and nothing else has changed. -/
def Stores (x : Nat) (out : List Byte) (s t : State) : Prop :=
  t.memRead x out.length = out ∧ t.olen.toNat = out.length ∧ OnlyBuffer x out.length s t

/-- The error `e` raised by the word `w` is on record, and nothing else has changed (`60_exceptions.md`
R233). -/
def EntersError (e : ErrKind) (w : Word) (s t : State) : Prop :=
  t.err = true ∧ t.ecode = e.code ∧ t.ecmd = w ∧ OnlyRecord s t

/-! Command words. -/

/-- `base | d<<20 | s1<<16 | s2<<12 | lang<<8`, the form in which the command rules write their
encodings. -/
def commandWord (base : Word) (d s1 s2 lang : BitVec 4) : Word :=
  base ||| d.setWidth 32 <<< 20 ||| s1.setWidth 32 <<< 16 ||| s2.setWidth 32 <<< 12
    ||| lang.setWidth 32 <<< 8

/-- `match` and `mask` of the twenty rows of the opcode map (`30_encoding.md` R85). -/
def opcodePatterns : List (Word × Word) :=
  [ (0x01000000#32, 0xFF8F0000#32), (0x02000000#32, 0xFFFFFFFF#32), (0x10000000#32, 0xFF08FFFF#32),
    (0x11000000#32, 0xFF80FFFF#32), (0x12000000#32, 0xFF000FFF#32), (0x13000000#32, 0xFF000FFF#32),
    (0x14000000#32, 0xFF000FFF#32), (0x15000000#32, 0xFF00FFFF#32) ]
  ++ [ (0x20000000#32, 0xFF88FFFF#32), (0x21000000#32, 0xFFF8FFFF#32), (0x22000000#32, 0xFFC8FFFF#32),
    (0x23000000#32, 0xFFCCFFFF#32), (0x24000000#32, 0xFF8CFFFF#32) ]
  ++ [ (0x30000000#32, 0xFF888FFF#32), (0x31000000#32, 0xFF888FFF#32), (0x32000000#32, 0xFF888FFF#32),
    (0x33000000#32, 0xFF888FFF#32), (0x40000000#32, 0xFF8880FF#32), (0x41000000#32, 0xFF8880FF#32),
    (0x42000000#32, 0xFF8880FF#32) ]

/-! Which command writes and raises what. -/

/-- The commands that write field registers (`10_state.md` R21). -/
def writesFieldRegs : Instr → Bool
  | .fld .. | .fadd .. | .fsub .. | .fmul .. | .fsq .. | .gesmb .. | .gep3p2 .. => true
  | .lda .. | .errclr | .fst .. | .scred .. | .scclamp .. | .gecomp .. | .b58eb .. | .b58db .. => false
  | .b58enc .. | .b58dec .. | .mnenc .. | .mndec .. | .mncsum .. => false

/-- The commands that write operand registers (`10_state.md` R23). -/
def writesOperandRegs : Instr → Bool
  | .lda .. | .mncsum .. => true
  | .errclr | .fld .. | .fst .. | .fadd .. | .fsub .. | .fmul .. | .fsq .. | .scred .. => false
  | .scclamp .. | .gesmb .. | .gep3p2 .. | .gecomp .. | .b58eb .. | .b58db .. | .b58enc .. => false
  | .b58dec .. | .mnenc .. | .mndec .. => false

/-- The commands that write BUF, and OLEN with it (`10_state.md` R28). -/
def writesBuffer : Instr → Bool
  | .fst .. | .scred .. | .scclamp .. | .gecomp .. | .b58eb .. | .b58db .. | .b58enc .. => true
  | .b58dec .. | .mnenc .. | .mndec .. => true
  | .lda .. | .errclr | .fld .. | .fadd .. | .fsub .. | .fmul .. | .fsq .. | .gesmb .. => false
  | .gep3p2 .. | .mncsum .. => false

/-- The error kinds a decoded command may raise (`60_exceptions.md` R234, the column "raised by"). -/
def mayRaise : Instr → List ErrKind
  | .lda .. | .errclr | .fadd .. | .fsub .. | .fmul .. | .fsq .. | .gep3p2 .. => []
  | .fld .. | .fst .. | .scred .. | .scclamp .. | .gesmb .. | .gecomp .. => [.contractViolation]
  | .b58eb .. | .b58enc .. => [.contractViolation]
  | .b58db .. | .b58dec .. => [.contractViolation, .invalidEncodedSize, .invalidDigit, .overflow]
  | .mnenc .. | .mncsum .. => [.unsupportedLanguage, .contractViolation]
  | .mndec .. =>
    [.unsupportedLanguage, .contractViolation, .invalidEncodedSize, .invalidMnemonic,
      .mnemonicChecksumMismatch]

/-! The group, said without the model's algorithm. -/

/-- `[k]P` as `P` added to itself `k` times, one addition at a time, starting from `O` (`00_scope.md`
R8). -/
def repeatedSum (P : Point) : Nat → Point
  | 0 => neutral
  | k + 1 => pointAdd (repeatedSum P k) P

end Sys2Proof.Machine
end

