-- ==== Sys2Proof/Certificates/Slice0/Obligations.lean ====
section
/-! DEFINITION. The statements for the provers. Each is about every state, reached or not, unless a hypothesis says otherwise. -/

open Sys2Proof Sys2Proof.Machine

/-! Reset and the invariant. -/

/-- `10_state.md` R40, `70_reset_and_hazards.md` R260: after power-on, and after the `rst` input in any
state, every piece of the unit's state is zero; that `rst` leaves the host's further moves and replies as they
were is the model's choice (log entries 1 and 2). -/
def Obligations.ResetZeroesTheUnit : Prop :=
  State.reset.UnitIsZero ∧
  ∀ (s : State) (rest : List HostMove), s.moves = .reset :: rest →
    ∃ t, step s = .next t ∧ t.UnitIsZero ∧ t.moves = rest ∧ t.replies = s.replies

/-- The reset state meets the invariant. -/
def Obligations.ResetStateMeetsInvariant : Prop := State.reset.Inv

/-- Every step keeps the invariant: BUF stays canonical and inside its 1024 bytes, the error record stays
consistent (`10_state.md` R26, R27), OLEN stays a length that fits BUF (R28). -/
def Obligations.StepKeepsInvariant : Prop :=
  ∀ s t : State, s.Inv → step s = .next t → t.Inv

/-! Decoding. -/

/-- Every well-formed command is read back from its own word. -/
def Obligations.DecodeOfEncodeIsIdentity : Prop :=
  ∀ i : Instr, WellFormed i = true → decode (encode i) = .ok i

/-- A word that decodes is the word of the command it decodes to, and that command is well formed: no bit
of a legal word is dropped. -/
def Obligations.EncodeOfDecodeIsIdentity : Prop :=
  ∀ (w : Word) (i : Instr), decode w = .ok i → encode i = w ∧ WellFormed i = true

/-- `30_encoding.md` R85, R86, R90: a word is legal exactly when it matches a row of the opcode map, and it
never matches two. -/
def Obligations.LegalWordsAreTheTableRows : Prop :=
  (∀ w : Word, (∃ i, decode w = .ok i) ↔ ∃ r ∈ opcodePatterns, w &&& r.2 = r.1) ∧
  (∀ w : Word, ∀ r₁ ∈ opcodePatterns, ∀ r₂ ∈ opcodePatterns,
    w &&& r₁.2 = r₁.1 → w &&& r₂.2 = r₂.1 → r₁ = r₂)

/-- A few command words of `95_test_vectors.md` 2.1, one per family, decode to the command they stand for,
and a few illegal ones are rejected. -/
def Obligations.SampleWordsDecode : Prop :=
  decode 0x01200040#32 = .ok (.lda 2#4 0x40#16) ∧ decode 0x12312000#32 = .ok (.fadd 3#4 1#4 2#4) ∧
  decode 0x22370000#32 = .ok (.gesmb 3#4 7#4) ∧ decode 0x31201000#32 = .ok (.b58db 2#4 0#4 1#4) ∧
  decode 0x40201F00#32 = .ok (.mnenc 2#4 0#4 1#4 15#4) ∧
  decode 0x00000000#32 = .error .noSuchOpcode ∧ decode 0x02000001#32 = .error .fieldNotAllowed

/-! The step of the unit. -/

/-- `60_exceptions.md` R230: with no error on record, a write to CMD of a word that decodes to `i` runs
`exec i` on the state from which that move has been taken. The list of moves is the model's (log
entry 1). -/
def Obligations.StepRunsDecodedCommand : Prop :=
  ∀ (s : State) (w : Word) (rest : List HostMove) (i : Instr),
    s.moves = .write .word 0x000#11 w :: rest → s.err = false → decode w = .ok i →
    step s = exec i { s with moves := rest }

/-- `30_encoding.md` R86, `60_exceptions.md` R230: with no error on record, an illegal word written to CMD
raises IllegalCommand and changes nothing else. -/
def Obligations.IllegalWordEntersIllegalCommand : Prop :=
  ∀ (s : State) (w : Word) (rest : List HostMove),
    s.moves = .write .word 0x000#11 w :: rest → s.err = false → (∀ i, decode w ≠ .ok i) →
    ∃ t, step s = .next t ∧ EntersError .illegalCommand w { s with moves := rest } t

/-- `60_exceptions.md` R231, R240: while an error is on record, a sequence of writes to CMD that holds no
ERRCLR word changes no state whatever, however long it is. -/
def Obligations.CommandsAreSkippedWhileErrorOnRecord : Prop :=
  ∀ (ws : List Word) (rest : List HostMove) (s : State),
    (∀ w ∈ ws, w ≠ 0x02000000#32) → s.err = true →
    s.moves = ws.map (fun w => .write .word 0x000#11 w) ++ rest →
    Host.Core.run Sys2Proof.core ws.length s = .next { s with moves := rest }

/-- `60_exceptions.md` R231, R239: while an error is on record the word 0x02000000 is executed: it runs
ERRCLR. -/
def Obligations.ErrclrRunsWhileErrorOnRecord : Prop :=
  ∀ (s : State) (rest : List HostMove),
    s.moves = .write .word 0x000#11 0x02000000#32 :: rest → s.err = true →
    ∃ t, step s = .next t ∧ t.err = false ∧ t.ecode = 0#4 ∧ t.ecmd = 0#32
      ∧ OnlyRecord { s with moves := rest } t

/-- `60_exceptions.md` R242: with no move of the host, the unit is idle and holds all its state. That a
step without a move exists at all is the model's choice (log entry 1). -/
def Obligations.IdleUnitHoldsItsState : Prop :=
  ∀ s : State, s.moves = [] → step s = .next s

/-- `60_exceptions.md` R230, `70_reset_and_hazards.md` R264: every command word in every state retires. -/
def Obligations.EveryCommandWordRetires : Prop :=
  ∀ (s : State) (w : Word) (rest : List HostMove),
    s.moves = .write .word 0x000#11 w :: rest → ∃ t, step s = .next t ∧ t.moves = rest

/-! Errors. -/

/-- `60_exceptions.md` R233, R234: the codes of the eight kinds, and what STATUS and ECMD read once an
error is on record; entry changes nothing else. -/
def Obligations.ErrorEntryRecordsKindAndWord : Prop :=
  (ErrKind.invalidDigit.code = 1#4 ∧ ErrKind.invalidEncodedSize.code = 2#4 ∧ ErrKind.overflow.code = 3#4 ∧
    ErrKind.invalidMnemonic.code = 4#4 ∧ ErrKind.mnemonicChecksumMismatch.code = 5#4 ∧
    ErrKind.unsupportedLanguage.code = 6#4 ∧ ErrKind.contractViolation.code = 7#4 ∧
    ErrKind.illegalCommand.code = 8#4) ∧
  ∀ (s : State) (e : ErrKind) (w : Word),
    EntersError e w s (s.enter e w) ∧ (s.enter e w).status.toNat = 0x01 + 16 * e.code.toNat

/-- `10_state.md` R26: STATUS holds ERR in bit 0 and ECODE in bits 7:4, and its other bits read zero. -/
def Obligations.StatusWordHoldsFlagAndCode : Prop :=
  ∀ s : State, s.status.toNat = s.err.toNat + 16 * s.ecode.toNat

/-- `20_memory.md` R57, `60_exceptions.md` R230, R233: a command that ends with an error on record where
there was none has written nothing but that record, whose ECMD is its own word and whose ECODE is that of a
kind the command may raise (R234). -/
def Obligations.FailingCommandWritesOnlyTheRecord : Prop :=
  ∀ (i : Instr) (s t : State), exec i s = .next t → s.err = false → t.err = true →
    ∃ e ∈ mayRaise i, EntersError e (encode i) s t

/-- `10_state.md` R21, R23, R28 (and the last column of R40): only the commands listed there write field
registers, operand registers, or BUF and OLEN. -/
def Obligations.OnlyListedCommandsWriteEachKindOfState : Prop :=
  ∀ (i : Instr) (s t : State), exec i s = .next t →
    (writesFieldRegs i = false → SameFieldRegs s t) ∧ (writesOperandRegs i = false → SameOperandRegs s t) ∧
    (writesBuffer i = false → SameBuffer s t ∧ t.olen = s.olen) ∧ SameHost s t

/-! The host's bus. -/

/-- `20_memory.md` R62: a word write to the BUF window replaces four bytes, the lowest in bits 7:0, whether
or not an error is on record, and changes nothing else. -/
def Obligations.WindowWriteStoresFourBytes : Prop :=
  ∀ (s : State) (k : Nat) (w : Word) (rest : List HostMove), k < 256 →
    s.moves = .write .word (BitVec.ofNat 11 (0x400 + 4 * k)) w :: rest →
    ∃ t, step s = .next t ∧
      t.byte (4 * k) = w.extractLsb' 0 8 ∧ t.byte (4 * k + 1) = w.extractLsb' 8 8 ∧
      t.byte (4 * k + 2) = w.extractLsb' 16 8 ∧ t.byte (4 * k + 3) = w.extractLsb' 24 8 ∧
      t.olen = s.olen ∧ OnlyBuffer (4 * k) 4 { s with moves := rest } t

/-- `20_memory.md` R60, R62: what an aligned word read returns, offset by offset; a read changes nothing
else. That the word returned is put in front of the host's replies is the model's choice (log entry 2). -/
def Obligations.BusReadsFollowTheBusMap : Prop :=
  ∀ (s : State) (x : Nat) (rest : List HostMove), x % 4 = 0 → x < 0x800 →
    s.moves = .read .word (BitVec.ofNat 11 x) :: rest →
    ∃ v : Word, step s = .next { s with moves := rest, replies := v :: s.replies } ∧
      (x = 0x000 → v = 0#32) ∧ (x = 0x004 → v = s.status) ∧ (x = 0x008 → v = s.ecmd) ∧
      (x = 0x00C → v.toNat = s.olen.toNat) ∧ (0x010 ≤ x → x < 0x020 → v = 0#32) ∧
      (∀ i < 8, x = 0x020 + 4 * i → v.toNat = (s.readA (BitVec.ofNat 4 i)).toNat) ∧
      (0x040 ≤ x → x < 0x400 → v = 0#32) ∧
      (∀ k < 256, x = 0x400 + 4 * k →
        v.toNat = (s.byte (4 * k)).toNat + 2 ^ 8 * (s.byte (4 * k + 1)).toNat
          + 2 ^ 16 * (s.byte (4 * k + 2)).toNat + 2 ^ 24 * (s.byte (4 * k + 3)).toNat)

/-- `20_memory.md` R60: an aligned word write to a read-only or reserved offset is ignored. -/
def Obligations.WritesToReadOnlyOffsetsAreIgnored : Prop :=
  ∀ (s : State) (x : Nat) (w : Word) (rest : List HostMove), x % 4 = 0 → 0x004 ≤ x → x < 0x400 →
    s.moves = .write .word (BitVec.ofNat 11 x) w :: rest → step s = .next { s with moves := rest }

/-- `20_memory.md` R61: an access that is not a word at a multiple of 4 is refused. The two names, and that
a byte or halfword access off its alignment is refused as `subWordAccess`, are the model's (log
entry 8). -/
def Obligations.SubWordAndMisalignedAccessesAreRefused : Prop :=
  ∀ (s : State) (size : AccessSize) (offset : BitVec 11) (w : Word) (rest : List HostMove),
    (s.moves = .write size offset w :: rest ∨ s.moves = .read size offset :: rest) →
    (size ≠ .word → step s = .refused .subWordAccess) ∧
    (size = .word → offset.toNat % 4 ≠ 0 → step s = .refused .misalignedAccess)

/-! Control commands. -/

/-- LDA, `44_control.md` R220: result, frame, encoding, and the skip while an error is on record. -/
def Obligations.LdaLoadsOperandRegister : Prop :=
  ∀ (rd : RegField) (imm : Half) (s : State), WellFormed (.lda rd imm) = true →
    encode (.lda rd imm) = commandWord 0x01000000#32 rd 0#4 0#4 0#4 ||| imm.setWidth 32 ∧
    (∃ t, exec (.lda rd imm) s = .next t ∧ t.readA rd = imm ∧ OnlyOperandReg rd s t) ∧
    (s.err = true → issue (encode (.lda rd imm)) s = .next s)

/-- ERRCLR, `44_control.md` R221: the record is cleared and nothing else changes; with no error recorded
nothing changes; any other word of its opcode is illegal, and is skipped while an error is on record. -/
def Obligations.ErrclrClearsTheRecord : Prop :=
  encode .errclr = 0x02000000#32 ∧
  (∀ s : State, ∃ t, exec .errclr s = .next t ∧ t.err = false ∧ t.ecode = 0#4 ∧ t.ecmd = 0#32
    ∧ OnlyRecord s t) ∧
  (∀ s : State, s.err = false → s.ecode = 0#4 → s.ecmd = 0#32 → exec .errclr s = .next s) ∧
  (∀ w : Word, opField w = 0x02#8 → w ≠ 0x02000000#32 →
    (∀ i, decode w ≠ .ok i) ∧ ∀ s : State, s.err = true → issue w s = .next s)

/-! Field commands. -/

/-- FLD, `40_field.md` R112. -/
def Obligations.FldLoadsReducedElement : Prop :=
  ∀ (rd rs1 : RegField) (s : State), WellFormed (.fld rd rs1) = true →
    encode (.fld rd rs1) = commandWord 0x10000000#32 rd rs1 0#4 0#4 ∧
    (s.operand rs1 + 32 ≤ 1024 →
      ∃ t, exec (.fld rd rs1) s = .next t ∧
        (t.readF rd).val = (le (s.memRead (s.operand rs1) 32) % 2 ^ 255) % p ∧
        OnlyFieldRegs (· = rd) s t ∧ t.draws = s.draws) ∧
    (s.operand rs1 + 32 > 1024 →
      ∃ t, exec (.fld rd rs1) s = .next t ∧ EntersError .contractViolation (encode (.fld rd rs1)) s t)

/-- FST, `40_field.md` R113: the 32 bytes stored have the register's value, so bit 255 is clear. -/
def Obligations.FstStoresCanonicalEncoding : Prop :=
  ∀ (rd rs1 : RegField) (s : State), WellFormed (.fst rd rs1) = true →
    encode (.fst rd rs1) = commandWord 0x11000000#32 rd rs1 0#4 0#4 ∧
    (s.operand rd + 32 ≤ 1024 →
      ∃ t, exec (.fst rd rs1) s = .next t ∧
        le (t.memRead (s.operand rd) 32) = (s.readF rs1).val ∧ t.olen = 32#16 ∧
        (t.byte (s.operand rd + 31)).toNat < 0x80 ∧ OnlyBuffer (s.operand rd) 32 s t) ∧
    (s.operand rd + 32 > 1024 →
      ∃ t, exec (.fst rd rs1) s = .next t ∧ EntersError .contractViolation (encode (.fst rd rs1)) s t)

/-- FADD, `40_field.md` R114; the registers may coincide in any way (R118). -/
def Obligations.FaddAddsModP : Prop :=
  ∀ (rd rs1 rs2 : RegField) (s : State),
    encode (.fadd rd rs1 rs2) = commandWord 0x12000000#32 rd rs1 rs2 0#4 ∧
    ∃ t, exec (.fadd rd rs1 rs2) s = .next t ∧
      (t.readF rd).val = ((s.readF rs1).val + (s.readF rs2).val) % p ∧
      OnlyFieldRegs (· = rd) s t ∧ t.draws = s.draws

/-- FSUB, `40_field.md` R115: the order is `rs1` minus `rs2`. -/
def Obligations.FsubSubtractsModP : Prop :=
  ∀ (rd rs1 rs2 : RegField) (s : State),
    encode (.fsub rd rs1 rs2) = commandWord 0x13000000#32 rd rs1 rs2 0#4 ∧
    ∃ t, exec (.fsub rd rs1 rs2) s = .next t ∧
      ((t.readF rd).val : Int) = (((s.readF rs1).val : Int) - (s.readF rs2).val) % p ∧
      OnlyFieldRegs (· = rd) s t ∧ t.draws = s.draws

/-- FMUL, `40_field.md` R116. -/
def Obligations.FmulMultipliesModP : Prop :=
  ∀ (rd rs1 rs2 : RegField) (s : State),
    encode (.fmul rd rs1 rs2) = commandWord 0x14000000#32 rd rs1 rs2 0#4 ∧
    ∃ t, exec (.fmul rd rs1 rs2) s = .next t ∧
      (t.readF rd).val = ((s.readF rs1).val * (s.readF rs2).val) % p ∧
      OnlyFieldRegs (· = rd) s t ∧ t.draws = s.draws

/-- FSQ, `40_field.md` R117: the square modulo `p`; that it gives exactly what FMUL of the register with
itself gives is an inference R117 marks as the spec's own (derived from R116). -/
def Obligations.FsqSquaresModP : Prop :=
  ∀ (rd rs1 : RegField) (s : State),
    encode (.fsq rd rs1) = commandWord 0x15000000#32 rd rs1 0#4 0#4 ∧
    exec (.fsq rd rs1) s = exec (.fmul rd rs1 rs1) s ∧
    ∃ t, exec (.fsq rd rs1) s = .next t ∧ (t.readF rd).val = (s.readF rs1).val ^ 2 % p ∧
      OnlyFieldRegs (· = rd) s t ∧ t.draws = s.draws

/-- `40_field.md` R111: FST and then FLD of the same 32 bytes returns the same element, which R111 marks as
the spec's own inference (derived from R112 and R113). -/
def Obligations.FstThenFldReturnsTheElement : Prop :=
  ∀ (rd rs1 d : RegField) (s : State), s.operand rd + 32 ≤ 1024 →
    ∃ t u, exec (.fst rd rs1) s = .next t ∧ exec (.fld d rd) t = .next u ∧ u.readF d = s.readF rs1

/-- `40_field.md` R119: the results of the three operations are congruent to the exact ones, and the inverse
of `00_scope.md` R8 is the inverse for every non-zero element and 0 for 0. -/
def Obligations.FieldOperationsAreThoseOfTheField : Prop :=
  (∀ x y : Elem, ((fieldAdd x y).val : ZMod p) = (x.val : ZMod p) + (y.val : ZMod p) ∧
    ((fieldSub x y).val : ZMod p) = (x.val : ZMod p) - (y.val : ZMod p) ∧
    ((fieldMul x y).val : ZMod p) = (x.val : ZMod p) * (y.val : ZMod p)) ∧
  (∀ z : Elem, (fieldInv z).val = z.val ^ (p - 2) % p) ∧
  (∀ z : Elem, z.val ≠ 0 → (fieldMul z (fieldInv z)).val = 1) ∧
  (∀ z : Elem, z.val = 0 → (fieldInv z).val = 0)

/-- `10_state.md` R22: coordinate `j` of `Pk` is `F[4k+j]`, for reading and for writing. -/
def Obligations.PointRegistersAliasFieldRegisters : Prop :=
  ∀ (s : State) (k j : Nat) (v : Elem), k < 4 → j < 4 →
    s.coord (BitVec.ofNat 4 k) (BitVec.ofNat 4 j) = s.readF (BitVec.ofNat 4 (4 * k + j)) ∧
    (s.writeF (BitVec.ofNat 4 (4 * k + j)) v).coord (BitVec.ofNat 4 k) (BitVec.ofNat 4 j) = v

/-! Scalar and curve commands. -/

/-- SCRED, `41_curve_scalar.md` R135. -/
def Obligations.ScredReducesModL : Prop :=
  ∀ (rd rs1 : RegField) (s : State), WellFormed (.scred rd rs1) = true →
    encode (.scred rd rs1) = commandWord 0x20000000#32 rd rs1 0#4 0#4 ∧
    (s.operand rs1 + 64 ≤ 1024 → s.operand rd + 32 ≤ 1024 →
      ∃ t, exec (.scred rd rs1) s = .next t ∧
        le (t.memRead (s.operand rd) 32)
          = le (s.memRead (s.operand rs1) 64) % (2 ^ 252 + 27742317777372353535851937790883648493) ∧
        t.olen = 32#16 ∧ OnlyBuffer (s.operand rd) 32 s t) ∧
    (s.operand rs1 + 64 > 1024 ∨ s.operand rd + 32 > 1024 →
      ∃ t, exec (.scred rd rs1) s = .next t ∧ EntersError .contractViolation (encode (.scred rd rs1)) s t)

/-- SCCLAMP, `41_curve_scalar.md` R136: byte by byte, and as the integer the bytes stand for. -/
def Obligations.ScclampClampsInPlace : Prop :=
  ∀ (rs1 : RegField) (s : State), WellFormed (.scclamp rs1) = true →
    encode (.scclamp rs1) = commandWord 0x21000000#32 0#4 rs1 0#4 0#4 ∧
    (s.operand rs1 + 32 ≤ 1024 →
      ∃ t, exec (.scclamp rs1) s = .next t ∧
        t.byte (s.operand rs1) = s.byte (s.operand rs1) &&& 0xF8#8 ∧
        t.byte (s.operand rs1 + 31) = (s.byte (s.operand rs1 + 31) &&& 0x7F#8) ||| 0x40#8 ∧
        (∀ i, 1 ≤ i → i ≤ 30 → t.byte (s.operand rs1 + i) = s.byte (s.operand rs1 + i)) ∧
        2 ^ 254 ≤ le (t.memRead (s.operand rs1) 32) ∧ le (t.memRead (s.operand rs1) 32) < 2 ^ 255 ∧
        8 ∣ le (t.memRead (s.operand rs1) 32) ∧
        t.olen = 32#16 ∧ OnlyBuffer (s.operand rs1) 32 s t ∧
        ∃ u, exec (.scclamp rs1) t = .next u ∧ SameBuffer t u) ∧
    (s.operand rs1 + 32 > 1024 →
      ∃ t, exec (.scclamp rs1) s = .next t ∧ EntersError .contractViolation (encode (.scclamp rs1)) s t)

/-- GESMB, `41_curve_scalar.md` R137 to R139: for every value the draw may take, the four registers of `Pd`
hold the representative of `[k]B` with that `Z`, `k` being all 256 bits of the 32 bytes. What `[k]B` is, is
said by `ScalarMulIsRepeatedAddition` (log entry 5); the draw is the model's free value (log entry 3).
`X Y = Z T` is the spec's own inference (R138, derived from R130 and the draw). -/
def Obligations.GesmbDeliversARepresentative : Prop :=
  ∀ (rd rs1 : RegField) (s : State), WellFormed (.gesmb rd rs1) = true →
    encode (.gesmb rd rs1) = commandWord 0x22000000#32 rd rs1 0#4 0#4 ∧
    (s.operand rs1 + 32 ≤ 1024 →
      ∃ (t : State) (P : Point) (l : Nat), exec (.gesmb rd rs1) s = .next t ∧
        P = scalarMul (le (s.memRead (s.operand rs1) 32)) basePoint ∧ 1 ≤ l ∧ l < p ∧
        (t.coord rd 0#4).val = l * P.x.val % p ∧ (t.coord rd 1#4).val = l * P.y.val % p ∧
        (t.coord rd 2#4).val = l ∧ (t.coord rd 3#4).val = l * P.x.val * P.y.val % p ∧
        (t.coord rd 0#4).val * (t.coord rd 1#4).val % p = (t.coord rd 2#4).val * (t.coord rd 3#4).val % p ∧
        OnlyFieldRegs (fun i => ∃ j < 4, i = BitVec.ofNat 4 (4 * rd.toNat + j)) s t) ∧
    (s.operand rs1 + 32 > 1024 →
      ∃ t, exec (.gesmb rd rs1) s = .next t ∧ EntersError .contractViolation (encode (.gesmb rd rs1)) s t)

/-- `00_scope.md` R8, `41_curve_scalar.md` R134: on a point of the curve, the model's doubling algorithm
gives the `k`-fold sum, one addition at a time (log entry 5). -/
def Obligations.ScalarMulIsRepeatedAddition : Prop :=
  ∀ (P : Point) (k : Nat), P.onCurve = true → scalarMul k P = repeatedSum P k

/-- `41_curve_scalar.md` R130, R134: sums of points of the curve lie on the curve, and so does every
`[k]B`, summed as log entry 5 says. -/
def Obligations.MultiplesOfBasePointLieOnTheCurve : Prop :=
  (∀ P Q : Point, P.onCurve = true → Q.onCurve = true → (pointAdd P Q).onCurve = true) ∧
  ∀ k : Nat, (scalarMul k basePoint).onCurve = true

/-- GEP3P2, `41_curve_scalar.md` R141: `X, Y, Z` are copied, the destination's `T` keeps its old value, and
a copy onto itself changes nothing. -/
def Obligations.Gep3p2CopiesThreeCoordinates : Prop :=
  ∀ (rd rs1 : RegField) (s : State), WellFormed (.gep3p2 rd rs1) = true →
    encode (.gep3p2 rd rs1) = commandWord 0x23000000#32 rd rs1 0#4 0#4 ∧
    ∃ t, exec (.gep3p2 rd rs1) s = .next t ∧
      t.coord rd 0#4 = s.coord rs1 0#4 ∧ t.coord rd 1#4 = s.coord rs1 1#4 ∧
      t.coord rd 2#4 = s.coord rs1 2#4 ∧ t.coord rd 3#4 = s.coord rd 3#4 ∧
      OnlyFieldRegs (fun i => ∃ j < 3, i = BitVec.ofNat 4 (4 * rd.toNat + j)) s t ∧ t.draws = s.draws ∧
      (rd ≠ rs1 → ∀ j, t.coord rs1 (BitVec.ofNat 4 (j % 4)) = s.coord rs1 (BitVec.ofNat 4 (j % 4))) ∧
      (rd = rs1 → t = s)

/-- GECOMP, `41_curve_scalar.md` R140: the integer of the 32 bytes stored is `y + 2^255 (x mod 2)` with
`x = X Z^(p-2) mod p`, `y = Y Z^(p-2) mod p`; in particular 0 when `Z = 0`; and the output does not depend
on the representative. -/
def Obligations.GecompCompressesThePoint : Prop :=
  (∀ l X Y Z : Elem, l.val ≠ 0 →
    compress (fieldMul l X) (fieldMul l Y) (fieldMul l Z) = compress X Y Z) ∧
  ∀ (rd rs1 : RegField) (s : State), WellFormed (.gecomp rd rs1) = true →
    encode (.gecomp rd rs1) = commandWord 0x24000000#32 rd rs1 0#4 0#4 ∧
    (s.operand rd + 32 ≤ 1024 →
      ∃ t, exec (.gecomp rd rs1) s = .next t ∧
        le (t.memRead (s.operand rd) 32)
          = (s.coord rs1 1#4).val * ((s.coord rs1 2#4).val ^ (p - 2) % p) % p
            + 2 ^ 255 * ((s.coord rs1 0#4).val * ((s.coord rs1 2#4).val ^ (p - 2) % p) % p % 2) ∧
        ((s.coord rs1 2#4).val = 0 → ∀ i < 32, t.byte (s.operand rd + i) = 0#8) ∧
        t.olen = 32#16 ∧ OnlyBuffer (s.operand rd) 32 s t) ∧
    (s.operand rd + 32 > 1024 →
      ∃ t, exec (.gecomp rd rs1) s = .next t ∧ EntersError .contractViolation (encode (.gecomp rd rs1)) s t)

/-- `41_curve_scalar.md` R139: what GECOMP writes after GESMB does not depend on the draw (the model's free
value, log entry 3): for every draw it is the compression of the affine point `[k]B`, summed as log entry 5
says. -/
def Obligations.GesmbThenGecompIsIndependentOfTheDraw : Prop :=
  ∀ (pd rs1 rd : RegField) (s : State) (P : Point),
    s.operand rs1 + 32 ≤ 1024 → s.operand rd + 32 ≤ 1024 →
    P = scalarMul (le (s.memRead (s.operand rs1) 32)) basePoint →
    ∃ t u, exec (.gesmb pd rs1) s = .next t ∧ exec (.gecomp rd pd) t = .next u ∧
      le (u.memRead (s.operand rd) 32) = P.y.val + 2 ^ 255 * (P.x.val % 2)

/-- `41_curve_scalar.md` R142, which the spec marks as its own inference (derived from R134, R135 and R140):
GESMB and GECOMP of a scalar write the same 32 bytes as SCRED of the scalar extended by 32 zero bytes, then
GESMB of the reduced scalar, then GECOMP. The two draws are the model's free values (log entry 3), and the
sums are computed as log entry 5 says. -/
def Obligations.ReducedScalarGivesTheSamePoint : Prop :=
  ∀ (pd rs1 rz rr rd : RegField) (s : State),
    s.operand rs1 + 32 ≤ 1024 → s.operand rz + 64 ≤ 1024 → s.operand rr + 32 ≤ 1024 →
    s.operand rd + 32 ≤ 1024 →
    s.memRead (s.operand rz) 64 = s.memRead (s.operand rs1) 32 ++ List.replicate 32 0#8 →
    ∃ t u a b c, exec (.gesmb pd rs1) s = .next t ∧ exec (.gecomp rd pd) t = .next u ∧
      exec (.scred rr rz) s = .next a ∧ exec (.gesmb pd rr) a = .next b ∧ exec (.gecomp rd pd) b = .next c ∧
      u.memRead (s.operand rd) 32 = c.memRead (s.operand rd) 32

/-! Base58 commands. -/

/-- `42_base58.md` R164: `encblk` of 1 to 8 bytes is TAB characters, digit by digit; the digits are exactly
those of the block's value. -/
def Obligations.EncodeBlockWritesTheDigits : Prop :=
  ∀ b : List Byte, 1 ≤ b.length → b.length ≤ 8 →
    (encodeBlock b).length = encodedLength b.length ∧ be b < 58 ^ encodedLength b.length ∧
    ∀ j < encodedLength b.length,
      (encodeBlock b)[j]? = alphabet[be b / 58 ^ (encodedLength b.length - 1 - j) % 58]?

/-- `42_base58.md` R166, in words: of a text whose characters all have digits, the group decodes when the
base-58 value is at most `2^64 - 1`, to the last `n` of its eight big-endian bytes whatever the bytes before
them hold, and raises Overflow above that; of a text that breaks at a character with no digit, it raises
InvalidDigit unless the value so far has overflowed. -/
def Obligations.DecodeGroupIsHornersRule : Prop :=
  ∀ (t : List Byte) (n : Nat) (ds : List Nat), n ≤ 8 → t.map digit = ds.map some →
    (ds.foldl (fun v x => v * 58 + x) 0 ≤ 2 ^ 64 - 1 →
      decodeGroup t n = .ok (toBE (ds.foldl (fun v x => v * 58 + x) 0 % 2 ^ (8 * n)) n) ∧
      ∀ (c : Byte) (rest : List Byte), digit c = none → decodeGroup (t ++ c :: rest) n = .error .invalidDigit) ∧
    (ds.foldl (fun v x => v * 58 + x) 0 > 2 ^ 64 - 1 →
      ∀ rest : List Byte, decodeGroup (t ++ rest) n = .error .overflow)

/-- B58EB, `42_base58.md` R165. -/
def Obligations.B58ebEncodesOneBlock : Prop :=
  ∀ (rd rs1 rs2 : RegField) (s : State), WellFormed (.b58eb rd rs1 rs2) = true →
    encode (.b58eb rd rs1 rs2) = commandWord 0x30000000#32 rd rs1 rs2 0#4 ∧
    (1 ≤ s.operand rs2 → s.operand rs2 ≤ 8 → s.operand rs1 + s.operand rs2 ≤ 1024 →
      s.operand rd + encodedLength (s.operand rs2) ≤ 1024 →
      ∃ t, exec (.b58eb rd rs1 rs2) s = .next t ∧ t.olen.toNat = encodedLength (s.operand rs2) ∧
        Stores (s.operand rd) (encodeBlock (s.memRead (s.operand rs1) (s.operand rs2))) s t) ∧
    (s.operand rs2 < 1 ∨ 8 < s.operand rs2 ∨ s.operand rs1 + s.operand rs2 > 1024 ∨
        s.operand rd + encodedLength (s.operand rs2) > 1024 →
      ∃ t, exec (.b58eb rd rs1 rs2) s = .next t ∧
        EntersError .contractViolation (encode (.b58eb rd rs1 rs2)) s t)

/-- B58DB, `42_base58.md` R167, in the order of its failures. -/
def Obligations.B58dbDecodesOneGroup : Prop :=
  ∀ (rd rs1 rs2 : RegField) (s : State) (x m o : Nat) (w : Word), WellFormed (.b58db rd rs1 rs2) = true →
    x = s.operand rs1 → m = s.operand rs2 → o = s.operand rd → w = encode (.b58db rd rs1 rs2) →
    w = commandWord 0x31000000#32 rd rs1 rs2 0#4 ∧
    ∃ t, exec (.b58db rd rs1 rs2) s = .next t ∧
      (x + m > 1024 → EntersError .contractViolation w s t) ∧
      (x + m ≤ 1024 → m ∉ [2, 3, 5, 6, 7, 9, 10, 11] → EntersError .invalidEncodedSize w s t) ∧
      (x + m ≤ 1024 → m ∈ [2, 3, 5, 6, 7, 9, 10, 11] →
        ∃ n, encodedLength n = m ∧ n ≤ 8 ∧
        match decodeGroup (s.memRead x m) n with
        | .error e => EntersError e w s t
        | .ok out => out.length = n ∧
          (if o + n ≤ 1024 then Stores o out s t else EntersError .contractViolation w s t))

/-- B58ENC, `42_base58.md` R168: block `i` stands at character `11 i`, the tail last, and OLEN is the length
the table gives. -/
def Obligations.B58encEncodesByBlocks : Prop :=
  ∀ (rd rs1 rs2 : RegField) (s : State) (x n o m : Nat) (w : Word), WellFormed (.b58enc rd rs1 rs2) = true →
    x = s.operand rs1 → n = s.operand rs2 → o = s.operand rd → w = encode (.b58enc rd rs1 rs2) →
    m = 11 * (n / 8) + encodedLength (n % 8) →
    w = commandWord 0x32000000#32 rd rs1 rs2 0#4 ∧
    (x + n ≤ 1024 → o + m ≤ 1024 →
      ∃ t, exec (.b58enc rd rs1 rs2) s = .next t ∧ t.olen.toNat = m ∧ OnlyBuffer o m s t ∧
        (∀ i < n / 8, t.memRead (o + 11 * i) 11 = encodeBlock (s.memRead (x + 8 * i) 8)) ∧
        (0 < n % 8 → t.memRead (o + 11 * (n / 8)) (encodedLength (n % 8))
          = encodeBlock (s.memRead (x + 8 * (n / 8)) (n % 8)))) ∧
    (x + n > 1024 ∨ o + m > 1024 →
      ∃ t, exec (.b58enc rd rs1 rs2) s = .next t ∧ EntersError .contractViolation w s t)

/-- B58DEC, `42_base58.md` R169, in the order of its failures: the source range, the size, the groups from
the left, the destination. -/
def Obligations.B58decDecodesByGroups : Prop :=
  ∀ (rd rs1 rs2 : RegField) (s : State) (x n o : Nat) (w : Word), WellFormed (.b58dec rd rs1 rs2) = true →
    x = s.operand rs1 → n = s.operand rs2 → o = s.operand rd → w = encode (.b58dec rd rs1 rs2) →
    w = commandWord 0x33000000#32 rd rs1 rs2 0#4 ∧
    ∃ t, exec (.b58dec rd rs1 rs2) s = .next t ∧
      (x + n > 1024 → EntersError .contractViolation w s t) ∧
      (x + n ≤ 1024 → n % 11 ∈ [1, 4, 8] → EntersError .invalidEncodedSize w s t) ∧
      (x + n ≤ 1024 → n % 11 ∉ [1, 4, 8] →
        ∃ r, encodedLength r = n % 11 ∧ r ≤ 7 ∧
          let outs := (List.range (n / 11)).map (fun i => decodeGroup (s.memRead (x + 11 * i) 11) 8)
            ++ (if n % 11 = 0 then [] else [decodeGroup (s.memRead (x + 11 * (n / 11)) (n % 11)) r])
          (∀ (k : Nat) (e : ErrKind), outs[k]? = some (.error e) →
            (∀ j < k, ∃ b, outs[j]? = some (.ok b)) → EntersError e w s t) ∧
          (∀ bs : List (List Byte), outs = bs.map .ok →
            bs.flatten.length = 8 * (n / 11) + r ∧
            (if o + (8 * (n / 11) + r) ≤ 1024 then Stores o bs.flatten s t
              else EntersError .contractViolation w s t)))

/-- `42_base58.md` R170: B58DEC of the output of B58ENC writes the original bytes, and OLEN is their
number; for every length the buffer holds this is the spec's own inference (derived from R164 and R166). -/
def Obligations.Base58RoundTrip : Prop :=
  ∀ (rd rs1 rs2 rd' rl : RegField) (s : State),
    s.operand rs1 + s.operand rs2 ≤ 1024 →
    s.operand rd + (11 * (s.operand rs2 / 8) + encodedLength (s.operand rs2 % 8)) ≤ 1024 →
    s.operand rl = 11 * (s.operand rs2 / 8) + encodedLength (s.operand rs2 % 8) →
    s.operand rd' + s.operand rs2 ≤ 1024 →
    ∃ t u, exec (.b58enc rd rs1 rs2) s = .next t ∧ t.olen.toNat = s.operand rl ∧
      exec (.b58dec rd' rd rl) t = .next u ∧
      u.memRead (s.operand rd') (s.operand rs2) = s.memRead (s.operand rs1) (s.operand rs2) ∧
      u.olen.toNat = s.operand rs2

/-! Mnemonic commands. -/

/-- MNENC, `43_mnemonic.md` R196 (and R190), under the English configuration (log entry 4): the phrase is the data words
of each four-byte group and the checksum word, joined; whether it fits the destination depends on the
configuration's word lengths, which the spec leaves open, so the last check is in the conclusion. -/
def Obligations.MnencWritesThePhrase : Prop :=
  ∀ (rd rs1 rs2 : RegField) (lang : BitVec 4) (s : State) (x n o : Nat) (w : Word),
    WellFormed (.mnenc rd rs1 rs2 lang) = true →
    x = s.operand rs1 → n = s.operand rs2 → o = s.operand rd → w = encode (.mnenc rd rs1 rs2 lang) →
    w = commandWord 0x40000000#32 rd rs1 rs2 lang ∧
    (lang ≠ 0#4 →
      ∃ t, exec (.mnenc rd rs1 rs2 lang) s = .next t ∧ EntersError .unsupportedLanguage w s t) ∧
    (lang = 0#4 → n ≠ 0 → n % 4 = 0 → x + n ≤ 1024 →
      ∃ (t : State) (ws : List (List Byte)) (c : Nat), exec (.mnenc rd rs1 rs2 lang) s = .next t ∧
        ws.length = 3 * (n / 4) ∧
        (∀ j < n / 4, ∀ (w1 w2 w3 : Nat), triple Config.english (le (s.memRead (x + 4 * j) 4)) = (w1, w2, w3) →
          ws[3 * j]? = Config.english.words[w1]? ∧ ws[3 * j + 1]? = Config.english.words[w2]? ∧
          ws[3 * j + 2]? = Config.english.words[w3]?) ∧
        c = checksumIndex Config.english ws ∧ c < ws.length ∧
        (let out := joinWords (ws ++ [ws.getD c []])
         if o + out.length ≤ 1024 then Stores o out s t else EntersError .contractViolation w s t)) ∧
    (lang = 0#4 → (n = 0 ∨ n % 4 ≠ 0 ∨ x + n > 1024) →
      ∃ t, exec (.mnenc rd rs1 rs2 lang) s = .next t ∧ EntersError .contractViolation w s t)

/-- MNENC's rule over every language configuration (`43_mnemonic.md` R196): when the length is legal and
both ranges lie in BUF, the rule runs to its end and stores the phrase; at the English configuration that
is the command. -/
def Obligations.MnencRuleStoresPhraseUnderEveryConfiguration : Prop :=
  ∀ (c : LangConfig) (rd rs1 rs2 : RegField) (s : State) (x n o : Nat),
    x = s.operand rs1 → n = s.operand rs2 → o = s.operand rd → n ≠ 0 → n % 4 = 0 → x + n ≤ 1024 →
    o + (encodePhrase c (s.memRead x n)).length ≤ 1024 →
    ∃ t, runMnenc c rd rs1 rs2 0#4 s = .ok t ∧ Stores o (encodePhrase c (s.memRead x n)) s t ∧
      (splitWords (encodePhrase c (s.memRead x n))).length = 3 * (n / 4) + 1 ∧
      (c = Config.english → exec (.mnenc rd rs1 rs2 0#4) s = .next t)

/-- MNDEC, `43_mnemonic.md` R198 (and R190), in the order of its failures: the language, the source range,
the word count, the triples from the left, the destination. -/
def Obligations.MndecDecodesThePhrase : Prop :=
  ∀ (rd rs1 rs2 : RegField) (lang : BitVec 4) (s : State) (x n o m : Nat) (w : Word) (ws : List (List Byte)),
    WellFormed (.mndec rd rs1 rs2 lang) = true →
    x = s.operand rs1 → n = s.operand rs2 → o = s.operand rd → w = encode (.mndec rd rs1 rs2 lang) →
    ws = splitWords (s.memRead x n) → m = ws.length →
    w = commandWord 0x41000000#32 rd rs1 rs2 lang ∧
    ∃ t, exec (.mndec rd rs1 rs2 lang) s = .next t ∧
      (lang ≠ 0#4 → EntersError .unsupportedLanguage w s t) ∧
      (lang = 0#4 → x + n > 1024 → EntersError .contractViolation w s t) ∧
      (lang = 0#4 → x + n ≤ 1024 → m % 3 ≠ 1 → EntersError .invalidEncodedSize w s t) ∧
      (lang = 0#4 → x + n ≤ 1024 → m % 3 = 1 →
        let outs := (List.range ((m - 1) / 3)).map (fun j =>
          decodeTriple Config.english (ws.getD (3 * j) []) (ws.getD (3 * j + 1) []) (ws.getD (3 * j + 2) []))
        (∀ (k : Nat) (e : ErrKind), outs[k]? = some (.error e) →
          (∀ j < k, ∃ b, outs[j]? = some (.ok b)) → EntersError e w s t) ∧
        (∀ bs : List (List Byte), outs = bs.map .ok →
          bs.flatten.length = 4 * ((m - 1) / 3) ∧
          (if o + 4 * ((m - 1) / 3) ≤ 1024 then Stores o bs.flatten s t
            else EntersError .contractViolation w s t)))

/-- The step of MNDEC for one triple of words (`43_mnemonic.md` R198, R195): the three lookups from the left,
then `x >= 2^32`; in exact arithmetic `x mod N = i1` always holds, which R198 marks as the spec's own
inference (derived from R195). -/
def Obligations.DecodeTripleChecksLookupsThenRange : Prop :=
  ∀ (c : LangConfig) (u v w : List Byte),
    ((lookupWord c u = none ∨ lookupWord c v = none ∨ lookupWord c w = none) →
      decodeTriple c u v w = .error .invalidMnemonic) ∧
    ∀ i1 i2 i3 : Nat, lookupWord c u = some i1 → lookupWord c v = some i2 → lookupWord c w = some i3 →
      untriple c i1 i2 i3 % c.size = i1 ∧ untriple c i1 i2 i3 < c.size ^ 3 ∧
      (untriple c i1 i2 i3 ≥ 2 ^ 32 → decodeTriple c u v w = .error .mnemonicChecksumMismatch) ∧
      (untriple c i1 i2 i3 < 2 ^ 32 → ∃ b, decodeTriple c u v w = .ok b ∧ b.length = 4 ∧
        le b = untriple c i1 i2 i3)

/-- MNCSUM, `43_mnemonic.md` R199 (and R190), under the English configuration (log entry 4). -/
def Obligations.MncsumReturnsTheChecksumIndex : Prop :=
  ∀ (rd rs1 rs2 : RegField) (lang : BitVec 4) (s : State) (x n : Nat) (w : Word) (ws : List (List Byte)),
    WellFormed (.mncsum rd rs1 rs2 lang) = true →
    x = s.operand rs1 → n = s.operand rs2 → w = encode (.mncsum rd rs1 rs2 lang) →
    ws = splitWords (s.memRead x n) →
    w = commandWord 0x42000000#32 rd rs1 rs2 lang ∧
    (lang ≠ 0#4 →
      ∃ t, exec (.mncsum rd rs1 rs2 lang) s = .next t ∧ EntersError .unsupportedLanguage w s t) ∧
    (lang = 0#4 → x + n ≤ 1024 → n ≠ 0 →
      ∃ t, exec (.mncsum rd rs1 rs2 lang) s = .next t ∧
        (t.readA rd).toNat
          = (Config.english.crc32 (ws.flatMap (fun v => v.take Config.english.prefixLen))).toNat % ws.length ∧
        (t.readA rd).toNat < ws.length ∧ OnlyOperandReg rd s t) ∧
    (lang = 0#4 → (x + n > 1024 ∨ n = 0) →
      ∃ t, exec (.mncsum rd rs1 rs2 lang) s = .next t ∧ EntersError .contractViolation w s t)

/-- `43_mnemonic.md` R192: `lookup` gives the least index whose truncated word is that of the input, and
none when there is no such index; the empty word has none. -/
def Obligations.LookupIsLeastIndex : Prop :=
  ∀ (c : LangConfig) (w : List Byte),
    (∀ i, lookupWord c w = some i ↔
      (∃ x, c.words[i]? = some x ∧ x.take c.prefixLen = w.take c.prefixLen) ∧
      ∀ j < i, ∀ x, c.words[j]? = some x → x.take c.prefixLen ≠ w.take c.prefixLen) ∧
    (lookupWord c w = none ↔ ∀ x ∈ c.words, x.take c.prefixLen ≠ w.take c.prefixLen) ∧
    lookupWord c [] = none

/-- `43_mnemonic.md` R193: `split` gives one word more than there are 0x20 bytes, none of which holds one,
`join` undoes `split`, and `split` undoes `join` on words that are not empty and hold no 0x20. -/
def Obligations.SplitAndJoinAreInverse : Prop :=
  splitWords [] = [] ∧
  (∀ s : List Byte, s ≠ [] → (splitWords s).length = s.count 0x20#8 + 1 ∧
    (∀ w ∈ splitWords s, 0x20#8 ∉ w) ∧ joinWords (splitWords s) = s) ∧
  (∀ ws : List (List Byte), ws ≠ [] → (∀ w ∈ ws, w ≠ [] ∧ 0x20#8 ∉ w) → splitWords (joinWords ws) = ws)

/-- `43_mnemonic.md` R194, R195: `untriple` undoes `triple` modulo `N^3`, which R195 marks as the spec's own
inference (derived from R194), and `triple` undoes `untriple`. -/
def Obligations.TripleAndUntripleAreInverse : Prop :=
  (∀ (c : LangConfig) (x w1 w2 w3 : Nat), triple c x = (w1, w2, w3) →
    w1 < c.size ∧ w2 < c.size ∧ w3 < c.size ∧ untriple c w1 w2 w3 = x % c.size ^ 3) ∧
  (∀ (c : LangConfig) (i1 i2 i3 : Nat), i1 < c.size → i2 < c.size → i3 < c.size →
    triple c (untriple c i1 i2 i3) = (i1, i2, i3))

/-- `43_mnemonic.md` R201: the last word of every phrase MNENC makes is one of its data words, the one of
index `csum`. -/
def Obligations.ChecksumWordIsADataWord : Prop :=
  ∀ (c : LangConfig) (seed : List Byte), seed ≠ [] → seed.length % 4 = 0 →
    ∃ ws k, splitWords (encodePhrase c seed) = ws ++ [ws.getD k []] ∧
      ws.length = 3 * (seed.length / 4) ∧ k = checksumIndex c ws ∧ k < ws.length

/-- `43_mnemonic.md` R200 (1), which the spec marks as its own inference (derived from R195 and R192): seed to
phrase to seed, when `N^3 >= 2^32` and the truncated words are pairwise distinct. -/
def Obligations.SeedToPhraseToSeed : Prop :=
  ∀ (c : LangConfig) (seed : List Byte), c.size ^ 3 ≥ 2 ^ 32 → (c.words.map (truncWord c)).Nodup →
    seed ≠ [] → seed.length % 4 = 0 → decodePhrase c (encodePhrase c seed) = .ok seed

/-- `43_mnemonic.md` R200 (1), in BUF: MNDEC of the output of MNENC writes the seed, and OLEN is its length,
under every language configuration with `N^3 >= 2^32` and pairwise distinct truncated words (the spec's own
inference, derived from R195 and R192). The last clause is about the English configuration, the model's
opaque constant (log entry 4), at which the two rules are the commands. -/
def Obligations.MndecOfMnencReturnsTheSeed : Prop :=
  ∀ (c : LangConfig) (rd rs1 rs2 rd' rl : RegField) (s : State) (x n : Nat) (seed : List Byte),
    c.size ^ 3 ≥ 2 ^ 32 → (c.words.map (truncWord c)).Nodup →
    x = s.operand rs1 → n = s.operand rs2 → n ≠ 0 → n % 4 = 0 → x + n ≤ 1024 → seed = s.memRead x n →
    s.operand rd + (encodePhrase c seed).length ≤ 1024 → s.operand rl = (encodePhrase c seed).length →
    s.operand rd' + n ≤ 1024 →
    ∃ t u, runMnenc c rd rs1 rs2 0#4 s = .ok t ∧ t.olen.toNat = s.operand rl ∧
      runMndec c rd' rd rl 0#4 t = .ok u ∧ Stores (s.operand rd') seed t u ∧ u.olen.toNat = n ∧
      (c = Config.english →
        exec (.mnenc rd rs1 rs2 0#4) s = .next t ∧ exec (.mndec rd' rd rl 0#4) t = .next u)

/-- `43_mnemonic.md` R200 (2): phrase to seed to phrase gives the list words at the indices of the data
words of the phrase, and a checksum word computed afresh. -/
def Obligations.PhraseToSeedToPhrase : Prop :=
  ∀ (c : LangConfig) (phrase seed : List Byte) (ws : List (List Byte)),
    decodePhrase c phrase = .ok seed →
    ws = (splitWords phrase).dropLast.map (fun w => c.words.getD ((lookupWord c w).getD 0) []) →
    (∀ w ∈ (splitWords phrase).dropLast, lookupWord c w ≠ none) ∧ seedWords c seed = ws ∧
    encodePhrase c seed = joinWords (ws ++ [ws.getD (checksumIndex c ws) []])
end

