-- ==== Sys2Proof/Laws/Bytes.lean ====
section
/-! SUPPORT. Byte strings and integers: each conversion undoes the other (`00_scope.md` R6). -/

namespace Sys2Proof.Machine

@[simp] theorem toLE_length (v n : Nat) : (toLE v n).length = n := by
  induction n generalizing v with
  | zero => rfl
  | succ n ih => simp [toLE, ih]

@[simp] theorem toBE_length (v n : Nat) : (toBE v n).length = n := by simp [toBE]

theorem le_lt (bs : List Byte) : le bs < 256 ^ bs.length := by
  induction bs with
  | nil => simp [le]
  | cons b bs ih =>
    have := b.isLt
    simp only [le, List.length_cons, pow_succ]
    omega

theorem le_toLE (v n : Nat) : le (toLE v n) = v % 256 ^ n := by
  induction n generalizing v with
  | zero => simp [toLE, le, Nat.mod_one]
  | succ n ih =>
    simp only [toLE, le, ih, BitVec.toNat_ofNat]
    have h : v % (256 * 256 ^ n) = v % 256 + 256 * (v / 256 % 256 ^ n) := Nat.mod_mul
    rw [pow_succ' 256 n, h]

theorem toLE_le (bs : List Byte) : toLE (le bs) bs.length = bs := by
  induction bs with
  | nil => rfl
  | cons b bs ih =>
    have hb := b.isLt
    simp only [le, List.length_cons, toLE]
    have h1 : (b.toNat + 256 * le bs) / 256 = le bs := by omega
    have h2 : BitVec.ofNat 8 (b.toNat + 256 * le bs) = b := by
      apply BitVec.eq_of_toNat_eq
      simp only [BitVec.toNat_ofNat]
      omega
    rw [h1, h2, ih]

theorem le_append (xs ys : List Byte) : le (xs ++ ys) = le xs + 256 ^ xs.length * le ys := by
  induction xs with
  | nil => simp [le]
  | cons b xs ih => simp only [List.cons_append, le, ih, List.length_cons, pow_succ]; ring

theorem be_lt (bs : List Byte) : be bs < 256 ^ bs.length := by
  simpa [be] using le_lt bs.reverse

theorem be_toBE (v n : Nat) : be (toBE v n) = v % 256 ^ n := by simp [be, toBE, le_toLE]

theorem toBE_be (bs : List Byte) : toBE (be bs) bs.length = bs := by
  have := toLE_le bs.reverse
  rw [List.length_reverse] at this
  simp [toBE, be, this]

end Sys2Proof.Machine
end

