-- ==== Sys2Proof/Laws/State.lean ====
section
/-! SUPPORT. What each update of State does to each field, and what each register access sees of an update: no later proof unfolds a record update. -/

namespace Sys2Proof.Machine

variable (s : State)

/-! `writeF`. -/

@[simp] theorem State.writeF_a (i : RegField) (v : Elem) : (s.writeF i v).a = s.a := rfl
@[simp] theorem State.writeF_buf (i : RegField) (v : Elem) : (s.writeF i v).buf = s.buf := rfl
@[simp] theorem State.writeF_err (i : RegField) (v : Elem) : (s.writeF i v).err = s.err := rfl
@[simp] theorem State.writeF_ecode (i : RegField) (v : Elem) : (s.writeF i v).ecode = s.ecode := rfl
@[simp] theorem State.writeF_ecmd (i : RegField) (v : Elem) : (s.writeF i v).ecmd = s.ecmd := rfl
@[simp] theorem State.writeF_olen (i : RegField) (v : Elem) : (s.writeF i v).olen = s.olen := rfl
@[simp] theorem State.writeF_draws (i : RegField) (v : Elem) : (s.writeF i v).draws = s.draws := rfl
@[simp] theorem State.writeF_moves (i : RegField) (v : Elem) : (s.writeF i v).moves = s.moves := rfl
@[simp] theorem State.writeF_replies (i : RegField) (v : Elem) : (s.writeF i v).replies = s.replies := rfl

/-! `writeA`. -/

@[simp] theorem State.writeA_f (i : RegField) (v : Half) : (s.writeA i v).f = s.f := rfl
@[simp] theorem State.writeA_buf (i : RegField) (v : Half) : (s.writeA i v).buf = s.buf := rfl
@[simp] theorem State.writeA_err (i : RegField) (v : Half) : (s.writeA i v).err = s.err := rfl
@[simp] theorem State.writeA_ecode (i : RegField) (v : Half) : (s.writeA i v).ecode = s.ecode := rfl
@[simp] theorem State.writeA_ecmd (i : RegField) (v : Half) : (s.writeA i v).ecmd = s.ecmd := rfl
@[simp] theorem State.writeA_olen (i : RegField) (v : Half) : (s.writeA i v).olen = s.olen := rfl
@[simp] theorem State.writeA_draws (i : RegField) (v : Half) : (s.writeA i v).draws = s.draws := rfl
@[simp] theorem State.writeA_moves (i : RegField) (v : Half) : (s.writeA i v).moves = s.moves := rfl
@[simp] theorem State.writeA_replies (i : RegField) (v : Half) : (s.writeA i v).replies = s.replies := rfl

/-! `memWrite`. -/

@[simp] theorem State.memWrite_f (x : Nat) (bs : List Byte) : (s.memWrite x bs).f = s.f := rfl
@[simp] theorem State.memWrite_a (x : Nat) (bs : List Byte) : (s.memWrite x bs).a = s.a := rfl
@[simp] theorem State.memWrite_buf (x : Nat) (bs : List Byte) : (s.memWrite x bs).buf = bufWriteBytes s.buf x bs := rfl
@[simp] theorem State.memWrite_err (x : Nat) (bs : List Byte) : (s.memWrite x bs).err = s.err := rfl
@[simp] theorem State.memWrite_ecode (x : Nat) (bs : List Byte) : (s.memWrite x bs).ecode = s.ecode := rfl
@[simp] theorem State.memWrite_ecmd (x : Nat) (bs : List Byte) : (s.memWrite x bs).ecmd = s.ecmd := rfl
@[simp] theorem State.memWrite_olen (x : Nat) (bs : List Byte) : (s.memWrite x bs).olen = s.olen := rfl
@[simp] theorem State.memWrite_draws (x : Nat) (bs : List Byte) : (s.memWrite x bs).draws = s.draws := rfl
@[simp] theorem State.memWrite_moves (x : Nat) (bs : List Byte) : (s.memWrite x bs).moves = s.moves := rfl
@[simp] theorem State.memWrite_replies (x : Nat) (bs : List Byte) : (s.memWrite x bs).replies = s.replies := rfl

/-! `setOlen`. -/

@[simp] theorem State.setOlen_f (n : Nat) : (s.setOlen n).f = s.f := rfl
@[simp] theorem State.setOlen_a (n : Nat) : (s.setOlen n).a = s.a := rfl
@[simp] theorem State.setOlen_buf (n : Nat) : (s.setOlen n).buf = s.buf := rfl
@[simp] theorem State.setOlen_err (n : Nat) : (s.setOlen n).err = s.err := rfl
@[simp] theorem State.setOlen_ecode (n : Nat) : (s.setOlen n).ecode = s.ecode := rfl
@[simp] theorem State.setOlen_ecmd (n : Nat) : (s.setOlen n).ecmd = s.ecmd := rfl
@[simp] theorem State.setOlen_olen (n : Nat) : (s.setOlen n).olen = BitVec.ofNat 16 n := rfl
@[simp] theorem State.setOlen_draws (n : Nat) : (s.setOlen n).draws = s.draws := rfl
@[simp] theorem State.setOlen_moves (n : Nat) : (s.setOlen n).moves = s.moves := rfl
@[simp] theorem State.setOlen_replies (n : Nat) : (s.setOlen n).replies = s.replies := rfl

/-! `enter`. -/

@[simp] theorem State.enter_f (e : ErrKind) (w : Word) : (s.enter e w).f = s.f := rfl
@[simp] theorem State.enter_a (e : ErrKind) (w : Word) : (s.enter e w).a = s.a := rfl
@[simp] theorem State.enter_buf (e : ErrKind) (w : Word) : (s.enter e w).buf = s.buf := rfl
@[simp] theorem State.enter_err (e : ErrKind) (w : Word) : (s.enter e w).err = true := rfl
@[simp] theorem State.enter_ecode (e : ErrKind) (w : Word) : (s.enter e w).ecode = e.code := rfl
@[simp] theorem State.enter_ecmd (e : ErrKind) (w : Word) : (s.enter e w).ecmd = w := rfl
@[simp] theorem State.enter_olen (e : ErrKind) (w : Word) : (s.enter e w).olen = s.olen := rfl
@[simp] theorem State.enter_draws (e : ErrKind) (w : Word) : (s.enter e w).draws = s.draws := rfl
@[simp] theorem State.enter_moves (e : ErrKind) (w : Word) : (s.enter e w).moves = s.moves := rfl
@[simp] theorem State.enter_replies (e : ErrKind) (w : Word) : (s.enter e w).replies = s.replies := rfl

/-! `clearError`. -/

@[simp] theorem State.clearError_f : s.clearError.f = s.f := rfl
@[simp] theorem State.clearError_a : s.clearError.a = s.a := rfl
@[simp] theorem State.clearError_buf : s.clearError.buf = s.buf := rfl
@[simp] theorem State.clearError_err : s.clearError.err = false := rfl
@[simp] theorem State.clearError_ecode : s.clearError.ecode = 0#4 := rfl
@[simp] theorem State.clearError_ecmd : s.clearError.ecmd = 0#32 := rfl
@[simp] theorem State.clearError_olen : s.clearError.olen = s.olen := rfl
@[simp] theorem State.clearError_draws : s.clearError.draws = s.draws := rfl
@[simp] theorem State.clearError_moves : s.clearError.moves = s.moves := rfl
@[simp] theorem State.clearError_replies : s.clearError.replies = s.replies := rfl

/-! `countDraw`. -/

@[simp] theorem State.countDraw_f : s.countDraw.f = s.f := rfl
@[simp] theorem State.countDraw_a : s.countDraw.a = s.a := rfl
@[simp] theorem State.countDraw_buf : s.countDraw.buf = s.buf := rfl
@[simp] theorem State.countDraw_err : s.countDraw.err = s.err := rfl
@[simp] theorem State.countDraw_ecode : s.countDraw.ecode = s.ecode := rfl
@[simp] theorem State.countDraw_ecmd : s.countDraw.ecmd = s.ecmd := rfl
@[simp] theorem State.countDraw_olen : s.countDraw.olen = s.olen := rfl
@[simp] theorem State.countDraw_draws : s.countDraw.draws = s.draws + 1 := rfl
@[simp] theorem State.countDraw_moves : s.countDraw.moves = s.moves := rfl
@[simp] theorem State.countDraw_replies : s.countDraw.replies = s.replies := rfl

/-! `withCommand`. -/

@[simp] theorem State.withCommand_f (w : Word) : (s.withCommand w).f = s.f := rfl
@[simp] theorem State.withCommand_a (w : Word) : (s.withCommand w).a = s.a := rfl
@[simp] theorem State.withCommand_buf (w : Word) : (s.withCommand w).buf = s.buf := rfl
@[simp] theorem State.withCommand_err (w : Word) : (s.withCommand w).err = s.err := rfl
@[simp] theorem State.withCommand_ecode (w : Word) : (s.withCommand w).ecode = s.ecode := rfl
@[simp] theorem State.withCommand_ecmd (w : Word) : (s.withCommand w).ecmd = s.ecmd := rfl
@[simp] theorem State.withCommand_olen (w : Word) : (s.withCommand w).olen = s.olen := rfl
@[simp] theorem State.withCommand_draws (w : Word) : (s.withCommand w).draws = s.draws := rfl
@[simp] theorem State.withCommand_moves (w : Word) : (s.withCommand w).moves = .write .word 0#11 w :: s.moves := rfl
@[simp] theorem State.withCommand_replies (w : Word) : (s.withCommand w).replies = s.replies := rfl

/-! `resetUnit`. -/

@[simp] theorem State.resetUnit_f : s.resetUnit.f = State.reset.f := rfl
@[simp] theorem State.resetUnit_a : s.resetUnit.a = State.reset.a := rfl
@[simp] theorem State.resetUnit_buf : s.resetUnit.buf = State.reset.buf := rfl
@[simp] theorem State.resetUnit_err : s.resetUnit.err = State.reset.err := rfl
@[simp] theorem State.resetUnit_ecode : s.resetUnit.ecode = State.reset.ecode := rfl
@[simp] theorem State.resetUnit_ecmd : s.resetUnit.ecmd = State.reset.ecmd := rfl
@[simp] theorem State.resetUnit_olen : s.resetUnit.olen = State.reset.olen := rfl
@[simp] theorem State.resetUnit_draws : s.resetUnit.draws = s.draws := rfl
@[simp] theorem State.resetUnit_moves : s.resetUnit.moves = s.moves := rfl
@[simp] theorem State.resetUnit_replies : s.resetUnit.replies = s.replies := rfl

/-! Register and buffer accesses across updates of other fields. -/

@[simp] theorem State.readA_writeF (i : RegField) (v : Elem) (j : RegField) : (s.writeF i v).readA j = s.readA j := rfl
@[simp] theorem State.byte_writeF (i : RegField) (v : Elem) (y : Nat) : (s.writeF i v).byte y = s.byte y := rfl
@[simp] theorem State.memRead_writeF (i : RegField) (v : Elem) (y n : Nat) : (s.writeF i v).memRead y n = s.memRead y n := rfl
@[simp] theorem State.operand_writeF (i : RegField) (v : Elem) (j : RegField) : (s.writeF i v).operand j = s.operand j := rfl
@[simp] theorem State.readF_writeA (i : RegField) (v : Half) (j : RegField) : (s.writeA i v).readF j = s.readF j := rfl
@[simp] theorem State.byte_writeA (i : RegField) (v : Half) (y : Nat) : (s.writeA i v).byte y = s.byte y := rfl
@[simp] theorem State.memRead_writeA (i : RegField) (v : Half) (y n : Nat) : (s.writeA i v).memRead y n = s.memRead y n := rfl
@[simp] theorem State.coord_writeA (i : RegField) (v : Half) (k : RegField) (j : BitVec 4) : (s.writeA i v).coord k j = s.coord k j := rfl
@[simp] theorem State.readF_memWrite (x : Nat) (bs : List Byte) (j : RegField) : (s.memWrite x bs).readF j = s.readF j := rfl
@[simp] theorem State.readA_memWrite (x : Nat) (bs : List Byte) (j : RegField) : (s.memWrite x bs).readA j = s.readA j := rfl
@[simp] theorem State.operand_memWrite (x : Nat) (bs : List Byte) (j : RegField) : (s.memWrite x bs).operand j = s.operand j := rfl
@[simp] theorem State.coord_memWrite (x : Nat) (bs : List Byte) (k : RegField) (j : BitVec 4) : (s.memWrite x bs).coord k j = s.coord k j := rfl
@[simp] theorem State.readF_setOlen (n : Nat) (j : RegField) : (s.setOlen n).readF j = s.readF j := rfl
@[simp] theorem State.readA_setOlen (n : Nat) (j : RegField) : (s.setOlen n).readA j = s.readA j := rfl
@[simp] theorem State.byte_setOlen (n : Nat) (y : Nat) : (s.setOlen n).byte y = s.byte y := rfl
@[simp] theorem State.memRead_setOlen (n : Nat) (y m : Nat) : (s.setOlen n).memRead y m = s.memRead y m := rfl
@[simp] theorem State.operand_setOlen (n : Nat) (j : RegField) : (s.setOlen n).operand j = s.operand j := rfl
@[simp] theorem State.coord_setOlen (n : Nat) (k : RegField) (j : BitVec 4) : (s.setOlen n).coord k j = s.coord k j := rfl
@[simp] theorem State.readF_enter (e : ErrKind) (w : Word) (j : RegField) : (s.enter e w).readF j = s.readF j := rfl
@[simp] theorem State.readA_enter (e : ErrKind) (w : Word) (j : RegField) : (s.enter e w).readA j = s.readA j := rfl
@[simp] theorem State.byte_enter (e : ErrKind) (w : Word) (y : Nat) : (s.enter e w).byte y = s.byte y := rfl
@[simp] theorem State.memRead_enter (e : ErrKind) (w : Word) (y n : Nat) : (s.enter e w).memRead y n = s.memRead y n := rfl
@[simp] theorem State.operand_enter (e : ErrKind) (w : Word) (j : RegField) : (s.enter e w).operand j = s.operand j := rfl
@[simp] theorem State.coord_enter (e : ErrKind) (w : Word) (k : RegField) (j : BitVec 4) : (s.enter e w).coord k j = s.coord k j := rfl
@[simp] theorem State.readF_clearError (j : RegField) : s.clearError.readF j = s.readF j := rfl
@[simp] theorem State.readA_clearError (j : RegField) : s.clearError.readA j = s.readA j := rfl
@[simp] theorem State.byte_clearError (y : Nat) : s.clearError.byte y = s.byte y := rfl
@[simp] theorem State.memRead_clearError (y n : Nat) : s.clearError.memRead y n = s.memRead y n := rfl
@[simp] theorem State.operand_clearError (j : RegField) : s.clearError.operand j = s.operand j := rfl
@[simp] theorem State.coord_clearError (k : RegField) (j : BitVec 4) : s.clearError.coord k j = s.coord k j := rfl
@[simp] theorem State.readF_countDraw (j : RegField) : s.countDraw.readF j = s.readF j := rfl
@[simp] theorem State.readA_countDraw (j : RegField) : s.countDraw.readA j = s.readA j := rfl
@[simp] theorem State.byte_countDraw (y : Nat) : s.countDraw.byte y = s.byte y := rfl
@[simp] theorem State.memRead_countDraw (y n : Nat) : s.countDraw.memRead y n = s.memRead y n := rfl
@[simp] theorem State.operand_countDraw (j : RegField) : s.countDraw.operand j = s.operand j := rfl
@[simp] theorem State.coord_countDraw (k : RegField) (j : BitVec 4) : s.countDraw.coord k j = s.coord k j := rfl
@[simp] theorem State.readF_withCommand (w : Word) (j : RegField) : (s.withCommand w).readF j = s.readF j := rfl
@[simp] theorem State.readA_withCommand (w : Word) (j : RegField) : (s.withCommand w).readA j = s.readA j := rfl
@[simp] theorem State.byte_withCommand (w : Word) (y : Nat) : (s.withCommand w).byte y = s.byte y := rfl
@[simp] theorem State.memRead_withCommand (w : Word) (y n : Nat) : (s.withCommand w).memRead y n = s.memRead y n := rfl
@[simp] theorem State.operand_withCommand (w : Word) (j : RegField) : (s.withCommand w).operand j = s.operand j := rfl
@[simp] theorem State.coord_withCommand (w : Word) (k : RegField) (j : BitVec 4) : (s.withCommand w).coord k j = s.coord k j := rfl

/-! Reading what was written. -/

@[simp] theorem State.readF_writeF_same (i : RegField) (v : Elem) : (s.writeF i v).readF i = v := by
  simp [State.readF, State.writeF]

theorem State.readF_writeF_other {i j : RegField} (v : Elem) (h : j ≠ i) :
    (s.writeF i v).readF j = s.readF j := by
  have h' : i.toNat ≠ j.toNat := fun e => h (BitVec.eq_of_toNat_eq e.symm)
  simp [State.readF, State.writeF, h']

@[simp] theorem State.readA_writeA_same (i : RegField) (v : Half) : (s.writeA i v).readA i = v := by
  simp [State.readA, State.writeA]

theorem State.readA_writeA_other {i j : RegField} (v : Half) (h : j.toNat % 8 ≠ i.toNat % 8) :
    (s.writeA i v).readA j = s.readA j := by
  simp [State.readA, State.writeA, Ne.symm h]

/-- `10_state.md` R40: every register of the reset state reads 0. -/
@[simp] theorem State.readF_reset (i : RegField) : State.reset.readF i = 0 := by
  simp [State.readF, State.reset]

@[simp] theorem State.readA_reset (i : RegField) : State.reset.readA i = 0#16 := by
  simp [State.readA, State.reset]

@[simp] theorem State.byte_reset (x : Nat) : State.reset.byte x = 0#8 := rfl

@[simp] theorem State.memRead_length (x n : Nat) : (s.memRead x n).length = n := by
  simp [State.memRead]

theorem State.memRead_getElem? (x n i : Nat) (h : i < n) : (s.memRead x n)[i]? = some (s.byte (x + i)) := by
  simp [State.memRead, h]

end Sys2Proof.Machine
end

