-- ==== Sys2Proof/Laws/Buffer.lean ====
section
/-! SUPPORT. BUF as a list of cells: a read after a write, and the canonical form kept by every write. -/

namespace Sys2Proof.Machine

theorem bufRead_bufErase (m : List Host.Cell) (x y : Nat) :
    bufRead (bufErase m x) y = if y = x then 0#8 else bufRead m y := by
  induction m with
  | nil => simp [bufErase, bufRead]
  | cons c m ih =>
    obtain ⟨k, v⟩ := c
    simp only [bufErase, List.filter_cons] at ih ⊢
    by_cases hk : k = x
    · subst hk
      simp only [ne_eq, not_true_eq_false, decide_false, Bool.false_eq_true, ↓reduceIte, ih, bufRead]
      by_cases hy : y = k
      · simp [hy]
      · simp [hy, Ne.symm hy]
    · simp only [ne_eq, hk, not_false_eq_true, decide_true, ↓reduceIte, bufRead, ih]
      by_cases hy : y = x
      · subst hy; simp [hk]
      · simp [hy]

theorem bufRead_bufInsert (m : List Host.Cell) (x y : Nat) (b : Byte) (h : bufRead m x = 0#8)
    (hx : ∀ c ∈ m, c.1 ≠ x) : bufRead (bufInsert m x b) y = if y = x then b else bufRead m y := by
  induction m with
  | nil =>
    by_cases hy : y = x
    · simp [bufInsert, bufRead, hy]
    · simp [bufInsert, bufRead, hy, Ne.symm hy]
  | cons c m ih =>
    obtain ⟨k, v⟩ := c
    have hk : k ≠ x := hx (k, v) (by simp)
    simp only [bufInsert]
    split
    · by_cases hy : y = x
      · simp [bufRead, hy]
      · simp [bufRead, hy, Ne.symm hy]
    · simp only [bufRead, hk, ↓reduceIte] at h ⊢
      rw [ih h (fun c hc => hx c (by simp [hc]))]
      by_cases hy : y = x
      · subst hy; simp [hk]
      · simp [hy]

/-- A read after a write, in every buffer, canonical or not. -/
theorem bufRead_bufWrite (m : List Host.Cell) (x y : Nat) (b : Byte) :
    bufRead (bufWrite m x b) y = if y = x then b else bufRead m y := by
  unfold bufWrite
  split
  · next h => rw [bufRead_bufErase, h]
  · rw [bufRead_bufInsert]
    · rw [bufRead_bufErase]; split <;> simp_all
    · rw [bufRead_bufErase]; simp
    · intro c hc; simp only [bufErase, List.mem_filter] at hc; simpa using hc.2

theorem bufRead_bufWriteBytes (m : List Host.Cell) (x y : Nat) (bs : List Byte) :
    bufRead (bufWriteBytes m x bs) y
      = if x ≤ y ∧ y < x + bs.length then bs.getD (y - x) 0#8 else bufRead m y := by
  induction bs generalizing m x with
  | nil => simp [bufWriteBytes]
  | cons b bs ih =>
    rw [bufWriteBytes, ih, bufRead_bufWrite]
    by_cases h1 : y = x
    · subst h1; simp
    · by_cases h2 : x + 1 ≤ y ∧ y < x + 1 + bs.length
      · have h3 : x ≤ y ∧ y < x + (b :: bs).length := by simp; omega
        rw [if_pos h2, if_pos h3]
        have : y - x = (y - (x + 1)) + 1 := by omega
        rw [this, List.getD_cons_succ]
      · have h3 : ¬(x ≤ y ∧ y < x + (b :: bs).length) := by simp; omega
        rw [if_neg h2, if_neg h3, if_neg h1]

/-! The canonical form. -/

theorem bufWfFrom_mono {lo lo' : Nat} (m : List Host.Cell) (h : lo ≤ lo') (hm : bufWfFrom lo' m = true) :
    bufWfFrom lo m = true := by
  cases m with
  | nil => rfl
  | cons c m =>
    simp only [bufWfFrom, Bool.and_eq_true, decide_eq_true_eq] at hm ⊢
    exact ⟨⟨⟨by omega, hm.1.1.2⟩, hm.1.2⟩, hm.2⟩

theorem bufErase_wf {lo : Nat} (m : List Host.Cell) (x : Nat) (hm : bufWfFrom lo m = true) :
    bufWfFrom lo (bufErase m x) = true := by
  induction m generalizing lo with
  | nil => rfl
  | cons c m ih =>
    simp only [bufWfFrom, Bool.and_eq_true, decide_eq_true_eq] at hm
    obtain ⟨⟨⟨h1, h2⟩, h3⟩, h4⟩ := hm
    unfold bufErase at ih ⊢
    rw [List.filter_cons]
    split
    · simp only [bufWfFrom, Bool.and_eq_true, decide_eq_true_eq]
      exact ⟨⟨⟨h1, h2⟩, h3⟩, ih h4⟩
    · exact bufWfFrom_mono _ (by omega) (ih h4)

theorem bufInsert_wf {lo : Nat} (m : List Host.Cell) (x : Nat) (b : Byte) (hm : bufWfFrom lo m = true)
    (hlo : lo ≤ x) (hx : x < bufSize) (hb : b ≠ 0#8) (hn : ∀ c ∈ m, c.1 ≠ x) :
    bufWfFrom lo (bufInsert m x b) = true := by
  induction m generalizing lo with
  | nil => simp [bufInsert, bufWfFrom, hlo, hx, hb]
  | cons c m ih =>
    obtain ⟨k, v⟩ := c
    simp only [bufWfFrom, Bool.and_eq_true, decide_eq_true_eq] at hm
    obtain ⟨⟨⟨h1, h2⟩, h3⟩, h4⟩ := hm
    have hk : k ≠ x := hn (k, v) (by simp)
    simp only [bufInsert]
    split
    · simp only [bufWfFrom, Bool.and_eq_true, decide_eq_true_eq]
      exact ⟨⟨⟨hlo, hx⟩, hb⟩, ⟨⟨by omega, h2⟩, h3⟩, h4⟩
    · simp only [bufWfFrom, Bool.and_eq_true, decide_eq_true_eq]
      exact ⟨⟨⟨h1, h2⟩, h3⟩, ih h4 (by omega) (fun c hc => hn c (by simp [hc]))⟩

theorem bufWrite_wf (m : List Host.Cell) (x : Nat) (b : Byte) (hm : Memory.wf m = true) (hx : x < bufSize) :
    Memory.wf (bufWrite m x b) = true := by
  unfold bufWrite Memory.wf
  split
  · exact bufErase_wf m x hm
  · next hb =>
    refine bufInsert_wf _ x b (bufErase_wf m x hm) (by omega) hx hb ?_
    intro c hc; simp only [bufErase, List.mem_filter] at hc; simpa using hc.2

/-- Every store of a range inside BUF keeps the canonical form. -/
theorem bufWriteBytes_wf (m : List Host.Cell) (x : Nat) (bs : List Byte) (hm : Memory.wf m = true)
    (hx : x + bs.length ≤ bufSize) : Memory.wf (bufWriteBytes m x bs) = true := by
  induction bs generalizing m x with
  | nil => exact hm
  | cons b bs ih =>
    rw [List.length_cons] at hx
    exact ih _ _ (bufWrite_wf m x b hm (by omega)) (by omega)

theorem reset_buf_wf : Memory.wf State.reset.buf = true := rfl

/-! The same through State. -/

variable (s : State)

theorem State.byte_memWrite (x y : Nat) (bs : List Byte) :
    (s.memWrite x bs).byte y = if x ≤ y ∧ y < x + bs.length then bs.getD (y - x) 0#8 else s.byte y :=
  bufRead_bufWriteBytes s.buf x y bs

theorem State.byte_memWrite_outside (x y : Nat) (bs : List Byte) (h : y < x ∨ x + bs.length ≤ y) :
    (s.memWrite x bs).byte y = s.byte y := by
  rw [State.byte_memWrite, if_neg (by omega)]

theorem State.memRead_memWrite_same (x : Nat) (bs : List Byte) : (s.memWrite x bs).memRead x bs.length = bs := by
  apply List.ext_getElem?
  intro i
  by_cases h : i < bs.length
  · rw [State.memRead_getElem? _ _ _ _ h, State.byte_memWrite, if_pos (by omega)]
    simp [h]
  · rw [List.getElem?_eq_none (by simpa using h), List.getElem?_eq_none (by simpa using h)]

end Sys2Proof.Machine
end

