-- ==== Sys2Proof/Laws/Bus.lean ====
section
/-! SUPPORT. What a step does for each kind of move of the host. -/

namespace Sys2Proof.Machine

variable (s : State)

/-- A step makes the first move of the list. -/
theorem step_of_move {m : HostMove} {rest : List HostMove} (h : s.moves = m :: rest) :
    step s = hostStep m { s with moves := rest } := by
  rw [step, nextMove, h]

/-- A word write to CMD is the step for a command word (`60_exceptions.md` R230). -/
theorem step_of_command {w : Word} {rest : List HostMove} (h : s.moves = .write .word 0x000#11 w :: rest) :
    step s = issue w { s with moves := rest } := by
  rw [step_of_move s h]
  rfl

/-- The offset of a move that a claim gives as a number. -/
theorem offset_toNat {x : Nat} (h : x < 0x800) : (BitVec.ofNat 11 x).toNat = x := by
  rw [BitVec.toNat_ofNat]
  exact Nat.mod_eq_of_lt h

/-- A word access at a multiple of 4 is in the host's contract (`20_memory.md` R61). -/
theorem checkAccess_aligned {offset : BitVec 11} (k : Host.Outcome State Fault Refusal)
    (h : offset.toNat % 4 = 0) : checkAccess .word offset k = k := by
  simp [checkAccess, h]

/-- With an error on record a word that is not ERRCLR's is skipped (`60_exceptions.md` R231). -/
theorem issue_skips {w : Word} (he : s.err = true) (hw : w ≠ errclrWord) : issue w s = .next s := by
  rw [issue, if_pos he, if_neg hw]

end Sys2Proof.Machine
end

