-- ==== Sys2Proof/Laws/EdwardsGroup.lean ====
section
/-! SUPPORT. The addition law of `41_curve_scalar.md` R134 over any field in which -1 is a square and `d` is not: it is complete, closed on the curve, and associative there. -/

namespace Sys2Proof.Laws.Edwards

variable {K : Type} [Field K]

/-- The equation of `41_curve_scalar.md` R130. -/
def On (d x y : K) : Prop := y ^ 2 - x ^ 2 = 1 + d * x ^ 2 * y ^ 2

/-- The first coordinate of the sum (R134). -/
def sumX (d x1 y1 x2 y2 : K) : K := (x1 * y2 + x2 * y1) / (1 + d * x1 * x2 * y1 * y2)

/-- The second coordinate of the sum (R134). -/
def sumY (d x1 y1 x2 y2 : K) : K := (y1 * y2 + x1 * x2) / (1 - d * x1 * x2 * y1 * y2)

variable {d i x1 y1 x2 y2 x3 y3 : K}

theorem square_relation {e : K} (h1 : On d x1 y1) (h2 : On d x2 y2) (hi : i ^ 2 = -1) (he : e ^ 2 = 1)
    (ht : d * x1 * x2 * y1 * y2 = e) :
    (i * x1 + e * y1) ^ 2 = d * (x1 * y1 * (i * x2 + y2)) ^ 2 := by
  unfold On at h1 h2
  subst ht
  linear_combination (x1 ^ 2 - d * x1 ^ 2 * x2 ^ 2 * y1 ^ 2) * hi + h1 - d * x1 ^ 2 * y1 ^ 2 * h2
    + (y1 ^ 2 - 1) * he

/-- The product in the denominators of R134 is never 1 or -1 on the curve. -/
theorem denominator_ne {e : K} (hd : ¬ IsSquare d) (hi : i ^ 2 = -1) (h2' : (2 : K) ≠ 0) (h1 : On d x1 y1)
    (h2 : On d x2 y2) (he : e ^ 2 = 1) : d * x1 * x2 * y1 * y2 ≠ e := by
  intro ht
  have he0 : e ≠ 0 := by rintro rfl; simp at he
  have hx1 : x1 ≠ 0 := by rintro rfl; apply he0; rw [← ht]; ring
  have hy1 : y1 ≠ 0 := by rintro rfl; apply he0; rw [← ht]; ring
  have hy2 : y2 ≠ 0 := by rintro rfl; apply he0; rw [← ht]; ring
  have key : ∀ u z : K, u ^ 2 = d * (x1 * y1 * z) ^ 2 → z = 0 := by
    intro u z h
    by_contra hz
    have hv : x1 * y1 * z ≠ 0 := mul_ne_zero (mul_ne_zero hx1 hy1) hz
    exact hd ⟨u / (x1 * y1 * z), by field_simp; linear_combination -h⟩
  have ha := key _ _ (square_relation h1 h2 hi he ht)
  have h2n : On d x2 (-y2) := by unfold On at *; linear_combination h2
  have hb := key _ _ (square_relation (e := -e) h1 h2n hi (by linear_combination he) (by linear_combination -ht))
  have : (2 : K) * y2 = 0 := by linear_combination ha - hb
  exact (mul_ne_zero h2' hy2) this

theorem denominators_ne (hd : ¬ IsSquare d) (hi : i ^ 2 = -1) (h2' : (2 : K) ≠ 0) (h1 : On d x1 y1)
    (h2 : On d x2 y2) : 1 + d * x1 * x2 * y1 * y2 ≠ 0 ∧ 1 - d * x1 * x2 * y1 * y2 ≠ 0 := by
  have hp := denominator_ne (e := 1) hd hi h2' h1 h2 (by ring)
  have hm := denominator_ne (e := -1) hd hi h2' h1 h2 (by ring)
  exact ⟨fun h => hm (by linear_combination h), fun h => hp (by linear_combination -h)⟩

/-- A sum of points of the curve lies on the curve. -/
theorem sum_on (hd : ¬ IsSquare d) (hi : i ^ 2 = -1) (h2' : (2 : K) ≠ 0) (h1 : On d x1 y1) (h2 : On d x2 y2) :
    On d (sumX d x1 y1 x2 y2) (sumY d x1 y1 x2 y2) := by
  obtain ⟨hp, hm⟩ := denominators_ne hd hi h2' h1 h2
  unfold On at h1 h2
  suffices h : ((y1 * y2 + x1 * x2) * (1 + d * x1 * x2 * y1 * y2)) ^ 2
      - ((x1 * y2 + x2 * y1) * (1 - d * x1 * x2 * y1 * y2)) ^ 2
      = ((1 + d * x1 * x2 * y1 * y2) * (1 - d * x1 * x2 * y1 * y2)) ^ 2
        + d * ((x1 * y2 + x2 * y1) * (y1 * y2 + x1 * x2)) ^ 2 by
    unfold On sumX sumY
    generalize 1 + d * x1 * x2 * y1 * y2 = u at *
    generalize 1 - d * x1 * x2 * y1 * y2 = v at *
    field_simp
    linear_combination h
  linear_combination
      (1*d^3*x1^2*y1^2*x2^4*y2^4 - d^2*x1^2*x2^4*y2^4 + d^2*y1^2*x2^4*y2^4 - d^2*x2^4*y2^4 -
      d*x1^2*x2^4*y2^2 + d*x1^2*x2^2*y2^4 + d*y1^2*x2^4*y2^2 - d*y1^2*x2^2*y2^4 - 2*d*x2^4*y2^4
      - 2*d*x2^2*y2^2 - 2*x2^4*y2^2 + x2^4 + 2*x2^2*y2^4 - 4*x2^2*y2^2 + y2^4) * h1 +
      (1*d*x1^4*x2^2*y2^2 + 2*d*x1^2*x2^2*y2^2 + d*y1^4*x2^2*y2^2 - 2*d*y1^2*x2^2*y2^2 +
      d*x2^2*y2^2 + 2*x1^2*x2^2*y2^2 - x1^2*x2^2 + x1^2*y2^2 - 2*y1^2*x2^2*y2^2 + y1^2*x2^2 -
      y1^2*y2^2 + 2*x2^2*y2^2 - x2^2 + y2^2 + 1) * h2

theorem sumX_sum (hp : 1 + d * x1 * x2 * y1 * y2 ≠ 0) (hm : 1 - d * x1 * x2 * y1 * y2 ≠ 0) :
    sumX d (sumX d x1 y1 x2 y2) (sumY d x1 y1 x2 y2) x3 y3
      = ((x1 * y2 + x2 * y1) * (1 - d * x1 * x2 * y1 * y2) * y3
          + (y1 * y2 + x1 * x2) * (1 + d * x1 * x2 * y1 * y2) * x3)
        / ((1 + d * x1 * x2 * y1 * y2) * (1 - d * x1 * x2 * y1 * y2)
          + d * x3 * y3 * (x1 * y2 + x2 * y1) * (y1 * y2 + x1 * x2)) := by
  unfold sumX sumY
  generalize 1 + d * x1 * x2 * y1 * y2 = u at *
  generalize 1 - d * x1 * x2 * y1 * y2 = v at *
  rw [← div_div_div_cancel_right₀ (mul_ne_zero hp hm) (_ + _) (u * v + _)]
  congr 1 <;> field_simp

theorem sumY_sum (hp : 1 + d * x1 * x2 * y1 * y2 ≠ 0) (hm : 1 - d * x1 * x2 * y1 * y2 ≠ 0) :
    sumY d (sumX d x1 y1 x2 y2) (sumY d x1 y1 x2 y2) x3 y3
      = ((y1 * y2 + x1 * x2) * (1 + d * x1 * x2 * y1 * y2) * y3
          + (x1 * y2 + x2 * y1) * (1 - d * x1 * x2 * y1 * y2) * x3)
        / ((1 + d * x1 * x2 * y1 * y2) * (1 - d * x1 * x2 * y1 * y2)
          - d * x3 * y3 * (x1 * y2 + x2 * y1) * (y1 * y2 + x1 * x2)) := by
  unfold sumX sumY
  generalize 1 + d * x1 * x2 * y1 * y2 = u at *
  generalize 1 - d * x1 * x2 * y1 * y2 = v at *
  rw [← div_div_div_cancel_right₀ (mul_ne_zero hp hm) (_ + _) (u * v - _)]
  congr 1 <;> field_simp

theorem sumX_comm (a b e f : K) : sumX d a b e f = sumX d e f a b := by
  unfold sumX
  congr 1 <;> ring

theorem sumY_comm (a b e f : K) : sumY d a b e f = sumY d e f a b := by
  unfold sumY
  congr 1 <;> ring

/-- The denominators of a sum of a sum, cleared of the inner ones, are not 0. -/
theorem cleared_ne (hd : ¬ IsSquare d) (hi : i ^ 2 = -1) (h2' : (2 : K) ≠ 0) (h1 : On d x1 y1) (h2 : On d x2 y2)
    (h3 : On d x3 y3) :
    (1 + d * x1 * x2 * y1 * y2) * (1 - d * x1 * x2 * y1 * y2)
        + d * x3 * y3 * (x1 * y2 + x2 * y1) * (y1 * y2 + x1 * x2) ≠ 0 ∧
    (1 + d * x1 * x2 * y1 * y2) * (1 - d * x1 * x2 * y1 * y2)
        - d * x3 * y3 * (x1 * y2 + x2 * y1) * (y1 * y2 + x1 * x2) ≠ 0 := by
  obtain ⟨hp, hm⟩ := denominators_ne hd hi h2' h1 h2
  obtain ⟨h4, h5⟩ := denominators_ne hd hi h2' (sum_on hd hi h2' h1 h2) h3
  unfold sumX sumY at h4 h5
  generalize 1 + d * x1 * x2 * y1 * y2 = u at *
  generalize 1 - d * x1 * x2 * y1 * y2 = v at *
  refine ⟨fun h => h4 ?_, fun h => h5 ?_⟩
  · field_simp
    linear_combination h
  · field_simp
    linear_combination h

/-- The addition is associative on the curve, first coordinate. -/
theorem sumX_assoc (hd : ¬ IsSquare d) (hi : i ^ 2 = -1) (h2' : (2 : K) ≠ 0) (h1 : On d x1 y1) (h2 : On d x2 y2)
    (h3 : On d x3 y3) :
    sumX d (sumX d x1 y1 x2 y2) (sumY d x1 y1 x2 y2) x3 y3
      = sumX d x1 y1 (sumX d x2 y2 x3 y3) (sumY d x2 y2 x3 y3) := by
  obtain ⟨hp, hm⟩ := denominators_ne hd hi h2' h1 h2
  obtain ⟨hp', hm'⟩ := denominators_ne hd hi h2' h2 h3
  rw [sumX_comm x1 y1 (sumX d x2 y2 x3 y3), sumX_sum hp hm, sumX_sum hp' hm',
    div_eq_div_iff (cleared_ne hd hi h2' h1 h2 h3).1 (cleared_ne hd hi h2' h2 h3 h1).1]
  unfold On at h1 h2 h3
  linear_combination
      (-d^2*x1*x2^4*y2^3*x3^2*y3 - d^2*x1*x2^3*y2^4*x3*y3^2 + d^2*y1*x2^4*y2^3*x3*y3^2 +
      d^2*y1*x2^3*y2^4*x3^2*y3 - d*x1*x2^4*y2*x3^2*y3 - d*x1*x2^3*y2^2*x3^3 - d*x1*x2^3*y2^2*x3
      + d*x1*x2^2*y2^3*y3^3 - d*x1*x2^2*y2^3*y3 + d*x1*x2*y2^4*x3*y3^2 + d*y1*x2^4*y2*x3*y3^2 +
      d*y1*x2^3*y2^2*y3^3 - d*y1*x2^3*y2^2*y3 - d*y1*x2^2*y2^3*x3^3 - d*y1*x2^2*y2^3*x3 -
      d*y1*x2*y2^4*x3^2*y3) * h1 + (1*d^2*x1^2*y1*x2^2*y2*x3^3*y3^2 -
      d^2*x1^2*y1*x2*y2^2*x3^2*y3^3 - d^2*x1*y1^2*x2^2*y2*x3^2*y3^3 +
      d^2*x1*y1^2*x2*y2^2*x3^3*y3^2 + d*x1^3*x2^2*y2*x3^2*y3 + d*x1^3*x2*y2^2*x3*y3^2 +
      d*x1^3*x2*x3^3*y3^2 + d*x1^3*y2*x3^2*y3^3 - d*x1^2*y1*x2^2*y2*x3*y3^2 -
      d*x1^2*y1*x2*y2^2*x3^2*y3 + d*x1^2*y1*x2*x3^2*y3^3 + d*x1^2*y1*y2*x3^3*y3^2 -
      d*x1*y1^2*x2^2*y2*x3^2*y3 - d*x1*y1^2*x2*y2^2*x3*y3^2 - d*x1*y1^2*x2*x3^3*y3^2 -
      d*x1*y1^2*y2*x3^2*y3^3 + d*x1*x2^2*y2*x3^2*y3 + d*x1*x2*y2^2*x3*y3^2 + d*x1*x2*x3^3*y3^2 +
      d*x1*y2*x3^2*y3^3 + d*y1^3*x2^2*y2*x3*y3^2 + d*y1^3*x2*y2^2*x3^2*y3 - d*y1^3*x2*x3^2*y3^3
      - d*y1^3*y2*x3^3*y3^2 - d*y1*x2^2*y2*x3*y3^2 - d*y1*x2*y2^2*x3^2*y3 + d*y1*x2*x3^2*y3^3 +
      d*y1*y2*x3^3*y3^2 + x1^3*x2*x3^3 - x1^3*x2*x3*y3^2 + x1^3*x2*x3 + x1^3*y2*x3^2*y3 -
      x1^3*y2*y3^3 + x1^3*y2*y3 + x1^2*y1*x2*x3^2*y3 - x1^2*y1*x2*y3^3 + x1^2*y1*x2*y3 +
      x1^2*y1*y2*x3^3 - x1^2*y1*y2*x3*y3^2 + x1^2*y1*y2*x3 - x1*y1^2*x2*x3^3 +
      x1*y1^2*x2*x3*y3^2 - x1*y1^2*x2*x3 - x1*y1^2*y2*x3^2*y3 + x1*y1^2*y2*y3^3 - x1*y1^2*y2*y3
      + x1*x2*x3^3 - x1*x2*x3*y3^2 + x1*x2*x3 + x1*y2*x3^2*y3 - x1*y2*y3^3 + x1*y2*y3 -
      y1^3*x2*x3^2*y3 + y1^3*x2*y3^3 - y1^3*x2*y3 - y1^3*y2*x3^3 + y1^3*y2*x3*y3^2 - y1^3*y2*x3
      + y1*x2*x3^2*y3 - y1*x2*y3^3 + y1*x2*y3 + y1*y2*x3^3 - y1*y2*x3*y3^2 + y1*y2*x3) * h2 +
      (-d*x1^2*y1*x2^2*y2*x3 + d*x1^2*y1*x2*y2^2*y3 + d*x1*y1^2*x2^2*y2*y3 -
      d*x1*y1^2*x2*y2^2*x3 - x1^3*x2^3*x3 - x1^3*x2^2*y2*y3 + x1^3*x2*y2^2*x3 - x1^3*x2*x3 +
      x1^3*y2^3*y3 - x1^3*y2*y3 - x1^2*y1*x2^3*y3 - x1^2*y1*x2^2*y2*x3 + x1^2*y1*x2*y2^2*y3 -
      x1^2*y1*x2*y3 + x1^2*y1*y2^3*x3 - x1^2*y1*y2*x3 + x1*y1^2*x2^3*x3 + x1*y1^2*x2^2*y2*y3 -
      x1*y1^2*x2*y2^2*x3 + x1*y1^2*x2*x3 - x1*y1^2*y2^3*y3 + x1*y1^2*y2*y3 - x1*x2^3*x3 -
      x1*x2^2*y2*y3 + x1*x2*y2^2*x3 - x1*x2*x3 + x1*y2^3*y3 - x1*y2*y3 + y1^3*x2^3*y3 +
      y1^3*x2^2*y2*x3 - y1^3*x2*y2^2*y3 + y1^3*x2*y3 - y1^3*y2^3*x3 + y1^3*y2*x3 - y1*x2^3*y3 -
      y1*x2^2*y2*x3 + y1*x2*y2^2*y3 - y1*x2*y3 + y1*y2^3*x3 - y1*y2*x3) * h3

/-- The addition is associative on the curve, second coordinate. -/
theorem sumY_assoc (hd : ¬ IsSquare d) (hi : i ^ 2 = -1) (h2' : (2 : K) ≠ 0) (h1 : On d x1 y1) (h2 : On d x2 y2)
    (h3 : On d x3 y3) :
    sumY d (sumX d x1 y1 x2 y2) (sumY d x1 y1 x2 y2) x3 y3
      = sumY d x1 y1 (sumX d x2 y2 x3 y3) (sumY d x2 y2 x3 y3) := by
  obtain ⟨hp, hm⟩ := denominators_ne hd hi h2' h1 h2
  obtain ⟨hp', hm'⟩ := denominators_ne hd hi h2' h2 h3
  rw [sumY_comm x1 y1 (sumX d x2 y2 x3 y3), sumY_sum hp hm, sumY_sum hp' hm',
    div_eq_div_iff (cleared_ne hd hi h2' h1 h2 h3).2 (cleared_ne hd hi h2' h2 h3 h1).2]
  unfold On at h1 h2 h3
  linear_combination
      (1*d^2*x1*x2^4*y2^3*x3*y3^2 + d^2*x1*x2^3*y2^4*x3^2*y3 - d^2*y1*x2^4*y2^3*x3^2*y3 -
      d^2*y1*x2^3*y2^4*x3*y3^2 + d*x1*x2^4*y2*x3*y3^2 + d*x1*x2^3*y2^2*y3^3 - d*x1*x2^3*y2^2*y3
      - d*x1*x2^2*y2^3*x3^3 - d*x1*x2^2*y2^3*x3 - d*x1*x2*y2^4*x3^2*y3 - d*y1*x2^4*y2*x3^2*y3 -
      d*y1*x2^3*y2^2*x3^3 - d*y1*x2^3*y2^2*x3 + d*y1*x2^2*y2^3*y3^3 - d*y1*x2^2*y2^3*y3 +
      d*y1*x2*y2^4*x3*y3^2) * h1 + (1*d^2*x1^2*y1*x2^2*y2*x3^2*y3^3 -
      d^2*x1^2*y1*x2*y2^2*x3^3*y3^2 - d^2*x1*y1^2*x2^2*y2*x3^3*y3^2 +
      d^2*x1*y1^2*x2*y2^2*x3^2*y3^3 - d*x1^3*x2^2*y2*x3*y3^2 - d*x1^3*x2*y2^2*x3^2*y3 +
      d*x1^3*x2*x3^2*y3^3 + d*x1^3*y2*x3^3*y3^2 + d*x1^2*y1*x2^2*y2*x3^2*y3 +
      d*x1^2*y1*x2*y2^2*x3*y3^2 + d*x1^2*y1*x2*x3^3*y3^2 + d*x1^2*y1*y2*x3^2*y3^3 +
      d*x1*y1^2*x2^2*y2*x3*y3^2 + d*x1*y1^2*x2*y2^2*x3^2*y3 - d*x1*y1^2*x2*x3^2*y3^3 -
      d*x1*y1^2*y2*x3^3*y3^2 - d*x1*x2^2*y2*x3*y3^2 - d*x1*x2*y2^2*x3^2*y3 + d*x1*x2*x3^2*y3^3 +
      d*x1*y2*x3^3*y3^2 - d*y1^3*x2^2*y2*x3^2*y3 - d*y1^3*x2*y2^2*x3*y3^2 - d*y1^3*x2*x3^3*y3^2
      - d*y1^3*y2*x3^2*y3^3 + d*y1*x2^2*y2*x3^2*y3 + d*y1*x2*y2^2*x3*y3^2 + d*y1*x2*x3^3*y3^2 +
      d*y1*y2*x3^2*y3^3 + x1^3*x2*x3^2*y3 - x1^3*x2*y3^3 + x1^3*x2*y3 + x1^3*y2*x3^3 -
      x1^3*y2*x3*y3^2 + x1^3*y2*x3 + x1^2*y1*x2*x3^3 - x1^2*y1*x2*x3*y3^2 + x1^2*y1*x2*x3 +
      x1^2*y1*y2*x3^2*y3 - x1^2*y1*y2*y3^3 + x1^2*y1*y2*y3 - x1*y1^2*x2*x3^2*y3 +
      x1*y1^2*x2*y3^3 - x1*y1^2*x2*y3 - x1*y1^2*y2*x3^3 + x1*y1^2*y2*x3*y3^2 - x1*y1^2*y2*x3 +
      x1*x2*x3^2*y3 - x1*x2*y3^3 + x1*x2*y3 + x1*y2*x3^3 - x1*y2*x3*y3^2 + x1*y2*x3 -
      y1^3*x2*x3^3 + y1^3*x2*x3*y3^2 - y1^3*x2*x3 - y1^3*y2*x3^2*y3 + y1^3*y2*y3^3 - y1^3*y2*y3
      + y1*x2*x3^3 - y1*x2*x3*y3^2 + y1*x2*x3 + y1*y2*x3^2*y3 - y1*y2*y3^3 + y1*y2*y3) * h2 +
      (-d*x1^2*y1*x2^2*y2*y3 + d*x1^2*y1*x2*y2^2*x3 + d*x1*y1^2*x2^2*y2*x3 -
      d*x1*y1^2*x2*y2^2*y3 - x1^3*x2^3*y3 - x1^3*x2^2*y2*x3 + x1^3*x2*y2^2*y3 - x1^3*x2*y3 +
      x1^3*y2^3*x3 - x1^3*y2*x3 - x1^2*y1*x2^3*x3 - x1^2*y1*x2^2*y2*y3 + x1^2*y1*x2*y2^2*x3 -
      x1^2*y1*x2*x3 + x1^2*y1*y2^3*y3 - x1^2*y1*y2*y3 + x1*y1^2*x2^3*y3 + x1*y1^2*x2^2*y2*x3 -
      x1*y1^2*x2*y2^2*y3 + x1*y1^2*x2*y3 - x1*y1^2*y2^3*x3 + x1*y1^2*y2*x3 - x1*x2^3*y3 -
      x1*x2^2*y2*x3 + x1*x2*y2^2*y3 - x1*x2*y3 + x1*y2^3*x3 - x1*y2*x3 + y1^3*x2^3*x3 +
      y1^3*x2^2*y2*y3 - y1^3*x2*y2^2*x3 + y1^3*x2*x3 - y1^3*y2^3*y3 + y1^3*y2*y3 - y1*x2^3*x3 -
      y1*x2^2*y2*y3 + y1*x2*y2^2*x3 - y1*x2*x3 + y1*y2^3*y3 - y1*y2*y3) * h3

end Sys2Proof.Laws.Edwards
end

