-- ==== Sys2Proof/Laws/Encoding.lean ====
section
/-! SUPPORT. The bits of command words: the fields of an encoded command are the command's operands, and a class constraint is a fact about high bits. -/

namespace Sys2Proof

/-- `30_encoding.md` R83: a class A field has bit 3 clear. -/
theorem classA_bit : ∀ r : RegField, isClassA r = true → r[3] = false := by decide

/-- `30_encoding.md` R83: a class P field has bits 3:2 clear. -/
theorem classP_bits : ∀ r : RegField, isClassP r = true → r[3] = false ∧ r[2] = false := by decide

section Fields

variable (op : BitVec 8) (rd rs1 rs2 : RegField) (lang : BitVec 4) (imm : Half)

/-- The bits of a word of format M, from the low end. -/
theorem getLsbD_encM (i : Nat) : (encM op rd rs1 rs2 lang).getLsbD i =
    if i < 8 then false else if i < 12 then lang.getLsbD (i - 8) else if i < 16 then rs2.getLsbD (i - 12)
    else if i < 20 then rs1.getLsbD (i - 16) else if i < 24 then rd.getLsbD (i - 20)
    else op.getLsbD (i - 24) := by
  have h : (encM op rd rs1 rs2 lang).getLsbD i
      = BitVec.getLsbD (w := 8 + 4 + 4 + 4 + 4 + 8) (op ++ rd ++ rs1 ++ rs2 ++ lang ++ 0#8) i := rfl
  rw [h]
  simp only [BitVec.getLsbD_append, BitVec.getLsbD_zero]
  repeat' split
  all_goals first
    | rfl
    | omega

/-- A word of format R is one of format M whose language field is zero. -/
theorem encR_eq_encM : encR op rd rs1 rs2 = encM op rd rs1 rs2 0#4 := by
  apply BitVec.eq_of_getLsbD_eq
  intro i _
  have h : (encR op rd rs1 rs2).getLsbD i
      = BitVec.getLsbD (w := 8 + 4 + 4 + 4 + 12) (op ++ rd ++ rs1 ++ rs2 ++ 0#12) i := rfl
  rw [h, getLsbD_encM]
  simp only [BitVec.getLsbD_append, BitVec.getLsbD_zero]
  repeat' split
  all_goals first
    | rfl
    | omega

/-- The bits of a word of format I, from the low end. -/
theorem getLsbD_encI (i : Nat) : (encI op rd imm).getLsbD i =
    if i < 16 then imm.getLsbD i else if i < 20 then false else if i < 24 then rd.getLsbD (i - 20)
    else op.getLsbD (i - 24) := by
  have h : (encI op rd imm).getLsbD i
      = BitVec.getLsbD (w := 8 + 4 + 4 + 16) (op ++ rd ++ 0#4 ++ imm) i := rfl
  rw [h]
  simp only [BitVec.getLsbD_append, BitVec.getLsbD_zero]
  repeat' split
  all_goals first
    | rfl
    | omega

/-! The fields of a word of format M, R, I. -/

@[simp] theorem opField_encM : opField (encM op rd rs1 rs2 lang) = op := by
  apply BitVec.eq_of_getLsbD_eq
  intro i hi
  rw [opField, BitVec.getLsbD_extractLsb', getLsbD_encM]
  interval_cases i <;> rfl

@[simp] theorem rdField_encM : rdField (encM op rd rs1 rs2 lang) = rd := by
  apply BitVec.eq_of_getLsbD_eq
  intro i hi
  rw [rdField, BitVec.getLsbD_extractLsb', getLsbD_encM]
  interval_cases i <;> rfl

@[simp] theorem rs1Field_encM : rs1Field (encM op rd rs1 rs2 lang) = rs1 := by
  apply BitVec.eq_of_getLsbD_eq
  intro i hi
  rw [rs1Field, BitVec.getLsbD_extractLsb', getLsbD_encM]
  interval_cases i <;> rfl

@[simp] theorem rs2Field_encM : rs2Field (encM op rd rs1 rs2 lang) = rs2 := by
  apply BitVec.eq_of_getLsbD_eq
  intro i hi
  rw [rs2Field, BitVec.getLsbD_extractLsb', getLsbD_encM]
  interval_cases i <;> rfl

@[simp] theorem langField_encM : langField (encM op rd rs1 rs2 lang) = lang := by
  apply BitVec.eq_of_getLsbD_eq
  intro i hi
  rw [langField, BitVec.getLsbD_extractLsb', getLsbD_encM]
  interval_cases i <;> rfl

@[simp] theorem opField_encR : opField (encR op rd rs1 rs2) = op := by rw [encR_eq_encM, opField_encM]

@[simp] theorem rdField_encR : rdField (encR op rd rs1 rs2) = rd := by rw [encR_eq_encM, rdField_encM]

@[simp] theorem rs1Field_encR : rs1Field (encR op rd rs1 rs2) = rs1 := by rw [encR_eq_encM, rs1Field_encM]

@[simp] theorem rs2Field_encR : rs2Field (encR op rd rs1 rs2) = rs2 := by rw [encR_eq_encM, rs2Field_encM]

@[simp] theorem opField_encI : opField (encI op rd imm) = op := by
  apply BitVec.eq_of_getLsbD_eq
  intro i hi
  rw [opField, BitVec.getLsbD_extractLsb', getLsbD_encI]
  interval_cases i <;> rfl

@[simp] theorem rdField_encI : rdField (encI op rd imm) = rd := by
  apply BitVec.eq_of_getLsbD_eq
  intro i hi
  rw [rdField, BitVec.getLsbD_extractLsb', getLsbD_encI]
  interval_cases i <;> rfl

@[simp] theorem immField_encI : immField (encI op rd imm) = imm := by
  apply BitVec.eq_of_getLsbD_eq
  intro i hi
  rw [immField, BitVec.getLsbD_extractLsb', getLsbD_encI]
  interval_cases i <;> rfl

/-- The or-of-shifts form of a command word, in which the command rules write their encodings. -/
theorem encM_eq_or : encM op rd rs1 rs2 lang = op.setWidth 32 <<< 24 ||| rd.setWidth 32 <<< 20
    ||| rs1.setWidth 32 <<< 16 ||| rs2.setWidth 32 <<< 12 ||| lang.setWidth 32 <<< 8 := by
  apply BitVec.eq_of_getLsbD_eq
  intro i hi
  rw [getLsbD_encM]
  simp only [BitVec.getLsbD_or, BitVec.getLsbD_shiftLeft, BitVec.getLsbD_setWidth]
  interval_cases i <;> simp

theorem encI_eq_or : encI op rd imm
    = op.setWidth 32 <<< 24 ||| rd.setWidth 32 <<< 20 ||| imm.setWidth 32 := by
  apply BitVec.eq_of_getLsbD_eq
  intro i hi
  rw [getLsbD_encI]
  simp only [BitVec.getLsbD_or, BitVec.getLsbD_shiftLeft, BitVec.getLsbD_setWidth]
  interval_cases i <;> simp

end Fields

end Sys2Proof
end

