-- ==== Sys2Proof/Laws/Ops.lean ====
section
/-! SUPPORT. What each shared operation of commands can do: register writes, the store of an output, error entry, and the end of a command. -/

namespace Sys2Proof.Machine

variable (s : State)

/-! The end of a command. -/

@[simp] theorem retire_ok (w : Word) (t : State) : retire w s (.ok t) = .next t := rfl

@[simp] theorem retire_error (w : Word) (e : ErrKind) : retire w s (.error e) = .next (s.enter e w) := rfl

/-- A command ends in the state its run ends in, or in the entry of the error it raises. -/
theorem retire_cases {w : Word} {r : Run} {t : State} (h : retire w s r = .next t) :
    r = .ok t ∨ ∃ e, r = .error e ∧ t = s.enter e w := by
  cases r with
  | ok u => simp only [retire_ok, Host.Outcome.next.injEq] at h; exact .inl (by rw [h])
  | error e => simp only [retire_error, Host.Outcome.next.injEq] at h; exact .inr ⟨e, rfl, h.symm⟩

/-- Every command is a run of its rule retired under its own word. -/
theorem exec_retires (i : Instr) : ∃ r : Run, exec i s = retire (encode i) s r := by
  cases i <;>
    simp only [exec, execLda, execErrclr, execFld, execFst, execFadd, execFsub, execFmul, execFsq, execScred,
      execScclamp, execGesmb, execGep3p2, execGecomp, execB58eb, execB58db, execB58enc, execB58dec, execMnenc,
      execMndec, execMncsum] <;>
    exact ⟨_, rfl⟩

/-! The error record. -/

/-- `60_exceptions.md` R233: entry writes the record and nothing else. -/
theorem State.enter_entersError (e : ErrKind) (w : Word) : EntersError e w s (s.enter e w) :=
  ⟨rfl, rfl, rfl, fun _ => rfl, fun _ => rfl, fun _ => rfl, rfl, rfl, rfl, rfl⟩

/-- Clearing the record changes nothing else. -/
theorem State.clearError_onlyRecord : OnlyRecord s s.clearError :=
  ⟨fun _ => rfl, fun _ => rfl, fun _ => rfl, rfl, rfl, rfl, rfl⟩

/-! Register writes. -/

/-- A write of one field register. -/
theorem State.writeF_onlyFieldRegs (i : RegField) (v : Elem) : OnlyFieldRegs (· = i) s (s.writeF i v) :=
  ⟨fun _ h => s.readF_writeF_other v h, fun _ => rfl, fun _ => rfl, ⟨rfl, rfl, rfl⟩, rfl, rfl, rfl⟩

/-- A write of one operand register. -/
theorem State.writeA_onlyOperandReg (i : RegField) (v : Half) (hi : isClassA i = true) :
    OnlyOperandReg i s (s.writeA i v) := by
  refine ⟨fun j hj h => s.readA_writeA_other v ?_, fun _ => rfl, fun _ => rfl, ⟨rfl, rfl, rfl⟩, rfl, rfl,
    rfl, rfl⟩
  simp only [isClassA, decide_eq_true_eq] at hi hj
  intro e
  exact h (BitVec.eq_of_toNat_eq (by omega))

/-- The index of coordinate `j` of point register `k`. -/
theorem coordIndex_eq (k : RegField) (j : Nat) :
    coordIndex k (BitVec.ofNat 4 j) = BitVec.ofNat 4 (4 * k.toNat + j) := by
  apply BitVec.eq_of_toNat_eq
  simp only [coordIndex, BitVec.toNat_add, BitVec.toNat_mul, BitVec.toNat_ofNat]
  omega

/-- The four coordinates of a point register are four field registers. -/
theorem coordIndex_ne (k : RegField) {i j : BitVec 4} (hi : i.toNat < 4) (hj : j.toNat < 4) (h : i ≠ j) :
    coordIndex k i ≠ coordIndex k j := by
  intro e
  apply h
  have := congrArg BitVec.toNat e
  simp only [coordIndex, BitVec.toNat_add, BitVec.toNat_mul, BitVec.toNat_ofNat] at this
  exact BitVec.eq_of_toNat_eq (by omega)

/-- `41_curve_scalar.md` R141: what writing `X, Y, Z` leaves in the four coordinates. -/
theorem State.coord_writeXYZ (k : RegField) (x y z : Elem) :
    (s.writeXYZ k x y z).coord k 0#4 = x ∧ (s.writeXYZ k x y z).coord k 1#4 = y ∧
    (s.writeXYZ k x y z).coord k 2#4 = z ∧ (s.writeXYZ k x y z).coord k 3#4 = s.coord k 3#4 := by
  have ne : ∀ i j : BitVec 4, i.toNat < 4 → j.toNat < 4 → i ≠ j → coordIndex k i ≠ coordIndex k j :=
    fun i j hi hj h => coordIndex_ne k hi hj h
  unfold State.coord State.writeXYZ
  refine ⟨?_, ?_, ?_, ?_⟩
  · rw [State.readF_writeF_other _ _ (ne 0#4 2#4 (by decide) (by decide) (by decide)),
      State.readF_writeF_other _ _ (ne 0#4 1#4 (by decide) (by decide) (by decide)),
      State.readF_writeF_same]
  · rw [State.readF_writeF_other _ _ (ne 1#4 2#4 (by decide) (by decide) (by decide)),
      State.readF_writeF_same]
  · rw [State.readF_writeF_same]
  · rw [State.readF_writeF_other _ _ (ne 3#4 2#4 (by decide) (by decide) (by decide)),
      State.readF_writeF_other _ _ (ne 3#4 1#4 (by decide) (by decide) (by decide)),
      State.readF_writeF_other _ _ (ne 3#4 0#4 (by decide) (by decide) (by decide))]

/-- Writing `X, Y, Z` of a point register changes those three field registers. -/
theorem State.writeXYZ_onlyFieldRegs (k : RegField) (x y z : Elem) :
    OnlyFieldRegs (fun i => ∃ j < 3, i = BitVec.ofNat 4 (4 * k.toNat + j)) s (s.writeXYZ k x y z) := by
  refine ⟨fun i h => ?_, fun _ => rfl, fun _ => rfl, ⟨rfl, rfl, rfl⟩, rfl, rfl, rfl⟩
  have ne : ∀ j < 3, i ≠ coordIndex k (BitVec.ofNat 4 j) := fun j hj e =>
    h ⟨j, hj, by rw [e, coordIndex_eq k j]⟩
  unfold State.writeXYZ
  rw [State.readF_writeF_other _ _ (ne 2 (by decide)), State.readF_writeF_other _ _ (ne 1 (by decide)),
    State.readF_writeF_other _ _ (ne 0 (by decide))]

/-- `41_curve_scalar.md` R138: what writing an extended representative leaves in the four coordinates. -/
theorem State.coord_writeExtended (k : RegField) (P : Point) (z : Elem) :
    (s.writeExtended k P z).coord k 0#4 = fieldMul z P.x ∧
    (s.writeExtended k P z).coord k 1#4 = fieldMul z P.y ∧
    (s.writeExtended k P z).coord k 2#4 = z ∧
    (s.writeExtended k P z).coord k 3#4 = fieldMul (fieldMul z P.x) P.y := by
  obtain ⟨h0, h1, h2, -⟩ := s.coord_writeXYZ k (fieldMul z P.x) (fieldMul z P.y) z
  have ne : ∀ i : BitVec 4, i.toNat < 3 → coordIndex k i ≠ coordIndex k 3#4 := fun i hi =>
    coordIndex_ne k (by omega) (by decide) (by rintro rfl; simp at hi)
  unfold State.coord at h0 h1 h2 ⊢
  unfold State.writeExtended
  refine ⟨?_, ?_, ?_, State.readF_writeF_same _ _ _⟩
  · rw [State.readF_writeF_other _ _ (ne 0#4 (by decide)), h0]
  · rw [State.readF_writeF_other _ _ (ne 1#4 (by decide)), h1]
  · rw [State.readF_writeF_other _ _ (ne 2#4 (by decide)), h2]

/-- Writing an extended representative changes the four field registers of the point register. -/
theorem State.writeExtended_onlyFieldRegs (k : RegField) (P : Point) (z : Elem) :
    OnlyFieldRegs (fun i => ∃ j < 4, i = BitVec.ofNat 4 (4 * k.toNat + j)) s (s.writeExtended k P z) := by
  refine ⟨fun i h => ?_, fun _ => rfl, fun _ => rfl, ⟨rfl, rfl, rfl⟩, rfl, rfl, rfl⟩
  have h3 : i ≠ coordIndex k 3#4 := fun e => h ⟨3, by decide, by rw [e, coordIndex_eq k 3]⟩
  unfold State.writeExtended
  rw [State.readF_writeF_other _ _ h3]
  exact (s.writeXYZ_onlyFieldRegs k _ _ _).1 i (fun ⟨j, hj, e⟩ => h ⟨j, by omega, e⟩)

/-! The store of an output. -/

/-- A store that fits BUF: the bytes, OLEN, and nothing else. -/
theorem State.setOlen_memWrite_stores (x : Nat) (out : List Byte) (h : out.length ≤ bufSize) :
    Stores x out s ((s.memWrite x out).setOlen out.length) := by
  refine ⟨s.memRead_memWrite_same x out, ?_, fun y hy => s.byte_memWrite_outside x y out hy, fun _ => rfl,
    fun _ => rfl, ⟨rfl, rfl, rfl⟩, rfl, rfl, rfl⟩
  have : out.length < 2 ^ 16 := Nat.lt_of_le_of_lt h (by decide)
  simp only [State.setOlen_olen, BitVec.toNat_ofNat]
  exact Nat.mod_eq_of_lt this

/-- All that `storeOutput` can do: store the output, or raise ContractViolation when it does not fit. -/
theorem State.storeOutput_cases (x : Nat) (out : List Byte) :
    (inBuf x out.length ∧ s.storeOutput x out = .ok ((s.memWrite x out).setOlen out.length)
      ∧ Stores x out s ((s.memWrite x out).setOlen out.length))
    ∨ (¬ inBuf x out.length ∧ s.storeOutput x out = .error .contractViolation) := by
  by_cases h : inBuf x out.length
  · exact .inl ⟨h, by simp [State.storeOutput, h], s.setOlen_memWrite_stores x out (Nat.le_trans (Nat.le_add_left _ _) h)⟩
  · exact .inr ⟨h, by simp only [State.storeOutput, if_neg h]⟩

theorem State.storeOutput_fits {x : Nat} {out : List Byte} (h : inBuf x out.length) :
    ∃ t, s.storeOutput x out = .ok t ∧ Stores x out s t := by
  rcases s.storeOutput_cases x out with ⟨-, h1, h2⟩ | ⟨h1, -⟩
  · exact ⟨_, h1, h2⟩
  · exact absurd h h1

theorem State.storeOutput_tooLong {x : Nat} {out : List Byte} (h : ¬ inBuf x out.length) :
    s.storeOutput x out = .error .contractViolation := by
  simp only [State.storeOutput, if_neg h]

@[simp] theorem State.storeResult_ok (x : Nat) (out : List Byte) :
    s.storeResult x (.ok out) = s.storeOutput x out := rfl

@[simp] theorem State.storeResult_error (x : Nat) (e : ErrKind) :
    s.storeResult x (.error e) = .error e := rfl

end Sys2Proof.Machine
end

