-- ==== Sys2Proof/Laws/Exec.lean ====
section
/-! SUPPORT. What the shared ends of commands can do, and which errors each codec function can meet. -/

namespace Sys2Proof.Machine

variable (s : State)

/-! The end of a command that stores its output. -/

/-- An output that fits BUF is stored, and one that does not is a ContractViolation. -/
theorem retire_storeOutput (w : Word) (x : Nat) (out : List Byte) :
    ∃ t, retire w s (s.storeOutput x out) = .next t ∧
      if x + out.length ≤ 1024 then Stores x out s t else EntersError .contractViolation w s t := by
  rcases s.storeOutput_cases x out with ⟨h, h1, h2⟩ | ⟨h, h1⟩ <;> rw [h1]
  · exact ⟨_, rfl, by rw [if_pos h]; exact h2⟩
  · exact ⟨_, rfl, by rw [if_neg h]; exact State.enter_entersError _ _ _⟩

/-! The errors of the codecs. -/

theorem decodeDigits_error {t : List Byte} {v : Nat} {e : ErrKind} (h : decodeDigits v t = .error e) :
    e = .invalidDigit ∨ e = .overflow := by
  induction t generalizing v with
  | nil => cases h
  | cons c cs ih =>
    simp only [decodeDigits] at h
    split at h
    · cases h; exact .inl rfl
    · split at h
      · cases h; exact .inr rfl
      · exact ih h

theorem decodeGroup_error {t : List Byte} {n : Nat} {e : ErrKind} (h : decodeGroup t n = .error e) :
    e = .invalidDigit ∨ e = .overflow := by
  unfold decodeGroup at h
  split at h
  · next h' => cases h; exact decodeDigits_error h'
  · cases h

theorem decodeGroups_error {gs : List (List Byte × Nat)} {e : ErrKind} (h : decodeGroups gs = .error e) :
    e = .invalidDigit ∨ e = .overflow := by
  induction gs with
  | nil => cases h
  | cons g gs ih =>
    obtain ⟨t, n⟩ := g
    simp only [decodeGroups] at h
    split at h
    · next h' => cases h; exact decodeGroup_error h'
    · split at h
      · next h' => cases h; exact ih h'
      · cases h

theorem decodeBase58_error {t : List Byte} {e : ErrKind} (h : decodeBase58 t = .error e) :
    e = .invalidEncodedSize ∨ e = .invalidDigit ∨ e = .overflow := by
  simp only [decodeBase58] at h
  split at h
  · cases h; exact .inl rfl
  · exact .inr (decodeGroups_error h)

theorem decodeTriple_error {c : LangConfig} {u v w : List Byte} {e : ErrKind}
    (h : decodeTriple c u v w = .error e) : e = .invalidMnemonic ∨ e = .mnemonicChecksumMismatch := by
  simp only [decodeTriple] at h
  split at h
  · cases h; exact .inl rfl
  · split at h
    · cases h; exact .inl rfl
    · split at h
      · cases h; exact .inl rfl
      · split at h
        · cases h; exact .inr rfl
        · cases h

theorem decodeTriples_error {c : LangConfig} {ws : List (List Byte)} {e : ErrKind}
    (h : decodeTriples c ws = .error e) : e = .invalidMnemonic ∨ e = .mnemonicChecksumMismatch := by
  induction ws using decodeTriples.induct c with
  | case1 u v w ws e' h' => simp only [decodeTriples, h'] at h; cases h; exact decodeTriple_error h'
  | case2 u v w ws out h' e' h2 ih => simp only [decodeTriples, h', h2] at h; cases h; exact ih h2
  | case3 u v w ws out h' r h2 ih => simp only [decodeTriples, h', h2] at h; cases h
  | case4 ws hn => rw [decodeTriples.eq_2 _ _ hn] at h; cases h

theorem decodePhrase_error {c : LangConfig} {t : List Byte} {e : ErrKind} (h : decodePhrase c t = .error e) :
    e = .invalidEncodedSize ∨ e = .invalidMnemonic ∨ e = .mnemonicChecksumMismatch := by
  simp only [decodePhrase] at h
  split at h
  · cases h; exact .inl rfl
  · exact .inr (decodeTriples_error h)

/-! What a run of a command can be. -/

/-- A run ends in an error its command may raise, or in a state that differs in what its command writes:
field registers (with the count of draws), one operand register, a range of BUF and OLEN, or the error
record. -/
def RunShape (i : Instr) (s : State) : Run → Prop
  | .error e => e ∈ mayRaise i
  | .ok t =>
    (writesFieldRegs i = true ∧ ∃ (n : Nat) (f : Vector Elem 16), t = { s with f := f, draws := n }) ∨
    (writesOperandRegs i = true ∧ ∃ r v, t = s.writeA r v) ∨
    (writesBuffer i = true ∧ ∃ x out, inBuf x out.length ∧ t = (s.memWrite x out).setOlen out.length) ∨
    (i = .errclr ∧ t = s.clearError)

theorem RunShape.storeOutput {i : Instr} {s : State} {x : Nat} {out : List Byte} (hi : writesBuffer i = true)
    (hm : .contractViolation ∈ mayRaise i) : RunShape i s (s.storeOutput x out) := by
  rcases s.storeOutput_cases x out with ⟨h, h1, -⟩ | ⟨-, h1⟩ <;> rw [h1]
  · exact .inr (.inr (.inl ⟨hi, x, out, h, rfl⟩))
  · exact hm

theorem RunShape.storeResult {i : Instr} {s : State} {x : Nat} {out : Except ErrKind (List Byte)}
    (hi : writesBuffer i = true) (hm : .contractViolation ∈ mayRaise i)
    (he : ∀ e, out = .error e → e ∈ mayRaise i) : RunShape i s (s.storeResult x out) := by
  cases out with
  | ok b => exact RunShape.storeOutput hi hm
  | error e => exact he e rfl

/-- Every command is a run of that shape, retired under its own word. -/
theorem exec_shape (i : Instr) : ∃ r : Run, exec i s = retire (encode i) s r ∧ RunShape i s r := by
  cases i
  case lda => refine ⟨.ok _, rfl, ?_⟩; exact .inr (.inl ⟨rfl, _, _, rfl⟩)
  case errclr => refine ⟨.ok _, rfl, ?_⟩; exact .inr (.inr (.inr ⟨rfl, rfl⟩))
  case fst => refine ⟨_, rfl, RunShape.storeOutput rfl (by simp [mayRaise])⟩
  case gecomp => refine ⟨_, rfl, RunShape.storeOutput rfl (by simp [mayRaise])⟩
  case fadd => refine ⟨.ok _, rfl, ?_⟩; exact .inl ⟨rfl, _, _, rfl⟩
  case fsub => refine ⟨.ok _, rfl, ?_⟩; exact .inl ⟨rfl, _, _, rfl⟩
  case fmul => refine ⟨.ok _, rfl, ?_⟩; exact .inl ⟨rfl, _, _, rfl⟩
  case fsq => refine ⟨.ok _, rfl, ?_⟩; exact .inl ⟨rfl, _, _, rfl⟩
  case gep3p2 => refine ⟨.ok _, rfl, ?_⟩; exact .inl ⟨rfl, _, _, rfl⟩
  all_goals
    refine ⟨_, rfl, ?_⟩
    simp only [runMnenc, runMndec, runMncsum]
    repeat' split
    all_goals first
      | exact RunShape.storeOutput rfl (by simp [mayRaise])
      | (simp [RunShape, mayRaise]; done)
      | exact .inl ⟨rfl, _, _, rfl⟩
      | exact .inr (.inl ⟨rfl, _, _, rfl⟩)
      | (refine RunShape.storeResult rfl (by simp [mayRaise]) (fun e he => ?_)
         first
          | (rcases decodeGroup_error he with rfl | rfl <;> simp [mayRaise])
          | (rcases decodeBase58_error he with rfl | rfl | rfl <;> simp [mayRaise])
          | (rcases decodePhrase_error he with rfl | rfl | rfl <;> simp [mayRaise]))

/-- What holds of the next state of a command, whatever the command. -/
theorem exec_next_cases {i : Instr} {t : State} (h : exec i s = .next t) :
    (∃ e ∈ mayRaise i, t = s.enter e (encode i)) ∨ RunShape i s (.ok t) := by
  obtain ⟨r, h1, h2⟩ := exec_shape s i
  rw [h1] at h
  rcases retire_cases s h with rfl | ⟨e, rfl, rfl⟩
  · exact .inr h2
  · exact .inl ⟨e, h2, rfl⟩

end Sys2Proof.Machine
end

