-- ==== Sys2Proof/Laws/FieldArith.lean ====
section
/-! SUPPORT. The values of the field operations, and the 32-byte encoding. -/

namespace Sys2Proof.Machine

@[simp] theorem elemOfNat_val (n : Nat) : (elemOfNat n).val = n % p := rfl

@[simp] theorem elemOfNat_self (x : Elem) : elemOfNat x.val = x := Fin.ext (Nat.mod_eq_of_lt x.isLt)

theorem fieldAdd_val (x y : Elem) : (fieldAdd x y).val = (x.val + y.val) % p := rfl

theorem fieldSub_val (x y : Elem) : (fieldSub x y).val = (x.val + p - y.val) % p := rfl

theorem fieldMul_val (x y : Elem) : (fieldMul x y).val = x.val * y.val % p := rfl

/-- The digit algorithm computes the power, for every exponent of at most `fuel` hexadecimal digits. -/
theorem powModFuel_mod (fuel z e : Nat) (h : e < 16 ^ fuel) : powModFuel fuel z e % p = z ^ e % p := by
  induction fuel generalizing e with
  | zero =>
    obtain rfl : e = 0 := by simpa using h
    rfl
  | succ fuel ih =>
    rw [powModFuel]
    split
    · next h0 => rw [h0, pow_zero]
    · have hlt : e / 16 < 16 ^ fuel := by rw [pow_succ] at h; omega
      have step : z ^ e = (z ^ (e / 16)) ^ 16 * z ^ (e % 16) := by
        rw [← pow_mul, ← pow_add, Nat.div_add_mod' e 16]
      rw [Nat.mod_mod, step, Nat.mul_mod, Nat.pow_mod, ih _ hlt, ← Nat.pow_mod, ← Nat.mul_mod]

/-- `00_scope.md` R8: `inv(z) = z^(p-2) mod p`. -/
theorem fieldInv_val (z : Elem) : (fieldInv z).val = z.val ^ (p - 2) % p :=
  powModFuel_mod 64 z.val (p - 2) (by decide)

theorem elem_lt (x : Elem) : x.val < 2 ^ 255 := Nat.lt_trans x.isLt (by decide)

@[simp] theorem encodeElem_length (x : Elem) : (encodeElem x).length = 32 := toLE_length _ _

/-- `40_field.md` R111: the encoding has the element's value. -/
theorem le_encodeElem (x : Elem) : le (encodeElem x) = x.val := by
  rw [encodeElem, le_toLE]
  exact Nat.mod_eq_of_lt (Nat.lt_trans (elem_lt x) (by decide))

/-- `40_field.md` R111: FLD's reading of a canonical encoding is the element. -/
theorem decodeElem_encodeElem (x : Elem) : decodeElem (encodeElem x) = x := by
  rw [decodeElem, le_encodeElem, Nat.mod_eq_of_lt (elem_lt x), elemOfNat_self]

end Sys2Proof.Machine
end

