-- ==== Sys2Proof/Laws/PerInstr.lean ====
section
/-! SUPPORT. Per command: its word matches its own row of the opcode map (`30_encoding.md` R85). -/

namespace Sys2Proof.Laws.RowMatch

open Sys2Proof.Machine

/-- The position of the command's row in the opcode map of `30_encoding.md` R85. -/
def rowIndex : Instr → Nat
  | .lda .. => 0 | .errclr => 1
  | .fld .. => 2 | .fst .. => 3 | .fadd .. => 4 | .fsub .. => 5 | .fmul .. => 6 | .fsq .. => 7
  | .scred .. => 8 | .scclamp .. => 9 | .gesmb .. => 10 | .gep3p2 .. => 11 | .gecomp .. => 12
  | .b58eb .. => 13 | .b58db .. => 14 | .b58enc .. => 15 | .b58dec .. => 16
  | .mnenc .. => 17 | .mndec .. => 18 | .mncsum .. => 19

/-- The word of a well-formed command satisfies `w and mask = match` for the command's row. -/
def Statement (i : Instr) : Prop :=
  WellFormed i = true → ∃ r, opcodePatterns[rowIndex i]? = some r ∧ encode i &&& r.2 = r.1

/-- A word of format M, masked, bit by bit. -/
theorem encM_masked {op : BitVec 8} {rd rs1 rs2 : RegField} {lang : BitVec 4} {mask pattern : Word}
    (h : ∀ i < 32, ((if i < 8 then false else if i < 12 then lang.getLsbD (i - 8)
      else if i < 16 then rs2.getLsbD (i - 12) else if i < 20 then rs1.getLsbD (i - 16)
      else if i < 24 then rd.getLsbD (i - 20) else op.getLsbD (i - 24)) && mask.getLsbD i)
      = pattern.getLsbD i) : encM op rd rs1 rs2 lang &&& mask = pattern :=
  BitVec.eq_of_getLsbD_eq (fun i hi => by rw [BitVec.getLsbD_and, getLsbD_encM]; exact h i hi)

theorem lda (rd : RegField) (imm : Half) : Statement (.lda rd imm) := fun h => by
  have hd := classA_bit rd h
  refine ⟨_, rfl, BitVec.eq_of_getLsbD_eq fun i hi => ?_⟩
  rw [encode, BitVec.getLsbD_and, getLsbD_encI]
  interval_cases i <;> simp [hd]

theorem errclr : Statement .errclr := fun _ => ⟨_, rfl, by decide⟩

theorem fld (rd rs1 : RegField) : Statement (.fld rd rs1) := fun h => by
  have h_rs1 := classA_bit rs1 h
  refine ⟨_, rfl, ?_⟩
  rw [encode, encR_eq_encM]
  exact encM_masked fun i hi => by interval_cases i <;> simp [h_rs1]

theorem fst (rd rs1 : RegField) : Statement (.fst rd rs1) := fun h => by
  have h_rd := classA_bit rd h
  refine ⟨_, rfl, ?_⟩
  rw [encode, encR_eq_encM]
  exact encM_masked fun i hi => by interval_cases i <;> simp [h_rd]

theorem fadd (rd rs1 rs2 : RegField) : Statement (.fadd rd rs1 rs2) := fun _ => by
  refine ⟨_, rfl, ?_⟩
  rw [encode, encR_eq_encM]
  exact encM_masked fun i hi => by interval_cases i <;> simp

theorem fsub (rd rs1 rs2 : RegField) : Statement (.fsub rd rs1 rs2) := fun _ => by
  refine ⟨_, rfl, ?_⟩
  rw [encode, encR_eq_encM]
  exact encM_masked fun i hi => by interval_cases i <;> simp

theorem fmul (rd rs1 rs2 : RegField) : Statement (.fmul rd rs1 rs2) := fun _ => by
  refine ⟨_, rfl, ?_⟩
  rw [encode, encR_eq_encM]
  exact encM_masked fun i hi => by interval_cases i <;> simp

theorem fsq (rd rs1 : RegField) : Statement (.fsq rd rs1) := fun _ => by
  refine ⟨_, rfl, ?_⟩
  rw [encode, encR_eq_encM]
  exact encM_masked fun i hi => by interval_cases i <;> simp

theorem scred (rd rs1 : RegField) : Statement (.scred rd rs1) := fun h => by
  simp only [WellFormed, Bool.and_eq_true] at h
  have h_rd := classA_bit rd h.1
  have h_rs1 := classA_bit rs1 h.2
  refine ⟨_, rfl, ?_⟩
  rw [encode, encR_eq_encM]
  exact encM_masked fun i hi => by interval_cases i <;> simp [h_rd, h_rs1]

theorem scclamp (rs1 : RegField) : Statement (.scclamp rs1) := fun h => by
  have h_rs1 := classA_bit rs1 h
  refine ⟨_, rfl, ?_⟩
  rw [encode, encR_eq_encM]
  exact encM_masked fun i hi => by interval_cases i <;> simp [h_rs1]

theorem gesmb (rd rs1 : RegField) : Statement (.gesmb rd rs1) := fun h => by
  simp only [WellFormed, Bool.and_eq_true] at h
  obtain ⟨h_rd, h_rd'⟩ := classP_bits rd h.1
  have h_rs1 := classA_bit rs1 h.2
  refine ⟨_, rfl, ?_⟩
  rw [encode, encR_eq_encM]
  exact encM_masked fun i hi => by interval_cases i <;> simp [h_rd, h_rd', h_rs1]

theorem gep3p2 (rd rs1 : RegField) : Statement (.gep3p2 rd rs1) := fun h => by
  simp only [WellFormed, Bool.and_eq_true] at h
  obtain ⟨h_rd, h_rd'⟩ := classP_bits rd h.1
  obtain ⟨h_rs1, h_rs1'⟩ := classP_bits rs1 h.2
  refine ⟨_, rfl, ?_⟩
  rw [encode, encR_eq_encM]
  exact encM_masked fun i hi => by interval_cases i <;> simp [h_rd, h_rd', h_rs1, h_rs1']

theorem gecomp (rd rs1 : RegField) : Statement (.gecomp rd rs1) := fun h => by
  simp only [WellFormed, Bool.and_eq_true] at h
  have h_rd := classA_bit rd h.1
  obtain ⟨h_rs1, h_rs1'⟩ := classP_bits rs1 h.2
  refine ⟨_, rfl, ?_⟩
  rw [encode, encR_eq_encM]
  exact encM_masked fun i hi => by interval_cases i <;> simp [h_rd, h_rs1, h_rs1']

theorem b58eb (rd rs1 rs2 : RegField) : Statement (.b58eb rd rs1 rs2) := fun h => by
  simp only [WellFormed, Bool.and_eq_true] at h
  have h_rd := classA_bit rd h.1.1
  have h_rs1 := classA_bit rs1 h.1.2
  have h_rs2 := classA_bit rs2 h.2
  refine ⟨_, rfl, ?_⟩
  rw [encode, encR_eq_encM]
  exact encM_masked fun i hi => by interval_cases i <;> simp [h_rd, h_rs1, h_rs2]

theorem b58db (rd rs1 rs2 : RegField) : Statement (.b58db rd rs1 rs2) := fun h => by
  simp only [WellFormed, Bool.and_eq_true] at h
  have h_rd := classA_bit rd h.1.1
  have h_rs1 := classA_bit rs1 h.1.2
  have h_rs2 := classA_bit rs2 h.2
  refine ⟨_, rfl, ?_⟩
  rw [encode, encR_eq_encM]
  exact encM_masked fun i hi => by interval_cases i <;> simp [h_rd, h_rs1, h_rs2]

theorem b58enc (rd rs1 rs2 : RegField) : Statement (.b58enc rd rs1 rs2) := fun h => by
  simp only [WellFormed, Bool.and_eq_true] at h
  have h_rd := classA_bit rd h.1.1
  have h_rs1 := classA_bit rs1 h.1.2
  have h_rs2 := classA_bit rs2 h.2
  refine ⟨_, rfl, ?_⟩
  rw [encode, encR_eq_encM]
  exact encM_masked fun i hi => by interval_cases i <;> simp [h_rd, h_rs1, h_rs2]

theorem b58dec (rd rs1 rs2 : RegField) : Statement (.b58dec rd rs1 rs2) := fun h => by
  simp only [WellFormed, Bool.and_eq_true] at h
  have h_rd := classA_bit rd h.1.1
  have h_rs1 := classA_bit rs1 h.1.2
  have h_rs2 := classA_bit rs2 h.2
  refine ⟨_, rfl, ?_⟩
  rw [encode, encR_eq_encM]
  exact encM_masked fun i hi => by interval_cases i <;> simp [h_rd, h_rs1, h_rs2]

theorem mnenc (rd rs1 rs2 : RegField) (lang : BitVec 4) : Statement (.mnenc rd rs1 rs2 lang) := fun h => by
  simp only [WellFormed, Bool.and_eq_true] at h
  have h_rd := classA_bit rd h.1.1
  have h_rs1 := classA_bit rs1 h.1.2
  have h_rs2 := classA_bit rs2 h.2
  refine ⟨_, rfl, ?_⟩
  rw [encode]
  exact encM_masked fun i hi => by interval_cases i <;> simp [h_rd, h_rs1, h_rs2]

theorem mndec (rd rs1 rs2 : RegField) (lang : BitVec 4) : Statement (.mndec rd rs1 rs2 lang) := fun h => by
  simp only [WellFormed, Bool.and_eq_true] at h
  have h_rd := classA_bit rd h.1.1
  have h_rs1 := classA_bit rs1 h.1.2
  have h_rs2 := classA_bit rs2 h.2
  refine ⟨_, rfl, ?_⟩
  rw [encode]
  exact encM_masked fun i hi => by interval_cases i <;> simp [h_rd, h_rs1, h_rs2]

theorem mncsum (rd rs1 rs2 : RegField) (lang : BitVec 4) : Statement (.mncsum rd rs1 rs2 lang) := fun h => by
  simp only [WellFormed, Bool.and_eq_true] at h
  have h_rd := classA_bit rd h.1.1
  have h_rs1 := classA_bit rs1 h.1.2
  have h_rs2 := classA_bit rs2 h.2
  refine ⟨_, rfl, ?_⟩
  rw [encode]
  exact encM_masked fun i hi => by interval_cases i <;> simp [h_rd, h_rs1, h_rs2]

end Sys2Proof.Laws.RowMatch
end

