-- ==== Sys2Proof/Laws/Primality.lean ====
section
/-! SUPPORT. The field prime of `40_field.md` R110 is prime, by Lucas certificates down to small primes. -/

namespace Sys2Proof.Laws

/-- `z^e mod m` by hexadecimal digits, for any modulus. -/
def powMod (m : Nat) : Nat → Nat → Nat → Nat
  | 0, _, _ => 1
  | fuel + 1, z, e => if e = 0 then 1 else powMod m fuel z (e / 16) ^ 16 * z ^ (e % 16) % m

theorem powMod_mod (m fuel z e : Nat) (h : e < 16 ^ fuel) : powMod m fuel z e % m = z ^ e % m := by
  induction fuel generalizing e with
  | zero =>
    obtain rfl : e = 0 := by simpa using h
    rfl
  | succ fuel ih =>
    rw [powMod]
    split
    · next h0 => rw [h0, pow_zero]
    · have hlt : e / 16 < 16 ^ fuel := by rw [pow_succ] at h; omega
      have step : z ^ e = (z ^ (e / 16)) ^ 16 * z ^ (e % 16) := by
        rw [← pow_mul, ← pow_add, Nat.div_add_mod' e 16]
      rw [Nat.mod_mod, step, Nat.mul_mod, Nat.pow_mod, ih _ hlt, ← Nat.pow_mod, ← Nat.mul_mod]

/-- The arithmetic of a Lucas certificate: `a` has order `n - 1` modulo `n`, and `fs` multiplies to `n - 1`. -/
def lucasCheck (n a : Nat) (fs : List Nat) : Bool :=
  decide (1 < n) && decide (n < 2 ^ 256) && decide (fs.prod = n - 1)
    && decide (powMod n 64 a (n - 1) % n = 1)
    && fs.all (fun q => decide (powMod n 64 a ((n - 1) / q) % n ≠ 1))

theorem prime_of_lucasCheck (n a : Nat) (fs : List Nat) (hp : ∀ q ∈ fs, q.Prime)
    (h : lucasCheck n a fs = true) : n.Prime := by
  simp only [lucasCheck, Bool.and_eq_true, decide_eq_true_eq, List.all_eq_true] at h
  obtain ⟨⟨⟨⟨h1, hn⟩, hprod⟩, hone⟩, hne⟩ := h
  have small : ∀ e, e ≤ n - 1 → e < 16 ^ 64 := fun e he => by
    have : (16 : Nat) ^ 64 = 2 ^ 256 := by norm_num
    omega
  have pow_iff : ∀ e, e ≤ n - 1 → ((a : ZMod n) ^ e = 1 ↔ powMod n 64 a e % n = 1) := fun e he => by
    rw [powMod_mod n 64 a e (small e he)]
    have hcast : (a : ZMod n) ^ e = 1 ↔ ((a ^ e : Nat) : ZMod n) = ((1 : Nat) : ZMod n) := by push_cast; rfl
    rw [hcast, ZMod.natCast_eq_natCast_iff, Nat.ModEq, Nat.mod_eq_of_lt h1]
  refine lucas_primality n (a : ZMod n) ((pow_iff _ le_rfl).2 hone) (fun q hq hdvd => ?_)
  rw [← hprod] at hdvd
  obtain ⟨r, hr, hqr⟩ := (Prime.dvd_prod_iff hq.prime).1 hdvd
  obtain rfl : q = r := (Nat.prime_dvd_prime_iff_eq hq (hp r hr)).1 hqr
  exact fun e => hne q hr ((pow_iff _ (Nat.div_le_self _ _)).1 e)

theorem prime_2773320623 : Nat.Prime 2773320623 :=
  prime_of_lucasCheck _ 5 [2, 2437, 569003]
    (by intro q hq; fin_cases hq <;> norm_num) (by decide +kernel)

theorem prime_72106336199 : Nat.Prime 72106336199 :=
  prime_of_lucasCheck _ 7 [2, 13, 2773320623]
    (by intro q hq; fin_cases hq <;> first | exact prime_2773320623 | norm_num) (by decide +kernel)

theorem prime_1919519569386763 : Nat.Prime 1919519569386763 :=
  prime_of_lucasCheck _ 2 [2, 3, 7, 19, 47, 47, 127, 8574133]
    (by intro q hq; fin_cases hq <;> norm_num) (by decide +kernel)

theorem prime_75445702479781427272750846543864801 : Nat.Prime 75445702479781427272750846543864801 :=
  prime_of_lucasCheck _ 7 [2, 2, 2, 2, 2, 3, 3, 5, 5, 75707, 72106336199, 1919519569386763]
    (by
      intro q hq
      fin_cases hq <;> first | exact prime_72106336199 | exact prime_1919519569386763 | norm_num)
    (by decide +kernel)

theorem prime_31757755568855353 : Nat.Prime 31757755568855353 :=
  prime_of_lucasCheck _ 10 [2, 2, 2, 3, 31, 107, 223, 4153, 430751]
    (by intro q hq; fin_cases hq <;> norm_num) (by decide +kernel)

theorem prime_factor_of_p_pred :
    Nat.Prime 74058212732561358302231226437062788676166966415465897661863160754340907 :=
  prime_of_lucasCheck _ 2
    [2, 3, 353, 57467, 132049, 1923133, 31757755568855353, 75445702479781427272750846543864801]
    (by
      intro q hq
      fin_cases hq <;>
        first
        | exact prime_31757755568855353
        | exact prime_75445702479781427272750846543864801
        | norm_num)
    (by decide +kernel)

/-- `40_field.md` R110: `p = 2^255 - 19` is prime. -/
theorem p_prime : Nat.Prime p :=
  prime_of_lucasCheck _ 2
    [2, 2, 3, 65147, 74058212732561358302231226437062788676166966415465897661863160754340907]
    (by intro q hq; fin_cases hq <;> first | exact prime_factor_of_p_pred | norm_num)
    (by decide +kernel)

end Sys2Proof.Laws
end

