-- ==== Sys2Proof/Laws/Slices.lean ====
section
/-! SUPPORT. Parts of byte strings: slices of a range of BUF, single bytes of an integer, and one byte changed in place. -/

namespace Sys2Proof.Machine

theorem slice_length {bs : List Byte} {i n : Nat} (h : i + n ≤ bs.length) : (slice bs i n).length = n := by
  simp only [slice, List.length_take, List.length_drop]
  omega

theorem State.memRead_getElem (s : State) (x n i : Nat) (h : i < (s.memRead x n).length) :
    (s.memRead x n)[i] = s.byte (x + i) := by
  simp [State.memRead]

/-- A slice of a range of BUF is a range of BUF. -/
theorem State.slice_memRead (s : State) {x n i k : Nat} (h : i + k ≤ n) :
    slice (s.memRead x n) i k = s.memRead (x + i) k := by
  apply List.ext_getElem?
  intro j
  unfold slice
  by_cases hj : j < k
  · rw [List.getElem?_take_of_lt hj, List.getElem?_drop, State.memRead_getElem? _ _ _ _ hj,
      State.memRead_getElem? _ _ _ _ (by omega), add_assoc]
  · rw [List.getElem?_eq_none (by simp; omega), List.getElem?_eq_none (by simp; omega)]

/-- One byte of what a command has stored. -/
theorem Stores.byte_eq {x : Nat} {out : List Byte} {s t : State} (h : Stores x out s t) {i : Nat}
    (hi : i < out.length) : t.byte (x + i) = out[i] := by
  have e := State.memRead_getElem? t x out.length i hi
  rw [h.1, List.getElem?_eq_getElem hi] at e
  exact (Option.some.inj e).symm

/-- A part of what a command has stored. -/
theorem Stores.memRead_eq {x : Nat} {out : List Byte} {s t : State} (h : Stores x out s t) {i n : Nat}
    (hi : i + n ≤ out.length) : t.memRead (x + i) n = slice out i n := by
  rw [← h.1, State.slice_memRead _ hi]

/-- A command that has stored bytes has left every operand register. -/
theorem Stores.operand_eq {x : Nat} {out : List Byte} {s t : State} (h : Stores x out s t) (r : RegField) :
    t.operand r = s.operand r := by
  rw [State.operand, State.operand, h.2.2.2.2.1 r]

/-! Bytes of an integer. -/

/-- The byte of weight `256^i` of a little-endian string. -/
theorem le_digit (bs : List Byte) (i : Nat) (h : i < bs.length) : le bs / 256 ^ i % 256 = (bs[i]).toNat := by
  induction bs generalizing i with
  | nil => simp at h
  | cons b bs ih =>
    have := b.isLt
    cases i with
    | zero =>
      simp only [le, pow_zero, Nat.div_one, List.getElem_cons_zero]
      omega
    | succ i =>
      simp only [le, List.getElem_cons_succ]
      rw [pow_succ', ← Nat.div_div_eq_div_mul, ← ih i (by simpa using h)]
      congr 2
      omega

theorem toLE_getElem? (v n i : Nat) (h : i < n) : (toLE v n)[i]? = some (BitVec.ofNat 8 (v / 256 ^ i)) := by
  induction n generalizing v i with
  | zero => omega
  | succ n ih =>
    cases i with
    | zero => simp [toLE]
    | succ i =>
      simp only [toLE, List.getElem?_cons_succ]
      rw [ih _ _ (by omega), Nat.div_div_eq_div_mul, pow_succ']

/-- The first `n` of `m` little-endian bytes. -/
theorem toLE_take (v : Nat) {n m : Nat} (h : n ≤ m) : (toLE v m).take n = toLE v n := by
  induction n generalizing v m with
  | zero => rfl
  | succ n ih =>
    cases m with
    | zero => omega
    | succ m =>
      simp only [toLE, List.take_succ_cons]
      rw [ih _ (by omega)]

theorem toLE_mod (v n : Nat) : toLE (v % 256 ^ n) n = toLE v n := by
  have h := toLE_le (toLE v n)
  rwa [le_toLE, toLE_length] at h

/-- The value of a string in which one byte has changed. -/
theorem le_modify (bs : List Byte) (i : Nat) (f : Byte → Byte) (h : i < bs.length) :
    le (bs.modify i f) + 256 ^ i * (bs[i]).toNat = le bs + 256 ^ i * (f bs[i]).toNat := by
  induction bs generalizing i with
  | nil => simp at h
  | cons b bs ih =>
    cases i with
    | zero =>
      simp only [List.modify_zero_cons, le, pow_zero, List.getElem_cons_zero]
      omega
    | succ i =>
      simp only [List.modify_succ_cons, le, List.getElem_cons_succ, pow_succ]
      have := ih i (by simpa using h)
      linarith

end Sys2Proof.Machine
end

