-- ==== Sys2Proof/Tests/Slice0.lean ====
section
/-! SUPPORT. Tests whose expected results come from the spec: the examples of the command rules, the words of the opcode map, and the vectors of `95_test_vectors.md`. -/

namespace Sys2Proof.Tests

set_option Elab.async false

open Sys2Proof.Machine

/-! Helpers. -/

/-- The state a step ends in, if it is a next state. -/
def nextOf : Host.Outcome State Fault Refusal → Option State
  | .next s => some s
  | _ => none

/-- The reset state with values in `A0, A1, ...`. -/
def withA (vals : List Nat) : State :=
  (vals.foldl (fun (c : State × Nat) v =>
    (c.1.writeA (BitVec.ofNat 4 c.2) (BitVec.ofNat 16 v), c.2 + 1)) (State.reset, 0)).1

/-- Values in `A0, A1, ...` and bytes in BUF from an offset. -/
def withAB (vals : List Nat) (x : Nat) (bs : List Byte) : State := (withA vals).memWrite x bs

/-- A byte string given by its values. -/
def bytes (l : List Nat) : List Byte := l.map (BitVec.ofNat 8)

/-- The ASCII bytes of a text. -/
def text (l : List Char) : List Byte := l.map (fun c => BitVec.ofNat 8 c.toNat)

/-- The bytes of a range and OLEN and STATUS after a command. -/
def output (o : Host.Outcome State Fault Refusal) (x n : Nat) : Option (List Byte × Nat × Nat) :=
  (nextOf o).map (fun t => (t.memRead x n, t.olen.toNat, t.status.toNat))

/-- STATUS and ECMD after a step. -/
def record (o : Host.Outcome State Fault Refusal) : Option (Nat × Nat) :=
  (nextOf o).map (fun t => (t.status.toNat, t.ecmd.toNat))

/-- The step of the unit for a command word. -/
def stepWord (s : State) (w : Nat) : Host.Outcome State Fault Refusal := step (s.withFetchWord 32 w)

/-! Well-formedness: an ill-formed term for each check (`30_encoding.md` R83). -/

theorem test_wellFormed_refuses_class_A_destination :
    ([.lda 8#4 0#16, .fst 8#4 0#4, .scred 8#4 0#4, .gecomp 8#4 0#4, .b58eb 8#4 0#4 0#4, .b58db 9#4 0#4 0#4,
      .b58enc 10#4 0#4 0#4, .b58dec 15#4 0#4 0#4, .mnenc 8#4 0#4 0#4 0#4, .mndec 8#4 0#4 0#4 0#4,
      .mncsum 8#4 0#4 0#4 0#4] : List Instr).map WellFormed = List.replicate 11 false := by decide

theorem test_wellFormed_refuses_class_A_source :
    ([.fld 0#4 8#4, .scred 0#4 8#4, .scclamp 8#4, .gesmb 0#4 8#4, .b58eb 0#4 8#4 0#4, .b58db 0#4 8#4 0#4,
      .b58enc 0#4 8#4 0#4, .b58dec 0#4 8#4 0#4, .mnenc 0#4 8#4 0#4 0#4, .mndec 0#4 8#4 0#4 0#4,
      .mncsum 0#4 8#4 0#4 0#4] : List Instr).map WellFormed = List.replicate 11 false := by decide

theorem test_wellFormed_refuses_class_A_length :
    ([.b58eb 0#4 0#4 8#4, .b58db 0#4 0#4 8#4, .b58enc 0#4 0#4 8#4, .b58dec 0#4 0#4 8#4,
      .mnenc 0#4 0#4 8#4 0#4, .mndec 0#4 0#4 8#4 0#4, .mncsum 0#4 0#4 8#4 0#4] : List Instr).map WellFormed
      = List.replicate 7 false := by decide

theorem test_wellFormed_refuses_class_P :
    ([.gesmb 4#4 0#4, .gep3p2 4#4 0#4, .gep3p2 0#4 4#4, .gecomp 0#4 4#4] : List Instr).map WellFormed
      = List.replicate 4 false := by decide

theorem test_wellFormed_admits_the_greatest_indices :
    ([.lda 7#4 0#16, .fld 15#4 7#4, .fadd 15#4 15#4 15#4, .gesmb 3#4 7#4, .gecomp 7#4 3#4,
      .mnenc 7#4 7#4 7#4 15#4] : List Instr).map WellFormed = List.replicate 6 true := by decide

/-! Decoding: every constructor, by a word of `95_test_vectors.md` 2.1 or of the command's rule. -/

theorem test_decode_control :
    decodeTableWord 32 0x01200040 = some (.lda 2#4 0x40#16) ∧
    decodeTableWord 32 0x0170FFFF = some (.lda 7#4 0xFFFF#16) ∧
    decodeTableWord 32 0x02000000 = some .errclr := by decide

theorem test_decode_field :
    decodeTableWord 32 0x10100000 = some (.fld 1#4 0#4) ∧ decodeTableWord 32 0x10F70000 = some (.fld 15#4 7#4) ∧
    decodeTableWord 32 0x11230000 = some (.fst 2#4 3#4) ∧
    decodeTableWord 32 0x12312000 = some (.fadd 3#4 1#4 2#4) ∧
    decodeTableWord 32 0x13312000 = some (.fsub 3#4 1#4 2#4) ∧
    decodeTableWord 32 0x14FFF000 = some (.fmul 15#4 15#4 15#4) ∧
    decodeTableWord 32 0x15430000 = some (.fsq 4#4 3#4) := by decide

theorem test_decode_curve :
    decodeTableWord 32 0x20100000 = some (.scred 1#4 0#4) ∧ decodeTableWord 32 0x21000000 = some (.scclamp 0#4) ∧
    decodeTableWord 32 0x22370000 = some (.gesmb 3#4 7#4) ∧
    decodeTableWord 32 0x23100000 = some (.gep3p2 1#4 0#4) ∧
    decodeTableWord 32 0x24200000 = some (.gecomp 2#4 0#4) := by decide

theorem test_decode_base58 :
    decodeTableWord 32 0x30201000 = some (.b58eb 2#4 0#4 1#4) ∧
    decodeTableWord 32 0x31201000 = some (.b58db 2#4 0#4 1#4) ∧
    decodeTableWord 32 0x32367000 = some (.b58enc 3#4 6#4 7#4) ∧
    decodeTableWord 32 0x33423000 = some (.b58dec 4#4 2#4 3#4) := by decide

theorem test_decode_mnemonic :
    decodeTableWord 32 0x40201000 = some (.mnenc 2#4 0#4 1#4 0#4) ∧
    decodeTableWord 32 0x40201F00 = some (.mnenc 2#4 0#4 1#4 15#4) ∧
    decodeTableWord 32 0x41625100 = some (.mndec 6#4 2#4 5#4 1#4) ∧
    decodeTableWord 32 0x42423000 = some (.mncsum 4#4 2#4 3#4 0#4) := by decide

/-- The illegal words of `95_test_vectors.md` 2.1. -/
theorem test_decode_refuses_illegal_words :
    [0x00000000, 0xFFFFFFFF, 0x16000000, 0x43000000, 0x10180000, 0x01800000, 0x01210000, 0x02000001,
      0x12312001, 0x15431000, 0x21100000, 0x22400000, 0x23140000, 0x24240000, 0x30281000, 0x40201001].map
      (decodeTableWord 32) = List.replicate 16 none := by decide

/-- The class and must-be-zero checks of the rows no word of 2.1 reaches (`30_encoding.md` R85). -/
theorem test_decode_refuses_other_rows :
    [0x11800000, 0x20180000, 0x21080000, 0x31208000, 0x32281000, 0x33801000, 0x41208000, 0x42280000,
      0x41201080].map (decodeTableWord 32) = List.replicate 9 none := by decide

theorem test_encode_words :
    encode (.lda 2#4 0x40#16) = 0x01200040#32 ∧ encode .errclr = 0x02000000#32 ∧
    encode (.fst 2#4 3#4) = 0x11230000#32 ∧ encode (.scclamp 0#4) = 0x21000000#32 ∧
    encode (.gep3p2 1#4 0#4) = 0x23100000#32 ∧ encode (.b58dec 4#4 2#4 3#4) = 0x33423000#32 ∧
    encode (.mndec 6#4 2#4 5#4 1#4) = 0x41625100#32 := by decide

/-! The step of the unit (`95_test_vectors.md` 2.6). -/

theorem test_illegal_word_recorded : record (stepWord State.reset 0xFFFFFFFF) = some (0x81, 0xFFFFFFFF) := by
  decide

theorem test_skipped_while_error :
    (nextOf (stepWord (State.reset.enter .illegalCommand 0#32) 0x01000005)).map (fun t =>
      ((t.readA 0#4).toNat, t.status.toNat)) = some (0, 0x81) := by decide

theorem test_errclr_word_clears : record (stepWord (State.reset.enter .illegalCommand 5#32) 0x02000000)
    = some (0, 0) := by decide

theorem test_not_exactly_errclr_skipped :
    record (stepWord (State.reset.enter .illegalCommand 5#32) 0x02000001) = some (0x81, 5) := by decide

/-- `44_control.md` R221's example. -/
theorem test_errclr_example :
    record (exec .errclr (State.reset.enter .invalidDigit 0x33201000#32)) = some (0, 0) := by decide

/-- `44_control.md` R220's example. -/
theorem test_lda_example :
    (nextOf (exec (.lda 2#4 0x40#16) State.reset)).map (fun t => (t.readA 2#4).toNat) = some 64 := by decide

/-! Field commands (`40_field.md`, the examples and 2.2). -/

theorem test_fld_all_ones :
    (nextOf (exec (.fld 1#4 0#4) (withAB [0] 0 (List.replicate 32 0xFF#8)))).map (fun t => (t.readF 1#4).val)
      = some 18 := by decide +kernel

theorem test_fld_bounds :
    (record (stepWord (withA [992]) 0x10000000), record (stepWord (withA [993]) 0x10000000))
      = (some (0, 0), some (0x71, 0x10000000)) := by decide +kernel

/-- R113's example: `p - 1` at offset 64. -/
theorem test_fst_example :
    output (exec (.fst 2#4 3#4) ((withA [0, 0, 64]).writeF 3#4 (elemOfNat (p - 1)))) 64 32
      = some (bytes ([0xEC] ++ List.replicate 30 0xFF ++ [0x7F]), 32, 0) := by decide +kernel

/-- Registers `F1, F2` with given values. -/
def withF (x y : Nat) : State := (State.reset.writeF 1#4 (elemOfNat x)).writeF 2#4 (elemOfNat y)

/-- The value of `F3` after a command. -/
def valueF3 (o : Host.Outcome State Fault Refusal) : Option Nat := (nextOf o).map (fun t => (t.readF 3#4).val)

theorem test_fadd_example : valueF3 (exec (.fadd 3#4 1#4 2#4) (withF (p - 1) 1)) = some 0 := by decide +kernel

theorem test_fsub_example : valueF3 (exec (.fsub 3#4 1#4 2#4) (withF 0 1)) = some (p - 1) := by decide +kernel

theorem test_fsub_order : valueF3 (exec (.fsub 3#4 1#4 2#4) (withF 1 (p - 1))) = some 2 := by decide +kernel

theorem test_fmul_example : valueF3 (exec (.fmul 3#4 1#4 2#4) (withF (2 ^ 128) (2 ^ 128))) = some 38 := by
  decide +kernel

theorem test_fsq_example : valueF3 (exec (.fsq 3#4 1#4) (withF (p - 2) 0)) = some 4 := by decide +kernel

/-- R117: the square of `2^254`. -/
theorem test_fsq_large : valueF3 (exec (.fsq 3#4 1#4) (withF (2 ^ 254) 0))
    = some 43422033463993573283839119378257965444976244249615211514796594002967423615052 := by decide +kernel

/-! Scalar and curve commands (`41_curve_scalar.md`, 2.3). -/

/-- The 32 bytes of `L` (R132). -/
def orderBytes : List Byte :=
  bytes [0xED, 0xD3, 0xF5, 0x5C, 0x1A, 0x63, 0x12, 0x58, 0xD6, 0x9C, 0xF7, 0xA2, 0xDE, 0xF9, 0xDE, 0x14]
    ++ List.replicate 15 0#8 ++ [0x10#8]

theorem test_order_bytes : le orderBytes = groupOrder := by decide +kernel

theorem test_scred_of_order_is_zero :
    output (exec (.scred 1#4 0#4) (withAB [0, 64] 0 orderBytes)) 64 32
      = some (List.replicate 32 0#8, 32, 0) := by decide +kernel

/-- 2.3: sixty-four bytes 0xFF, reduced in place. -/
theorem test_scred_all_ones :
    output (exec (.scred 0#4 0#4) (withAB [0] 0 (List.replicate 64 0xFF#8))) 0 32
      = some (bytes [0x00, 0x0F, 0x9C, 0x44, 0xE3, 0x11, 0x06, 0xA4, 0x47, 0x93, 0x85, 0x68, 0xA7, 0x1B, 0x0E,
          0xD0, 0x65, 0xBE, 0xF5, 0x17, 0xD2, 0x73, 0xEC, 0xCE, 0x3D, 0x9A, 0x30, 0x7C, 0x1B, 0x41, 0x99, 0x03],
        32, 0) := by decide +kernel

theorem test_scclamp_all_ones :
    output (exec (.scclamp 0#4) (withAB [5] 5 (List.replicate 32 0xFF#8))) 5 32
      = some (bytes ([0xF8] ++ List.replicate 30 0xFF ++ [0x7F]), 32, 0) := by decide +kernel

theorem test_scclamp_bounds : record (exec (.scclamp 0#4) (withA [993])) = some (0x71, 0x21000000) := by
  decide +kernel

/-- R133, R130: the base point lies on the curve; R131: `d` is minus 121665 over 121666. -/
theorem test_base_point_on_curve :
    basePoint.onCurve = true ∧ curveD.val * 121666 % p = p - 121665 ∧ basePoint.y.val * 5 % p = 4 ∧
    basePoint.x.val % 2 = 0 := by decide +kernel

/-- 2.3: the compression of `[2]B` and of `[3]B`. -/
theorem test_small_multiples_of_base_point :
    compressAffine (scalarMul 2 basePoint).x (scalarMul 2 basePoint).y
      = bytes [0xC9, 0xA3, 0xF8, 0x6A, 0xAE, 0x46, 0x5F, 0x0E, 0x56, 0x51, 0x38, 0x64, 0x51, 0x0F, 0x39, 0x97,
          0x56, 0x1F, 0xA2, 0xC9, 0xE8, 0x5E, 0xA2, 0x1D, 0xC2, 0x29, 0x23, 0x09, 0xF3, 0xCD, 0x60, 0x22] ∧
    (scalarMul 3 basePoint).x.val = 0x67ae9c4a22928f491ff4ae743edac83a6343981981624886ac62485fd3f8e25c := by
  decide +kernel

/-- R138: a scalar of 0 gives `(0, lambda, lambda, 0)`, whatever the draw. -/
theorem test_gesmb_of_zero :
    (nextOf (exec (.gesmb 1#4 0#4) State.reset)).map (fun t => ((t.coord 1#4 0#4).val, (t.coord 1#4 3#4).val))
      = some (0, 0) := by
  have h : ∀ l : Elem, (fieldMul l ⟨0, by decide⟩).val = 0 := fun l => by simp [fieldMul, elemOfNat]
  have h' : ∀ l : Elem, (fieldMul ⟨0, by decide⟩ l).val = 0 := fun l => by simp [fieldMul, elemOfNat]
  have hz : le (State.reset.memRead (State.reset.operand 0#4) 32) = 0 := by decide +kernel
  have e : exec (.gesmb 1#4 0#4) State.reset
      = .next (State.reset.countDraw.writeExtended 1#4
          (scalarMul (le (State.reset.memRead (State.reset.operand 0#4) 32)) basePoint) (freeLambda 0)) := rfl
  rw [e, hz]
  have ex : fieldMul (freeLambda 0) (scalarMul 0 basePoint).x = ⟨0, by decide⟩ := Fin.ext (h _)
  simp only [nextOf, Option.map_some, State.writeExtended, ex]
  exact congrArg some (Prod.ext rfl (h' _))

theorem test_gesmb_bounds : record (exec (.gesmb 0#4 0#4) (withA [993])) = some (0x71, 0x22000000) := by
  decide +kernel

/-- The state with `P0` and `P1` of R141's example. -/
def withPoints : State :=
  ((State.reset.writeXYZ 0#4 (elemOfNat 2) (elemOfNat 6) (elemOfNat 2)).writeF 3#4 (elemOfNat 6)).writeF 7#4
    (elemOfNat 9)

theorem test_gep3p2_example :
    (nextOf (exec (.gep3p2 1#4 0#4) withPoints)).map (fun t =>
      ((List.range 8).map (fun i => (t.readF (BitVec.ofNat 4 i)).val))) = some [2, 6, 2, 6, 2, 6, 2, 9] := by
  decide +kernel

/-- R140's example: `x = 1`, `y = 3`. -/
theorem test_gecomp_example :
    output (exec (.gecomp 2#4 0#4) (withPoints.writeA 2#4 64#16)) 64 32
      = some (bytes ([0x03] ++ List.replicate 30 0 ++ [0x80]), 32, 0) := by decide +kernel

theorem test_gecomp_of_reset_register :
    output (exec (.gecomp 2#4 0#4) State.reset) 0 32 = some (List.replicate 32 0#8, 32, 0) := by decide +kernel

/-! Base58 commands (`42_base58.md`, 2.4). -/

/-- R160: the places R160 names. -/
theorem test_alphabet : alphabet.length = 58 ∧
    [0, 8, 9, 16, 17, 21, 22, 32, 33, 43, 44, 57].map digitChar
      = text ['1', '9', 'A', 'H', 'J', 'N', 'P', 'Z', 'a', 'k', 'm', 'z'] ∧
    (text ['0', 'O', 'I', 'l', ' ']).map digit = List.replicate 5 none := by decide

/-- R161: every table entry is the least number of digits that holds every value of its length. -/
theorem test_table_entries_are_minimal :
    ∀ n ∈ [1, 2, 3, 4, 5, 6, 7, 8], 58 ^ encodedLength n > 2 ^ (8 * n) ∧
      2 ^ (8 * n) ≥ 58 ^ (encodedLength n - 1) ∧ rawLength (encodedLength n) = some n := by decide

theorem test_b58eb_example :
    output (exec (.b58eb 2#4 0#4 1#4) (withAB [0, 1, 16] 0 (bytes [0x39]))) 16 2
      = some (text ['1', 'z'], 2, 0) := by decide +kernel

theorem test_b58eb_bad_length :
    (record (exec (.b58eb 2#4 0#4 1#4) (withA [0, 0, 16])), record (exec (.b58eb 2#4 0#4 1#4) (withA [0, 9, 16])))
      = (some (0x71, 0x30201000), some (0x71, 0x30201000)) := by decide +kernel

theorem test_b58db_example :
    output (exec (.b58db 2#4 0#4 1#4) (withAB [0, 2, 16] 0 (text ['5', 'Q']))) 16 1
      = some (bytes [0xFF], 1, 0) := by decide +kernel

/-- 2.4: the size comes after the source range. -/
theorem test_b58db_order :
    (record (exec (.b58db 2#4 0#4 1#4) (withA [0, 4, 16])), record (exec (.b58db 2#4 0#4 1#4) (withA [1021, 4, 16])))
      = (some (0x21, 0x31201000), some (0x71, 0x31201000)) := by decide +kernel

/-- R168's example. -/
theorem test_b58enc_example :
    output (exec (.b58enc 2#4 0#4 1#4) (withAB [0, 9, 32] 0 (bytes [1]))) 32 13
      = some (text ['1', 'A', 'h', 'g', '1', 'o', 'p', 'V', 'c', 'G', 'X', '1', '1'], 13, 0) := by
  decide +kernel

/-- 2.4: source and destination overlap. -/
theorem test_b58enc_overlap :
    output (exec (.b58enc 2#4 0#4 1#4) (withAB [0, 9, 4] 0 (bytes [1, 2, 3, 4, 5, 6, 7, 8, 9]))) 0 17
      = some (bytes [1, 2, 3, 4]
          ++ text ['1', 'A', 'n', '6', 'U', 'e', 'b', 'x', 'C', 'Z', 'd', '1', 'A'], 13, 0) := by
  decide +kernel

/-- R172 (1): the zero-skip regression vector. -/
theorem test_zero_skip_regression :
    encodeBase58 (bytes [0, 0, 1, 0, 0, 2, 0, 0])
      = text ['1', '1', '1', '1', 'V', 't', 'B', '6', 'A', 'V', 'V'] ∧
    decodeBase58 (text ['1', '1', '1', '1', 'V', 't', 'B', '6', 'A', 'V', 'V'])
      = .ok (bytes [0, 0, 1, 0, 0, 2, 0, 0]) := by decide +kernel

/-- R172 (2): the overflow regression vectors. -/
theorem test_overflow_regression :
    decodeBase58 (text ['j', 'p', 'X', 'C', 'Z', 'e', 'd', 'G', 'f', 'V', 'Q']) = .ok (List.replicate 8 0xFF#8) ∧
    decodeBase58 (text ['j', 'p', 'X', 'C', 'Z', 'e', 'd', 'G', 'f', 'V', 'R']) = .error .overflow := by
  decide +kernel

/-- 2.4: the first failure from the left, and the data before the destination. -/
theorem test_b58dec_order :
    (record (exec (.b58dec 2#4 0#4 1#4)
        (withAB [0, 13, 32] 0 (List.replicate 11 0x7A#8 ++ text ['0', 'z']))),
      record (exec (.b58dec 2#4 0#4 1#4) (withAB [0, 11, 1020] 0 (List.replicate 10 0x31#8 ++ text ['l']))))
      = (some (0x31, 0x33201000), some (0x11, 0x33201000)) := by decide +kernel

theorem test_b58dec_cuts_by_offset :
    output (exec (.b58dec 2#4 0#4 1#4)
        (withAB [0, 13, 32] 0 (List.replicate 11 0x31#8 ++ text ['z', 'z']))) 32 9
      = some (bytes [0, 0, 0, 0, 0, 0, 0, 0, 0x23], 9, 0) := by decide +kernel

/-! Mnemonic commands, under the toy configuration T5 of `43_mnemonic.md` (2.5). -/

/-- One byte of the IEEE CRC-32 (reflected polynomial 0xEDB88320). -/
def crcByte (c : BitVec 32) (b : Byte) : BitVec 32 :=
  (List.range 8).foldl
    (fun c _ => if c.toNat % 2 = 1 then BitVec.ofNat 32 (c.toNat / 2) ^^^ 0xEDB88320#32
      else BitVec.ofNat 32 (c.toNat / 2)) (c ^^^ b.setWidth 32)

/-- The IEEE CRC-32, the CRC32 of T5. -/
def crcIeee (l : List Byte) : BitVec 32 := l.foldl crcByte 0xFFFFFFFF#32 ^^^ 0xFFFFFFFF#32

/-- The toy configuration T5. -/
def T5 : LangConfig where
  words := [text ['a', 'l', 'p', 'h', 'a'], text ['b', 'r', 'a', 'v', 'o'],
    text ['c', 'h', 'a', 'r', 'l', 'i', 'e'], text ['d', 'e', 'l', 't', 'a'], text ['e', 'c', 'h', 'o']]
  prefixLen := 3
  crc32 := crcIeee
  words_nonempty := by decide
  word_legal := by decide
  prefix_pos := by decide

/-- A phrase given by its words. -/
def phrase (ws : List (List Char)) : List Byte := joinWords (ws.map text)

theorem test_crc_check_value :
    crcIeee (text ['1', '2', '3', '4', '5', '6', '7', '8', '9']) = 0xCBF43926#32 := by decide +kernel

/-- R196's example. -/
theorem test_mnenc_example :
    output (retire 0x40201000#32 State.reset
        (runMnenc T5 2#4 0#4 1#4 0#4 (withAB [0, 4, 64] 0 (bytes [0x59])))) 64 21
      = some (phrase [['e', 'c', 'h', 'o'], ['b', 'r', 'a', 'v', 'o'], ['e', 'c', 'h', 'o'],
          ['b', 'r', 'a', 'v', 'o']], 21, 0) := by decide +kernel

theorem test_mnenc_bad_length : record (exec (.mnenc 2#4 0#4 1#4 0#4) (withA [0, 6, 64]))
    = some (0x71, 0x40201000) := by decide +kernel

/-- R198's example: only prefixes count, and the last word is not looked at. -/
theorem test_mndec_example :
    output (retire 0x41201000#32 State.reset
        (runMndec T5 2#4 0#4 1#4 0#4 (withAB [0, 20, 64] 0 (phrase [['e', 'c', 'h'], ['b', 'r', 'a'],
          ['e', 'c', 'h', 'o', 'e', 's'], ['b', 'r', 'a', 'v', 'o']])))) 64 4
      = some (bytes [0x59, 0, 0, 0], 4, 0) := by decide +kernel

/-- 2.5: the language comes before everything else. -/
theorem test_mndec_language_first : record (exec (.mndec 2#4 0#4 1#4 1#4) (withA [65535, 65535, 64]))
    = some (0x61, 0x41201100) := by decide +kernel

/-- 2.5: a leading space makes an empty first word; two words are no phrase. -/
theorem test_phrase_errors :
    decodePhrase T5 (0x20#8 :: phrase [['e', 'c', 'h', 'o'], ['b', 'r', 'a', 'v', 'o'], ['e', 'c', 'h', 'o']])
      = .error .invalidMnemonic ∧
    decodePhrase T5 (phrase [['e', 'c', 'h', 'o'], ['b', 'r', 'a', 'v', 'o']]) = .error .invalidEncodedSize := by
  decide +kernel

/-- R199's example: 1 into `A3`. -/
theorem test_mncsum_example :
    (nextOf (retire 0x42301000#32 State.reset
        (runMncsum T5 3#4 0#4 1#4 0#4 (withAB [0, 15] 0 (phrase [['e', 'c', 'h', 'o'], ['b', 'r', 'a', 'v', 'o'],
          ['e', 'c', 'h', 'o']]))))).map (fun t => (t.readA 3#4).toNat) = some 1 := by decide +kernel

theorem test_mncsum_empty_phrase : record (exec (.mncsum 3#4 0#4 1#4 0#4) (withA [0, 0]))
    = some (0x71, 0x42301000) := by decide +kernel

/-! The bus (`20_memory.md` R60 to R62, program P2). -/

/-- A host move on the reset state with bytes in the window. -/
def move (m : HostMove) (s : State) : Host.Outcome State Fault Refusal := step { s with moves := [m] }

theorem test_window_lanes :
    (nextOf (move (.write .word 0x420#11 0x366E4131#32) State.reset)).map (fun t => t.memRead 32 4)
      = some (text ['1', 'A', 'n', '6']) ∧
    (nextOf (move (.read .word 0x420#11) (withAB [] 32 (text ['1', 'A', 'n', '6'])))).map (·.replies)
      = some [0x366E4131#32] := by decide +kernel

theorem test_bus_registers :
    (nextOf (move (.read .word 0x004#11) (State.reset.enter .invalidDigit 7#32))).map (·.replies)
      = some [0x11#32] ∧
    (nextOf (move (.read .word 0x024#11) (withA [0, 9]))).map (·.replies) = some [9#32] := by decide +kernel

theorem test_bus_refuses_misaligned :
    (match move (.read .word 0x002#11) State.reset with
      | .refused .misalignedAccess => true
      | _ => false) = true ∧
    (match move (.write .byte 0x400#11 0#32) State.reset with
      | .refused .subWordAccess => true
      | _ => false) = true := by decide +kernel

theorem test_reset_move_clears :
    (nextOf (move .reset ((withF 1 2).enter .overflow 3#32))).map (fun t =>
      ((t.readF 1#4).val, t.status.toNat, t.ecmd.toNat)) = some (0, 0, 0) := by decide +kernel

end Sys2Proof.Tests
end

