-- ==== Sys2Proof/Tests/Witnesses.lean ====
section
/-! SUPPORT. For each statement with hypotheses, a concrete state and operands that meet all of them, at the values where the statement's clauses meet. -/

namespace Sys2Proof.Tests

set_option Elab.async false

open Sys2Proof.Machine

/-! Helpers. -/

/-- A state whose host is about to make the given moves. -/
def facing (moves : List HostMove) (s : State) : State := { s with moves := moves }

/-- A state with an error on record. -/
def failed : State := (withF 1 2).enter .overflow 0x33201000#32

/-- A step ends in a next state that meets a test. -/
def endsIn (o : Host.Outcome State Fault Refusal) (q : State → Bool) : Bool := (nextOf o).any q

/-- The error code a step ends with, 0 for none. -/
def codeOf (o : Host.Outcome State Fault Refusal) : Option Nat := (nextOf o).map (fun t => t.ecode.toNat)

/-! Reset and the invariant. -/

theorem witness_ResetZeroesTheUnit : (facing [.reset, .read .word 0x004#11] failed).moves
    = .reset :: [.read .word 0x004#11] := rfl

theorem witness_StepKeepsInvariant :
    (withAB [992] 5 (bytes [7, 8])).Inv ∧ failed.Inv ∧
    endsIn (stepWord (withAB [992] 5 (bytes [7, 8])) 0x11030000) (fun t => t.olen = 32#16) = true ∧
    endsIn (stepWord failed 0x02000000) (fun t => t.err = false) = true := by
  unfold State.Inv
  decide +kernel

/-! Decoding. -/

theorem witness_DecodeOfEncodeIsIdentity :
    ([.lda 7#4 0xFFFF#16, .errclr, .fld 15#4 7#4, .fst 7#4 15#4, .fadd 15#4 14#4 13#4, .fsub 0#4 1#4 2#4,
      .fmul 3#4 4#4 5#4, .fsq 15#4 0#4, .scred 7#4 6#4, .scclamp 7#4] ++
    [.gesmb 3#4 7#4, .gep3p2 3#4 2#4, .gecomp 7#4 3#4, .b58eb 7#4 6#4 5#4, .b58db 0#4 1#4 2#4,
      .b58enc 7#4 7#4 7#4, .b58dec 4#4 5#4 6#4, .mnenc 7#4 6#4 5#4 15#4, .mndec 0#4 1#4 2#4 0#4,
      .mncsum 7#4 7#4 7#4 1#4] : List Instr).all WellFormed = true := by decide

theorem witness_EncodeOfDecodeIsIdentity :
    decode 0x41625100#32 = .ok (.mndec 6#4 2#4 5#4 1#4) ∧ decode 0x0170FFFF#32 = .ok (.lda 7#4 0xFFFF#16) := by
  decide

theorem witness_LegalWordsAreTheTableRows :
    (0x12000000#32, 0xFF000FFF#32) ∈ opcodePatterns ∧ 0x12312000#32 &&& 0xFF000FFF#32 = 0x12000000#32 := by
  decide

/-! The step of the unit. -/

theorem witness_StepRunsDecodedCommand :
    (facing [.write .word 0#11 0x12312000#32, .reset] (withF 1 2)).moves
      = .write .word 0x000#11 0x12312000#32 :: [.reset] ∧
    (withF 1 2).err = false ∧ decode 0x12312000#32 = .ok (.fadd 3#4 1#4 2#4) := by decide +kernel

/-- An illegal word of each sort. -/
theorem witness_IllegalWordEntersIllegalCommand :
    (facing [.write .word 0#11 0x00000000#32] (withF 1 2)).moves = .write .word 0x000#11 0x00000000#32 :: [] ∧
    (withF 1 2).err = false ∧ (∀ i, decode 0x00000000#32 ≠ .ok i) ∧ (∀ i, decode 0x02000001#32 ≠ .ok i) := by
  have h1 : decode 0x00000000#32 = .error .noSuchOpcode := by decide
  have h2 : decode 0x02000001#32 = .error .fieldNotAllowed := by decide
  exact ⟨rfl, rfl, fun i => by simp [h1], fun i => by simp [h2]⟩

/-- Illegal words, a legal one and words next to ERRCLR's. -/
theorem witness_CommandsAreSkippedWhileErrorOnRecord :
    (∀ w ∈ [0x02000001#32, 0x01000005#32, 0x00000000#32, 0x03000000#32], w ≠ 0x02000000#32) ∧
    failed.err = true ∧
    (facing [.write .word 0#11 0x02000001#32, .write .word 0#11 0x01000005#32, .write .word 0#11 0x00000000#32,
      .write .word 0#11 0x03000000#32, .reset] failed).moves
      = [0x02000001#32, 0x01000005#32, 0x00000000#32, 0x03000000#32].map
          (fun w => .write .word 0x000#11 w) ++ [.reset] := ⟨by simp, rfl, rfl⟩

theorem witness_ErrclrRunsWhileErrorOnRecord :
    (facing [.write .word 0#11 0x02000000#32] failed).moves = .write .word 0x000#11 0x02000000#32 :: [] ∧
    failed.err = true := by decide +kernel

theorem witness_IdleUnitHoldsItsState : failed.moves = [] := rfl

theorem witness_EveryCommandWordRetires :
    (facing [.write .word 0#11 0xFFFFFFFF#32, .reset] failed).moves
      = .write .word 0x000#11 0xFFFFFFFF#32 :: [.reset] := rfl

/-! Errors. -/

theorem witness_FailingCommandWritesOnlyTheRecord :
    (withA [993]).err = false ∧ endsIn (exec (.fld 1#4 0#4) (withA [993])) (·.err) = true ∧
    (withA [0, 4]).err = false ∧ endsIn (exec (.b58dec 2#4 0#4 1#4) (withA [0, 4])) (·.err) = true ∧
    State.reset.err = false ∧ endsIn (exec (.mnenc 2#4 0#4 1#4 1#4) State.reset) (·.err) = true := by
  decide +kernel

theorem witness_OnlyListedCommandsWriteEachKindOfState :
    endsIn (exec (.fadd 3#4 1#4 2#4) (withF 1 2)) (fun t => (t.readF 3#4).val = 3) = true ∧
    writesOperandRegs (.fadd 3#4 1#4 2#4) = false ∧ writesBuffer (.fadd 3#4 1#4 2#4) = false ∧
    endsIn (exec (.fst 2#4 3#4) State.reset) (fun t => t.olen = 32#16) = true ∧
    writesFieldRegs (.fst 2#4 3#4) = false := by decide +kernel

/-! The host's bus. -/

/-- The first and the last word of the window, with no error on record and with one. -/
theorem witness_WindowWriteStoresFourBytes :
    (facing [.write .word 0x400#11 0x04030201#32] failed).moves
      = .write .word (BitVec.ofNat 11 (0x400 + 4 * 0)) 0x04030201#32 :: [] ∧
    (facing [.write .word 0x7FC#11 0x04030201#32] State.reset).moves
      = .write .word (BitVec.ofNat 11 (0x400 + 4 * 255)) 0x04030201#32 :: [] ∧
    endsIn (step (facing [.write .word 0x400#11 0x04030201#32] failed))
      (fun t => t.memRead 0 5 = bytes [1, 2, 3, 4, 0]) = true ∧
    endsIn (step (facing [.write .word 0x7FC#11 0x04030201#32] State.reset))
      (fun t => t.memRead 1019 5 = bytes [0, 1, 2, 3, 4]) = true := by decide +kernel

/-- Registers, a record, an OLEN and a window that all differ. -/
def busState : State :=
  (((withAB [0x11, 2, 3, 4, 5, 6, 7, 0x88] 0 (bytes [1, 2, 3, 4])).memWrite 1020 (bytes [5, 6, 7, 8])).enter
    .invalidMnemonic 0x41201000#32).setOlen 1024

/-- The first and the last offset of every range of the map. -/
theorem witness_BusReadsFollowTheBusMap :
    (∀ x ∈ [0x000, 0x004, 0x008, 0x00C, 0x010, 0x01C, 0x020, 0x03C, 0x040, 0x3FC, 0x400, 0x7FC],
      x % 4 = 0 ∧ x < 0x800 ∧
      (facing [.read .word (BitVec.ofNat 11 x)] busState).moves = .read .word (BitVec.ofNat 11 x) :: []) ∧
    [0x000, 0x004, 0x008, 0x00C, 0x010, 0x01C, 0x020, 0x03C, 0x040, 0x3FC, 0x400, 0x7FC].map
      (fun x => (nextOf (step (facing [.read .word (BitVec.ofNat 11 x)] busState))).map (·.replies))
      = [0, 0x41, 0x41201000, 1024, 0, 0, 0x11, 0x88, 0, 0, 0x04030201, 0x08070605].map
          (fun v => some [BitVec.ofNat 32 v]) := by decide +kernel

theorem witness_WritesToReadOnlyOffsetsAreIgnored :
    ∀ x ∈ [0x004, 0x00C, 0x010, 0x020, 0x03C, 0x040, 0x3FC], x % 4 = 0 ∧ 0x004 ≤ x ∧ x < 0x400 ∧
      (facing [.write .word (BitVec.ofNat 11 x) 1#32] busState).moves
        = .write .word (BitVec.ofNat 11 x) 1#32 :: [] := by decide +kernel

theorem witness_SubWordAndMisalignedAccessesAreRefused :
    (facing [.write .byte 0x400#11 1#32] busState).moves = .write .byte 0x400#11 1#32 :: [] ∧
    (facing [.read .halfword 0x002#11] busState).moves = .read .halfword 0x002#11 :: [] ∧
    AccessSize.byte ≠ .word ∧ AccessSize.halfword ≠ .word ∧
    (facing [.read .word 0x7FF#11] busState).moves = .read .word 0x7FF#11 :: [] ∧
    (0x7FF#11).toNat % 4 ≠ 0 := by decide +kernel

/-! Control commands. -/

theorem witness_LdaLoadsOperandRegister : WellFormed (.lda 7#4 0xFFFF#16) = true ∧ failed.err = true := by
  decide +kernel

theorem witness_ErrclrClearsTheRecord :
    (withF 1 2).err = false ∧ (withF 1 2).ecode = 0#4 ∧ (withF 1 2).ecmd = 0#32 ∧
    opField 0x02000001#32 = 0x02#8 ∧ 0x02000001#32 ≠ 0x02000000#32 ∧ failed.err = true := by decide +kernel

/-! Field commands. -/

/-- 992 is the last offset with 32 bytes after it. -/
theorem witness_FldLoadsReducedElement :
    WellFormed (.fld 15#4 0#4) = true ∧ (withA [992, 993]).operand 0#4 + 32 ≤ 1024 ∧
    WellFormed (.fld 15#4 1#4) = true ∧ (withA [992, 993]).operand 1#4 + 32 > 1024 := by decide +kernel

theorem witness_FstStoresCanonicalEncoding :
    WellFormed (.fst 0#4 15#4) = true ∧ (withA [992, 993]).operand 0#4 + 32 ≤ 1024 ∧
    WellFormed (.fst 1#4 15#4) = true ∧ (withA [992, 993]).operand 1#4 + 32 > 1024 := by decide +kernel

theorem witness_FstThenFldReturnsTheElement : (withA [992]).operand 0#4 + 32 ≤ 1024 := by decide +kernel

theorem witness_FieldOperationsAreThoseOfTheField :
    (elemOfNat 2).val ≠ 0 ∧ (elemOfNat p).val = 0 ∧ (fieldMul (elemOfNat 2) (fieldInv (elemOfNat 2))).val = 1 ∧
    (fieldInv (elemOfNat 0)).val = 0 := by decide +kernel

theorem witness_PointRegistersAliasFieldRegisters :
    0 < 4 ∧ 3 < 4 ∧ BitVec.ofNat 4 (4 * 0 + 0) = 0#4 ∧ BitVec.ofNat 4 (4 * 3 + 3) = 15#4 := by decide

/-! Scalar and curve commands. -/

/-- 960 and 992 are the last offsets of a source and a destination. -/
theorem witness_ScredReducesModL :
    WellFormed (.scred 1#4 0#4) = true ∧ (withA [960, 992, 961, 993]).operand 0#4 + 64 ≤ 1024 ∧
    (withA [960, 992, 961, 993]).operand 1#4 + 32 ≤ 1024 ∧
    WellFormed (.scred 1#4 2#4) = true ∧ (withA [960, 992, 961, 993]).operand 2#4 + 64 > 1024 ∧
    WellFormed (.scred 3#4 0#4) = true ∧ (withA [960, 992, 961, 993]).operand 3#4 + 32 > 1024 := by
  decide +kernel

theorem witness_ScclampClampsInPlace :
    WellFormed (.scclamp 0#4) = true ∧ (withA [992, 993]).operand 0#4 + 32 ≤ 1024 ∧
    WellFormed (.scclamp 1#4) = true ∧ (withA [992, 993]).operand 1#4 + 32 > 1024 := by decide +kernel

theorem witness_GesmbDeliversARepresentative :
    WellFormed (.gesmb 3#4 0#4) = true ∧ (withA [992, 993]).operand 0#4 + 32 ≤ 1024 ∧
    WellFormed (.gesmb 3#4 1#4) = true ∧ (withA [992, 993]).operand 1#4 + 32 > 1024 := by decide +kernel

theorem witness_ScalarMulIsRepeatedAddition :
    basePoint.onCurve = true ∧ neutral.onCurve = true ∧
    scalarMul 5 basePoint = repeatedSum basePoint 5 := by decide +kernel

theorem witness_MultiplesOfBasePointLieOnTheCurve :
    basePoint.onCurve = true ∧ (scalarMul 2 basePoint).onCurve = true ∧
    (⟨elemOfNat 1, elemOfNat 1⟩ : Point).onCurve = false := by decide +kernel

theorem witness_Gep3p2CopiesThreeCoordinates :
    WellFormed (.gep3p2 3#4 0#4) = true ∧ (3#4 : RegField) ≠ 0#4 ∧ WellFormed (.gep3p2 2#4 2#4) = true := by
  decide

theorem witness_GecompCompressesThePoint :
    (elemOfNat 7).val ≠ 0 ∧
    WellFormed (.gecomp 0#4 3#4) = true ∧ (withA [992, 993]).operand 0#4 + 32 ≤ 1024 ∧
    ((withA [992, 993]).coord 3#4 2#4).val = 0 ∧ (withPoints.coord 0#4 2#4).val ≠ 0 ∧
    WellFormed (.gecomp 1#4 3#4) = true ∧ (withA [992, 993]).operand 1#4 + 32 > 1024 := by decide +kernel

theorem witness_GesmbThenGecompIsIndependentOfTheDraw :
    (withA [0, 992]).operand 0#4 + 32 ≤ 1024 ∧ (withA [0, 992]).operand 1#4 + 32 ≤ 1024 := by decide +kernel

/-- The scalar 2^255 + 8 at 0, with zeros behind it; its reduction goes to 64 and the point to 96. -/
theorem witness_ReducedScalarGivesTheSamePoint :
    let s := withAB [0, 64, 96] 0 (bytes ([8] ++ List.replicate 30 0 ++ [0x80]))
    s.operand 0#4 + 32 ≤ 1024 ∧ s.operand 0#4 + 64 ≤ 1024 ∧ s.operand 1#4 + 32 ≤ 1024 ∧
    s.operand 2#4 + 32 ≤ 1024 ∧
    s.memRead (s.operand 0#4) 64 = s.memRead (s.operand 0#4) 32 ++ List.replicate 32 0#8 := by decide +kernel

/-! Base58 commands. -/

theorem witness_EncodeBlockWritesTheDigits :
    (∀ b ∈ [bytes [0xFF], List.replicate 8 0xFF#8], 1 ≤ b.length ∧ b.length ≤ 8) ∧
    encodeBlock (List.replicate 8 0xFF#8)
      = text ['j', 'p', 'X', 'C', 'Z', 'e', 'd', 'G', 'f', 'V', 'Q'] := by decide +kernel

/-- The greatest value that fits and the one above it; the character `0` has no digit. -/
theorem witness_DecodeGroupIsHornersRule :
    (text ['j', 'p', 'X', 'C', 'Z', 'e', 'd', 'G', 'f', 'V', 'Q']).map digit
      = [42, 47, 30, 11, 32, 37, 36, 15, 38, 28, 23].map some ∧
    [42, 47, 30, 11, 32, 37, 36, 15, 38, 28, 23].foldl (fun v x => v * 58 + x) 0 = 2 ^ 64 - 1 ∧
    (text ['j', 'p', 'X', 'C', 'Z', 'e', 'd', 'G', 'f', 'V', 'R']).map digit
      = [42, 47, 30, 11, 32, 37, 36, 15, 38, 28, 24].map some ∧
    [42, 47, 30, 11, 32, 37, 36, 15, 38, 28, 24].foldl (fun v x => v * 58 + x) 0 = 2 ^ 64 ∧
    digit 0x30#8 = none := by decide +kernel

/-- The lengths 1 and 8 and ranges that end with BUF; the lengths 0 and 9 and ranges one byte too far. -/
theorem witness_B58ebEncodesOneBlock :
    WellFormed (.b58eb 3#4 1#4 2#4) = true ∧
    (∀ l ∈ [[0, 1023, 1, 1022], [0, 1016, 8, 1013]],
      1 ≤ (withA l).operand 2#4 ∧ (withA l).operand 2#4 ≤ 8 ∧
      (withA l).operand 1#4 + (withA l).operand 2#4 ≤ 1024 ∧
      (withA l).operand 3#4 + encodedLength ((withA l).operand 2#4) ≤ 1024) ∧
    [[0, 0, 0, 0], [0, 0, 9, 0], [0, 1017, 8, 0], [0, 0, 8, 1014]].map
      (fun l => (record (exec (.b58eb 3#4 1#4 2#4) (withA l)))) = List.replicate 4 (some (0x71, 0x30312000)) := by
  decide +kernel

/-- Every clause: the source range first, a size with no decoding (0, 4, 12), a bad character, an
overflow, and the sizes 2 and 11 with the destination in range and one byte too far. -/
theorem witness_B58dbDecodesOneGroup :
    WellFormed (.b58db 2#4 0#4 1#4) = true ∧
    [[1021, 4, 0], [0, 0, 0], [0, 4, 0], [0, 12, 0], [0, 2, 0]].map
      (fun l => codeOf (exec (.b58db 2#4 0#4 1#4) (withA l))) = [some 7, some 2, some 2, some 2, some 1] ∧
    codeOf (exec (.b58db 2#4 0#4 1#4) (withAB [0, 11, 0] 0 (List.replicate 11 0x7A#8))) = some 3 ∧
    [[1022, 2, 1023], [1022, 2, 1024], [1013, 11, 1016], [1013, 11, 1017]].map
      (fun l => codeOf (exec (.b58db 2#4 0#4 1#4) (withAB l 1013 (List.replicate 11 0x31#8))))
      = [some 0, some 7, some 0, some 7] := by decide +kernel

/-- Nothing, a tail alone, a block alone, a block and a tail; then each range one byte too far. -/
theorem witness_B58encEncodesByBlocks :
    WellFormed (.b58enc 2#4 0#4 1#4) = true ∧
    [[1024, 0, 1024], [1023, 1, 1022], [1016, 8, 1013], [1015, 9, 1011]].map
      (fun l => output (exec (.b58enc 2#4 0#4 1#4) (withA l)) 0 0)
      = [some ([], 0, 0), some ([], 2, 0), some ([], 11, 0), some ([], 13, 0)] ∧
    [[1025, 0, 0], [1016, 9, 0], [0, 9, 1012]].map
      (fun l => codeOf (exec (.b58enc 2#4 0#4 1#4) (withA l))) = [some 7, some 7, some 7] := by decide +kernel

/-- Every clause: the source range, the sizes 1, 4, 8 and 12 mod 11, an error in the second group, and
lengths 0, 11 and 13 with the destination in range and one byte too far. -/
theorem witness_B58decDecodesByGroups :
    WellFormed (.b58dec 2#4 0#4 1#4) = true ∧
    [[1020, 5, 0], [0, 1, 0], [0, 4, 0], [0, 8, 0], [0, 12, 0]].map
      (fun l => codeOf (exec (.b58dec 2#4 0#4 1#4) (withA l))) = [some 7, some 2, some 2, some 2, some 2] ∧
    [[0, 13, 0], [0, 22, 0], [0, 11, 1016], [0, 11, 1017], [0, 0, 1024], [0, 0, 1025]].map
      (fun l => codeOf (exec (.b58dec 2#4 0#4 1#4) (withAB l 0 (List.replicate 11 0x31#8 ++ List.replicate 11 0x7A#8))))
      = [some 0, some 3, some 0, some 7, some 0, some 7] := by decide +kernel

/-- Nine bytes at 0, their text at 32, their decoding at 64. -/
theorem witness_Base58RoundTrip :
    let s := withA [0, 9, 32, 13, 64]
    s.operand 0#4 + s.operand 1#4 ≤ 1024 ∧
    s.operand 2#4 + (11 * (s.operand 1#4 / 8) + encodedLength (s.operand 1#4 % 8)) ≤ 1024 ∧
    s.operand 3#4 = 11 * (s.operand 1#4 / 8) + encodedLength (s.operand 1#4 % 8) ∧
    s.operand 4#4 + s.operand 1#4 ≤ 1024 := by decide +kernel

/-! Mnemonic commands. -/

/-- The two legal lengths and the illegal ones (0, 6, a range past BUF), and the language. -/
theorem witness_MnencWritesThePhrase :
    WellFormed (.mnenc 2#4 0#4 1#4 15#4) = true ∧ (15#4 : BitVec 4) ≠ 0#4 ∧
    (∀ l ∈ [[0, 4, 64], [1020, 4, 0], [0, 1024, 0]],
      (withA l).operand 1#4 ≠ 0 ∧ (withA l).operand 1#4 % 4 = 0 ∧
      (withA l).operand 0#4 + (withA l).operand 1#4 ≤ 1024) ∧
    [[0, 0, 64], [0, 6, 64], [1021, 4, 0]].map (fun l => codeOf (exec (.mnenc 2#4 0#4 1#4 0#4) (withA l)))
      = [some 7, some 7, some 7] := by decide +kernel

theorem witness_MnencRuleStoresPhraseUnderEveryConfiguration :
    let s := withAB [0, 8, 64] 0 (bytes [0x59, 0, 0, 0, 1, 2, 3, 4])
    s.operand 1#4 ≠ 0 ∧ s.operand 1#4 % 4 = 0 ∧ s.operand 0#4 + s.operand 1#4 ≤ 1024 ∧
    s.operand 2#4 + (encodePhrase T5 (s.memRead (s.operand 0#4) (s.operand 1#4))).length ≤ 1024 := by
  decide +kernel

/-- Every clause whatever the word list: the language, the source range, a count that is 0 mod 3, and one
word, which is a phrase of no bytes, with the destination in range and one byte too far. -/
theorem witness_MndecDecodesThePhrase :
    WellFormed (.mndec 2#4 0#4 1#4 1#4) = true ∧
    codeOf (exec (.mndec 2#4 0#4 1#4 1#4) (withA [0, 1, 0])) = some 6 ∧
    [[1024, 1, 0], [0, 0, 0], [0, 1, 1024], [0, 1, 1025]].map
      (fun l => codeOf (exec (.mndec 2#4 0#4 1#4 0#4) (withAB l 0 (text ['a'])))) = [some 7, some 2, some 0, some 7] ∧
    (splitWords ((withAB [0, 1, 0] 0 (text ['a'])).memRead 0 1)).length % 3 = 1 := by decide +kernel

/-- Four empty words: a count that is 1 mod 3, and a first triple that no word list decodes. -/
theorem witness_MndecDecodesThePhrase_triples :
    splitWords ((withAB [0, 3, 0] 0 (List.replicate 3 0x20#8)).memRead 0 3) = [[], [], [], []] ∧
    decodeTriple Config.english [] [] [] = .error .invalidMnemonic := by
  refine ⟨by decide +kernel, ?_⟩
  have h : lookupWord Config.english [] = none := by
    rw [lookupWord, List.findIdx?_eq_none_iff]
    intro x hx
    have hne := (Config.english.word_legal x hx).1
    have hp := Config.english.prefix_pos
    simp only [truncWord, List.take_nil, beq_eq_false_iff_ne, ne_eq, List.take_eq_nil_iff, not_or]
    exact ⟨by omega, hne⟩
  simp only [decodeTriple, h]

/-- T5 with `PREFIXLEN` 3: a word of the list by its prefix alone, one that is not in it, and the greatest
and the least triple. -/
theorem witness_DecodeTripleChecksLookupsThenRange :
    lookupWord T5 (text ['e', 'c', 'h', 'x']) = some 4 ∧ lookupWord T5 (text ['e', 'c']) = none ∧
    untriple T5 4 1 4 = 89 ∧ untriple T5 0 0 0 < 2 ^ 32 := by decide +kernel

/-- A text of one byte that ends BUF, one byte further, and the empty text. -/
theorem witness_MncsumReturnsTheChecksumIndex :
    WellFormed (.mncsum 3#4 0#4 1#4 15#4) = true ∧ (15#4 : BitVec 4) ≠ 0#4 ∧
    (withA [1023, 1]).operand 0#4 + (withA [1023, 1]).operand 1#4 ≤ 1024 ∧ (withA [1023, 1]).operand 1#4 ≠ 0 ∧
    (withA [1024, 1]).operand 0#4 + (withA [1024, 1]).operand 1#4 > 1024 ∧ (withA [0, 0]).operand 1#4 = 0 := by
  decide +kernel

theorem witness_LookupIsLeastIndex :
    lookupWord T5 (text ['c', 'h', 'a']) = some 2 ∧ (∃ x, T5.words[2]? = some x ∧
      x.take T5.prefixLen = (text ['c', 'h', 'a']).take T5.prefixLen) := ⟨by decide +kernel, _, rfl, by decide⟩

theorem witness_SplitAndJoinAreInverse :
    bytes [0x20, 0x61] ≠ [] ∧ [text ['a'], text ['b', 'c']] ≠ [] ∧
    (∀ w ∈ [text ['a'], text ['b', 'c']], w ≠ [] ∧ 0x20#8 ∉ w) := by decide

theorem witness_TripleAndUntripleAreInverse :
    triple T5 89 = (4, 1, 4) ∧ 4 < T5.size ∧ 1 < T5.size ∧ untriple T5 4 1 4 = 89 := by decide +kernel

theorem witness_ChecksumWordIsADataWord :
    bytes [0x59, 0, 0, 0] ≠ [] ∧ (bytes [0x59, 0, 0, 0]).length % 4 = 0 := by decide

/-- The two-byte words over 41 letters: 1681 of them, more than 1626. -/
def wideWords : List (List Byte) :=
  (List.range 1681).map (fun i => [BitVec.ofNat 8 (0x40 + i / 41), BitVec.ofNat 8 (0x40 + i % 41)])

theorem wideWords_legal : ∀ w ∈ wideWords, w ≠ [] ∧ 0x20#8 ∉ w := by
  intro w hw
  obtain ⟨i, hi, rfl⟩ := List.mem_map.1 hw
  have hi := List.mem_range.1 hi
  have ne : ∀ j < 41, (0x20#8 : Byte) ≠ BitVec.ofNat 8 (0x40 + j) := fun j hj e => by
    have := congrArg BitVec.toNat e
    simp only [BitVec.toNat_ofNat] at this
    omega
  refine ⟨by simp, ?_⟩
  simp only [List.mem_cons, List.not_mem_nil, or_false, not_or]
  exact ⟨ne _ (by omega), ne _ (by omega)⟩

/-- A configuration of 1681 words. -/
def wide : LangConfig where
  words := wideWords
  prefixLen := 2
  crc32 := crcIeee
  words_nonempty := by
    rw [← List.length_pos_iff_ne_nil, wideWords, List.length_map, List.length_range]
    decide
  word_legal := wideWords_legal
  prefix_pos := by decide

theorem witness_SeedToPhraseToSeed :
    wide.size ^ 3 ≥ 2 ^ 32 ∧ (wide.words.map (truncWord wide)).Nodup ∧
    List.replicate 8 0xFF#8 ≠ [] ∧ (List.replicate 8 0xFF#8).length % 4 = 0 := by
  have hs : wide.size = 1681 := by simp [LangConfig.size, wide, wideWords]
  refine ⟨by rw [hs]; decide, ?_, by decide, by decide⟩
  have e : wide.words.map (truncWord wide) = wideWords := by
    simp only [wide, wideWords, List.map_map]
    rfl
  rw [e]
  refine List.Nodup.map_on ?_ List.nodup_range
  intro i hi j hj h
  simp only [List.mem_range] at hi hj
  simp only [List.cons.injEq, and_true] at h
  have h1 := congrArg BitVec.toNat h.1
  have h2 := congrArg BitVec.toNat h.2
  simp only [BitVec.toNat_ofNat] at h1 h2
  omega

/-- A seed of 8 bytes at 0, its phrase of 20 bytes at 64, the seed again at 128. -/
theorem witness_MndecOfMnencReturnsTheSeed :
    let s := withAB [0, 8, 64, 128, 20] 0 (bytes [0xFF, 0xFF, 0xFF, 0xFF, 1, 0, 0, 0])
    s.operand 1#4 ≠ 0 ∧ s.operand 1#4 % 4 = 0 ∧ s.operand 0#4 + s.operand 1#4 ≤ 1024 ∧
    s.operand 2#4 + (encodePhrase wide (s.memRead (s.operand 0#4) (s.operand 1#4))).length ≤ 1024 ∧
    s.operand 4#4 = (encodePhrase wide (s.memRead (s.operand 0#4) (s.operand 1#4))).length ∧
    s.operand 3#4 + s.operand 1#4 ≤ 1024 := by decide +kernel

/-- A triple whose three words are in the list and that no 32-bit group encodes to. -/
theorem witness_DecodeTripleChecksLookupsThenRange_range :
    lookupWord wide (bytes [0x68, 0x68]) = some 1680 ∧ lookupWord wide (bytes [0x68, 0x67]) = some 1679 ∧
    lookupWord wide (bytes [0x68, 0x66]) = some 1678 ∧ untriple wide 1680 1679 1678 ≥ 2 ^ 32 := by decide +kernel

/-- R198's example: only the first three letters of a word count, and the last word is not looked at. -/
theorem witness_PhraseToSeedToPhrase :
    decodePhrase T5 (phrase [['e', 'c', 'h'], ['b', 'r', 'a'], ['e', 'c', 'h', 'o', 'e', 's'], ['b']])
      = .ok (bytes [0x59, 0, 0, 0]) := by decide +kernel

end Sys2Proof.Tests
end

section
/-! The field operations of `40_field.md` as arithmetic of `ZMod p`. -/

namespace Sys2Proof.Machine

open Sys2Proof.Laws (p_prime)

theorem elem_ext_cast {x y : Elem} (h : (x.val : ZMod p) = (y.val : ZMod p)) : x = y := by
  rw [ZMod.natCast_eq_natCast_iff', Nat.mod_eq_of_lt x.isLt, Nat.mod_eq_of_lt y.isLt] at h
  exact Fin.ext h

@[simp] theorem cast_elemOfNat (n : Nat) : ((elemOfNat n).val : ZMod p) = n := by
  rw [elemOfNat_val, ZMod.natCast_mod]

@[simp] theorem cast_fieldAdd (x y : Elem) : ((fieldAdd x y).val : ZMod p) = x.val + y.val := by
  rw [fieldAdd, cast_elemOfNat, Nat.cast_add]

@[simp] theorem cast_fieldSub (x y : Elem) : ((fieldSub x y).val : ZMod p) = x.val - y.val := by
  rw [fieldSub, cast_elemOfNat, Nat.cast_sub (by omega), Nat.cast_add, ZMod.natCast_self, add_zero]

@[simp] theorem cast_fieldMul (x y : Elem) : ((fieldMul x y).val : ZMod p) = x.val * y.val := by
  rw [fieldMul, cast_elemOfNat, Nat.cast_mul]

/-- `00_scope.md` R8: `z^(p-2)` is the inverse of `z`, by Fermat's little theorem, and 0 for `z = 0`. -/
@[simp] theorem cast_fieldInv (z : Elem) : ((fieldInv z).val : ZMod p) = (z.val : ZMod p)⁻¹ := by
  have := Fact.mk p_prime
  rw [fieldInv_val, ZMod.natCast_mod, Nat.cast_pow]
  by_cases hz : (z.val : ZMod p) = 0
  · rw [hz, inv_zero, zero_pow (by decide)]
  · refine eq_inv_of_mul_eq_one_left ?_
    rw [← pow_succ]
    exact ZMod.pow_card_sub_one_eq_one hz

end Sys2Proof.Machine
end

section
/-! The constants of the curve (`41_curve_scalar.md` R130, R131) meet the hypotheses of the group law. -/

namespace Sys2Proof.Machine

open Sys2Proof.Laws (p_prime)

theorem two_ne_zero_mod_p : (2 : ZMod p) ≠ 0 := by
  intro h
  have hdvd : p ∣ 2 := (ZMod.natCast_eq_zero_iff 2 p).1 (by exact_mod_cast h)
  exact absurd (Nat.le_of_dvd two_pos hdvd) (by decide)

/-- `p` is 1 modulo 4. -/
theorem exists_sq_eq_neg_one_mod_p : ∃ i : ZMod p, i ^ 2 = -1 := by
  have := Fact.mk p_prime
  obtain ⟨i, hi⟩ := ZMod.exists_sq_eq_neg_one_iff.2 (show p % 4 ≠ 3 by decide)
  exact ⟨i, by rw [sq, ← hi]⟩

/-- Euler's criterion at `d`: its power `(p - 1) / 2` is -1. -/
theorem curveD_pow_half : curveD.val ^ (p / 2) % p = p - 1 := by
  rw [← powModFuel_mod 64 curveD.val (p / 2) (by decide)]
  decide +kernel

theorem curveD_not_isSquare : ¬ IsSquare (curveD.val : ZMod p) := by
  have := Fact.mk p_prime
  have hpow : (curveD.val : ZMod p) ^ (p / 2) = -1 := by
    rw [← Nat.cast_pow, ← ZMod.natCast_mod, curveD_pow_half, Nat.cast_sub (by decide),
      ZMod.natCast_self, Nat.cast_one, zero_sub]
  have hd : (curveD.val : ZMod p) ≠ 0 := by
    intro h
    rw [h, zero_pow (by decide)] at hpow
    exact neg_ne_zero.2 one_ne_zero hpow.symm
  rw [ZMod.euler_criterion p hd, hpow]
  intro h
  exact two_ne_zero_mod_p (by linear_combination -h)

end Sys2Proof.Machine
end

section
/-! The points of the curve under `pointAdd` (`41_curve_scalar.md` R134), by the laws of `Sys2Proof.Laws.Edwards` in
`ZMod p`. -/

namespace Sys2Proof.Machine

open Sys2Proof.Laws Sys2Proof.Laws.Edwards

theorem Point.ext_cast {P Q : Point} (hx : (P.x.val : ZMod p) = Q.x.val) (hy : (P.y.val : ZMod p) = Q.y.val) :
    P = Q := by
  cases P
  cases Q
  congr
  · exact elem_ext_cast hx
  · exact elem_ext_cast hy

section
variable [Fact p.Prime]

theorem Point.onCurve_iff (P : Point) :
    P.onCurve = true ↔ On (curveD.val : ZMod p) P.x.val P.y.val := by
  have hcast : ∀ x y : Elem, x = y ↔ (x.val : ZMod p) = y.val :=
    fun x y => ⟨fun h => h ▸ rfl, elem_ext_cast⟩
  rw [Point.onCurve, decide_eq_true_iff, hcast, On]
  simp only [cast_fieldSub, cast_fieldAdd, cast_fieldMul, Nat.cast_one, sq, mul_assoc]

/-- The sum of R134, first coordinate, as the division it stands for. -/
theorem cast_pointAdd_x (P Q : Point) : ((pointAdd P Q).x.val : ZMod p)
    = sumX (curveD.val : ZMod p) P.x.val P.y.val Q.x.val Q.y.val := by
  simp only [pointAdd, sumX, cast_fieldAdd, cast_fieldMul, cast_fieldInv, Nat.cast_one, div_eq_mul_inv, mul_assoc]

/-- The sum of R134, second coordinate, as the division it stands for. -/
theorem cast_pointAdd_y (P Q : Point) : ((pointAdd P Q).y.val : ZMod p)
    = sumY (curveD.val : ZMod p) P.x.val P.y.val Q.x.val Q.y.val := by
  simp only [pointAdd, sumY, cast_fieldAdd, cast_fieldSub, cast_fieldMul, cast_fieldInv, Nat.cast_one,
    div_eq_mul_inv, mul_assoc]

end

theorem pointAdd_comm (P Q : Point) : pointAdd P Q = pointAdd Q P := by
  have := Fact.mk p_prime
  apply Point.ext_cast
  · rw [cast_pointAdd_x, cast_pointAdd_x, sumX_comm]
  · rw [cast_pointAdd_y, cast_pointAdd_y, sumY_comm]

@[simp] theorem pointAdd_neutral (P : Point) : pointAdd P neutral = P := by
  have := Fact.mk p_prime
  apply Point.ext_cast
  · rw [cast_pointAdd_x]
    simp [sumX, neutral]
  · rw [cast_pointAdd_y]
    simp [sumY, neutral]

@[simp] theorem neutral_onCurve : neutral.onCurve = true := by decide +kernel

/-- Sums of points of the curve lie on the curve (`41_curve_scalar.md` R130, R134). -/
theorem pointAdd_onCurve {P Q : Point} (hP : P.onCurve = true) (hQ : Q.onCurve = true) :
    (pointAdd P Q).onCurve = true := by
  have := Fact.mk p_prime
  obtain ⟨i, hi⟩ := exists_sq_eq_neg_one_mod_p
  rw [Point.onCurve_iff] at *
  rw [cast_pointAdd_x, cast_pointAdd_y]
  exact sum_on curveD_not_isSquare hi two_ne_zero_mod_p hP hQ

theorem pointAdd_assoc {P Q R : Point} (hP : P.onCurve = true) (hQ : Q.onCurve = true) (hR : R.onCurve = true) :
    pointAdd (pointAdd P Q) R = pointAdd P (pointAdd Q R) := by
  have := Fact.mk p_prime
  obtain ⟨i, hi⟩ := exists_sq_eq_neg_one_mod_p
  rw [Point.onCurve_iff] at hP hQ hR
  apply Point.ext_cast
  · simp only [cast_pointAdd_x, cast_pointAdd_y]
    exact sumX_assoc curveD_not_isSquare hi two_ne_zero_mod_p hP hQ hR
  · simp only [cast_pointAdd_x, cast_pointAdd_y]
    exact sumY_assoc curveD_not_isSquare hi two_ne_zero_mod_p hP hQ hR

end Sys2Proof.Machine
end

section
/-! `[k]P` (`00_scope.md` R8): repeated sums add up, and doubling computes them. -/

namespace Sys2Proof.Machine

@[simp] theorem repeatedSum_zero (P : Point) : repeatedSum P 0 = neutral := rfl

theorem repeatedSum_succ (P : Point) (k : Nat) : repeatedSum P (k + 1) = pointAdd (repeatedSum P k) P := rfl

theorem repeatedSum_onCurve {P : Point} (hP : P.onCurve = true) (k : Nat) : (repeatedSum P k).onCurve = true := by
  induction k with
  | zero => exact neutral_onCurve
  | succ k ih => exact pointAdd_onCurve ih hP

theorem repeatedSum_add {P : Point} (hP : P.onCurve = true) (m n : Nat) :
    repeatedSum P (m + n) = pointAdd (repeatedSum P m) (repeatedSum P n) := by
  induction n with
  | zero => rw [Nat.add_zero, repeatedSum_zero, pointAdd_neutral]
  | succ n ih =>
    rw [← Nat.add_assoc, repeatedSum_succ, ih, repeatedSum_succ,
      pointAdd_assoc (repeatedSum_onCurve hP m) (repeatedSum_onCurve hP n) hP]

/-- One bit of `k` a round, as the definition says: with `fuel` bits the doubling computes the repeated sum. -/
theorem scalarMulFuel_eq_repeatedSum {P : Point} (hP : P.onCurve = true) (fuel k : Nat) (hk : k < 2 ^ fuel) :
    scalarMulFuel fuel k P = repeatedSum P k := by
  induction fuel generalizing k with
  | zero =>
    obtain rfl : k = 0 := by simpa using hk
    rfl
  | succ fuel ih =>
    rw [scalarMulFuel]
    dsimp only
    split
    · next h0 => rw [h0, repeatedSum_zero]
    · have hhalf : k / 2 < 2 ^ fuel := by rw [pow_succ] at hk; omega
      rw [ih _ hhalf, ← repeatedSum_add hP]
      split
      · next hodd =>
        rw [← repeatedSum_succ]
        congr 1
        omega
      · congr 1
        omega

/-- Settles O36, by induction on the bits of `k`: a doubling joins two repeated sums into one
(`repeatedSum_add`), since the addition is associative on the curve. -/
theorem scalarMulIsRepeatedAddition : Obligations.ScalarMulIsRepeatedAddition := by
  unfold Obligations.ScalarMulIsRepeatedAddition
  intro P k hP
  exact scalarMulFuel_eq_repeatedSum hP k k Nat.lt_two_pow_self

end Sys2Proof.Machine
end

section
/-! The unit's state after reset, and what its accessors say of it (`10_state.md` R22, R26, R40). -/

namespace Sys2Proof.Machine

theorem State.reset_unitIsZero : State.reset.UnitIsZero :=
  ⟨fun i => by rw [State.readF_reset]; rfl, State.readA_reset, State.byte_reset, rfl, rfl, rfl, rfl⟩

/-- The unit's side of a state after `rst` is that of the reset state. -/
theorem State.resetUnit_unitIsZero (s : State) : s.resetUnit.UnitIsZero := State.reset_unitIsZero

/-- Settles O1: a step whose move is `rst` ends in `resetUnit`. -/
theorem resetZeroesTheUnit : Obligations.ResetZeroesTheUnit := by
  unfold Obligations.ResetZeroesTheUnit
  refine ⟨State.reset_unitIsZero, fun s rest h => ?_⟩
  exact ⟨_, step_of_move s h, State.resetUnit_unitIsZero _, rfl, rfl⟩

/-- The bits of STATUS do not overlap: each part is shifted above the greatest value of the parts below it. -/
theorem State.status_toNat (s : State) : s.status.toNat = s.err.toNat + 16 * s.ecode.toNat := by
  have hflag : s.err.toNat < 2 ^ 1 := Bool.toNat_lt s.err
  rw [State.status, BitVec.toNat_append, BitVec.toNat_append, BitVec.toNat_append, BitVec.toNat_ofBool,
    BitVec.toNat_zero, BitVec.toNat_zero, Nat.zero_shiftLeft, Nat.zero_or, Nat.or_zero,
    ← Nat.shiftLeft_add_eq_or_of_lt hflag, Nat.shiftLeft_eq, Nat.shiftLeft_eq]
  omega

/-- Settles O15, by the value of the STATUS word. -/
theorem statusWordHoldsFlagAndCode : Obligations.StatusWordHoldsFlagAndCode := by
  unfold Obligations.StatusWordHoldsFlagAndCode
  exact State.status_toNat

/-- `10_state.md` R22, in numbers. -/
theorem coordIndex_ofNat {k : Nat} (j : Nat) (hk : k < 4) :
    coordIndex (BitVec.ofNat 4 k) (BitVec.ofNat 4 j) = BitVec.ofNat 4 (4 * k + j) := by
  rw [coordIndex_eq, BitVec.toNat_ofNat, Nat.mod_eq_of_lt (by omega)]

/-- Settles O32: a coordinate is read through `coordIndex`, the number of its field register. -/
theorem pointRegistersAliasFieldRegisters : Obligations.PointRegistersAliasFieldRegisters := by
  unfold Obligations.PointRegistersAliasFieldRegisters
  intro s k j v hk _
  simp only [State.coord, coordIndex_ofNat j hk, State.readF_writeF_same, and_self]

end Sys2Proof.Machine
end

section
/-! Which command writes which kind of state (`10_state.md` R21, R23, R28). -/

namespace Sys2Proof.Machine

/-- Settles O17, by what the next state of a command can be (`exec_next_cases`): each shape writes one kind of
state, and only a command listed for that kind has it. -/
theorem onlyListedCommandsWriteEachKindOfState : Obligations.OnlyListedCommandsWriteEachKindOfState := by
  unfold Obligations.OnlyListedCommandsWriteEachKindOfState
  intro i s t h
  obtain ⟨e, -, rfl⟩ | ⟨hwrites, n, f, rfl⟩ | ⟨hwrites, r, v, rfl⟩ | ⟨hwrites, x, out, -, rfl⟩ | ⟨-, rfl⟩ :=
    exec_next_cases s h
  case inl =>
    exact ⟨fun _ _ => rfl, fun _ _ => rfl, fun _ => ⟨fun _ => rfl, rfl⟩, rfl, rfl⟩
  case inr.inl =>
    exact ⟨fun hnot => absurd hwrites (ne_true_of_eq_false hnot), fun _ _ => rfl,
      fun _ => ⟨fun _ => rfl, rfl⟩, rfl, rfl⟩
  case inr.inr.inl =>
    exact ⟨fun _ _ => rfl, fun hnot => absurd hwrites (ne_true_of_eq_false hnot),
      fun _ => ⟨fun _ => rfl, rfl⟩, rfl, rfl⟩
  case inr.inr.inr.inl =>
    exact ⟨fun _ _ => rfl, fun _ _ => rfl, fun hnot => absurd hwrites (ne_true_of_eq_false hnot), rfl, rfl⟩
  case inr.inr.inr.inr =>
    exact ⟨fun _ _ => rfl, fun _ _ => rfl, fun _ => ⟨fun _ => rfl, rfl⟩, rfl, rfl⟩

end Sys2Proof.Machine
end

section
/-! What the next state of each layer of the step can be: a command word, a word write, a move of the host. -/

namespace Sys2Proof.Machine

variable {s t : State}

/-- `60_exceptions.md` R230: a command word is skipped, is illegal, or runs a command. -/
theorem issue_next_cases {w : Word} (h : issue w s = .next t) :
    t = s ∨ t = s.enter .illegalCommand w ∨ ∃ i, exec i s = .next t := by
  unfold issue at h
  split at h
  · split at h
    · exact .inr (.inr ⟨_, h⟩)
    · exact .inl (Host.Outcome.next.inj h).symm
  · split at h
    · exact .inr (.inl (Host.Outcome.next.inj h).symm)
    · exact .inr (.inr ⟨_, h⟩)

/-- `20_memory.md` R60, R62: a word write to an aligned offset issues a command, stores four bytes inside BUF, or
is ignored. -/
theorem busWrite_next_cases {offset : BitVec 11} {w : Word} (haligned : offset.toNat % 4 = 0)
    (h : busWrite offset w s = .next t) :
    issue w s = .next t ∨ (∃ x, inBuf x 4 ∧ t = s.memWrite x (toLE w.toNat 4)) ∨ t = s := by
  have hoffset := offset.isLt
  dsimp only [busWrite] at h
  split at h
  · exact .inl h
  · split at h
    · have hfits : offset.toNat - 0x400 + 4 ≤ 1024 := by omega
      exact .inr (.inl ⟨offset.toNat - 0x400, hfits, (Host.Outcome.next.inj h).symm⟩)
    · exact .inr (.inr (Host.Outcome.next.inj h).symm)

/-- `20_memory.md` R61: an access that is not refused is aligned. -/
theorem checkAccess_next {size : AccessSize} {offset : BitVec 11} {k : Host.Outcome State Fault Refusal}
    (h : checkAccess size offset k = .next t) : offset.toNat % 4 = 0 ∧ k = .next t := by
  unfold checkAccess at h
  split at h
  · cases h
  · split at h
    · cases h
    · next haligned => exact ⟨not_not.1 haligned, h⟩

end Sys2Proof.Machine
end

section
/-! The invariant of the machine holds after reset and is kept by every step (`10_state.md` R26 to R30, R40). -/

namespace Sys2Proof.Machine

variable {s t : State}

/-- `60_exceptions.md` R234: the codes of the error kinds are 1 to 8. -/
theorem ErrKind.code_range (e : ErrKind) : 1 ≤ e.code.toNat ∧ e.code.toNat ≤ 8 := by
  cases e <;> decide

theorem State.reset_inv : State.reset.Inv :=
  ⟨reset_buf_wf, fun _ => ⟨rfl, rfl⟩, nofun, Nat.zero_le _⟩

/-- Settles O2, the base case of O3. -/
theorem resetStateMeetsInvariant : Obligations.ResetStateMeetsInvariant := by
  unfold Obligations.ResetStateMeetsInvariant
  exact State.reset_inv

/-! The invariant speaks of BUF, the error record and OLEN only, so the operations that write one of these are the
ones with something to keep. -/

theorem State.Inv.enter (h : s.Inv) (e : ErrKind) (w : Word) : (s.enter e w).Inv := by
  obtain ⟨hbuf, -, -, holen⟩ := h
  exact ⟨hbuf, nofun, fun _ => e.code_range, holen⟩

theorem State.Inv.clearError (h : s.Inv) : s.clearError.Inv := by
  obtain ⟨hbuf, -, -, holen⟩ := h
  exact ⟨hbuf, fun _ => ⟨rfl, rfl⟩, nofun, holen⟩

theorem State.Inv.memWrite (h : s.Inv) {x : Nat} {bs : List Byte} (hfits : inBuf x bs.length) :
    (s.memWrite x bs).Inv := by
  obtain ⟨hbuf, hclear, hset, holen⟩ := h
  exact ⟨bufWriteBytes_wf s.buf x bs hbuf hfits, hclear, hset, holen⟩

theorem State.Inv.setOlen (h : s.Inv) {n : Nat} (hn : n ≤ bufSize) : (s.setOlen n).Inv := by
  obtain ⟨hbuf, hclear, hset, -⟩ := h
  refine ⟨hbuf, hclear, hset, ?_⟩
  rw [State.setOlen_olen, BitVec.toNat_ofNat]
  exact (Nat.mod_le n _).trans hn

/-- Every command keeps the invariant, whatever it writes or raises. -/
theorem exec_keeps_inv {i : Instr} (hs : s.Inv) (h : exec i s = .next t) : t.Inv := by
  obtain ⟨e, -, rfl⟩ | ⟨-, n, f, rfl⟩ | ⟨-, r, v, rfl⟩ | ⟨-, x, out, hfits, rfl⟩ | ⟨-, rfl⟩ := exec_next_cases s h
  case inl => exact hs.enter e _
  case inr.inl => exact hs
  case inr.inr.inl => exact hs
  case inr.inr.inr.inl => exact (hs.memWrite hfits).setOlen ((Nat.le_add_left _ _).trans hfits)
  case inr.inr.inr.inr => exact hs.clearError

theorem issue_keeps_inv {w : Word} (hs : s.Inv) (h : issue w s = .next t) : t.Inv := by
  obtain rfl | rfl | ⟨i, h⟩ := issue_next_cases h
  · exact hs
  · exact hs.enter _ _
  · exact exec_keeps_inv hs h

theorem busWrite_keeps_inv {offset : BitVec 11} {w : Word} (hs : s.Inv) (haligned : offset.toNat % 4 = 0)
    (h : busWrite offset w s = .next t) : t.Inv := by
  obtain h | ⟨x, hfits, rfl⟩ | rfl := busWrite_next_cases haligned h
  · exact issue_keeps_inv hs h
  · exact hs.memWrite (by rwa [toLE_length])
  · exact hs

theorem hostStep_keeps_inv {m : HostMove} (hs : s.Inv) (h : hostStep m s = .next t) : t.Inv := by
  cases m with
  | write size offset w =>
    obtain ⟨haligned, h⟩ := checkAccess_next h
    exact busWrite_keeps_inv hs haligned h
  | read size offset =>
    obtain ⟨-, h⟩ := checkAccess_next h
    cases h
    exact hs
  | reset =>
    cases h
    exact State.reset_inv

/-- Settles O3: without a move the unit is idle, and every move of the host keeps the invariant. -/
theorem stepKeepsInvariant : Obligations.StepKeepsInvariant := by
  unfold Obligations.StepKeepsInvariant
  intro s t hs h
  cases hmoves : s.moves with
  | nil =>
    rw [step, nextMove, hmoves] at h
    cases h
    exact hs
  | cons m rest =>
    rw [step_of_move s hmoves] at h
    exact hostStep_keeps_inv (s := { s with moves := rest }) hs h

end Sys2Proof.Machine
end

section
/-! What a step of the host's bus does at each offset of the bus map (`20_memory.md` R60 to R62). -/

namespace Sys2Proof.Machine

variable {s : State} {rest : List HostMove}

/-! Which access is answered, and which is refused (`20_memory.md` R61). -/

theorem checkAccess_subWord {size : AccessSize} {offset : BitVec 11} (k : Host.Outcome State Fault Refusal)
    (h : size ≠ .word) : checkAccess size offset k = .refused .subWordAccess := by
  rw [checkAccess, if_pos h]

theorem checkAccess_misaligned {offset : BitVec 11} (k : Host.Outcome State Fault Refusal)
    (h : offset.toNat % 4 ≠ 0) : checkAccess .word offset k = .refused .misalignedAccess := by
  rw [checkAccess, if_neg (not_not.2 rfl), if_pos h]

/-- A step that faces an access of the host is the check of that access, whatever would follow it. -/
theorem step_checks_access {size : AccessSize} {offset : BitVec 11} {w : Word}
    (h : s.moves = .write size offset w :: rest ∨ s.moves = .read size offset :: rest) :
    ∃ k, step s = checkAccess size offset k := by
  obtain h | h := h
  · exact ⟨_, step_of_move s h⟩
  · exact ⟨_, step_of_move s h⟩

/-- Settles O21: the step is the check of the access, which refuses by the size first. -/
theorem subWordAndMisalignedAccessesAreRefused : Obligations.SubWordAndMisalignedAccessesAreRefused := by
  unfold Obligations.SubWordAndMisalignedAccessesAreRefused
  intro s size offset w rest h
  obtain ⟨k, hstep⟩ := step_checks_access h
  rw [hstep]
  refine ⟨checkAccess_subWord k, ?_⟩
  rintro rfl hoffset
  exact checkAccess_misaligned k hoffset

theorem step_of_aligned_write {x : Nat} {w : Word} (haligned : x % 4 = 0) (hx : x < 0x800)
    (h : s.moves = .write .word (BitVec.ofNat 11 x) w :: rest) :
    step s = busWrite (BitVec.ofNat 11 x) w { s with moves := rest } := by
  rw [step_of_move s h, hostStep, checkAccess_aligned _ (by rwa [offset_toNat hx])]

theorem step_of_aligned_read {x : Nat} (haligned : x % 4 = 0) (hx : x < 0x800)
    (h : s.moves = .read .word (BitVec.ofNat 11 x) :: rest) :
    step s = .next { s with
      moves := rest, replies := busRead (BitVec.ofNat 11 x) { s with moves := rest } :: s.replies } := by
  rw [step_of_move s h, hostStep, checkAccess_aligned _ (by rwa [offset_toNat hx])]

/-! Word writes. -/

theorem busWrite_ignored {x : Nat} (w : Word) (hlo : 0x004 ≤ x) (hhi : x < 0x400) :
    busWrite (BitVec.ofNat 11 x) w s = .next s := by
  simp only [busWrite, offset_toNat (show x < 0x800 by omega)]
  rw [if_neg (by omega), if_neg (by omega)]

theorem busWrite_window {x : Nat} (w : Word) (hx : x < 0x400) :
    busWrite (BitVec.ofNat 11 (0x400 + x)) w s = .next (s.memWrite x (toLE w.toNat 4)) := by
  simp only [busWrite, offset_toNat (show 0x400 + x < 0x800 by omega)]
  rw [if_neg (by omega), if_pos (by omega), Nat.add_sub_cancel_left]

/-- Settles O20: the write is answered by `busWrite`, which ignores the offset. -/
theorem writesToReadOnlyOffsetsAreIgnored : Obligations.WritesToReadOnlyOffsetsAreIgnored := by
  unfold Obligations.WritesToReadOnlyOffsetsAreIgnored
  intro s x w rest haligned hlo hhi h
  rw [step_of_aligned_write haligned (by omega) h, busWrite_ignored w hlo hhi]

/-- `20_memory.md` R62: byte lane `i` of a word written to the window is bits `8i+7 : 8i` of the word. -/
theorem byte_memWrite_word (s : State) (x : Nat) (w : Word) {i : Nat} (hi : i < 4) :
    (s.memWrite x (toLE w.toNat 4)).byte (x + i) = w.extractLsb' (8 * i) 8 := by
  rw [State.byte_memWrite, toLE_length, if_pos (by omega), Nat.add_sub_cancel_left, List.getD_eq_getElem?_getD,
    toLE_getElem? _ _ _ hi, Option.getD_some]
  have hweight : 2 ^ (8 * i) = 256 ^ i := pow_mul 2 8 i
  apply BitVec.eq_of_toNat_eq
  rw [BitVec.extractLsb'_toNat, BitVec.toNat_ofNat, Nat.shiftRight_eq_div_pow, hweight]

/-- A store of bytes leaves everything but their range. -/
theorem State.memWrite_onlyBuffer (s : State) (x : Nat) (bs : List Byte) :
    OnlyBuffer x bs.length s (s.memWrite x bs) :=
  ⟨fun y hy => s.byte_memWrite_outside x y bs hy, fun _ => rfl, fun _ => rfl, ⟨rfl, rfl, rfl⟩, rfl, rfl, rfl⟩

/-- Settles O18: the write is a store of the word's four bytes, the lowest first. -/
theorem windowWriteStoresFourBytes : Obligations.WindowWriteStoresFourBytes := by
  unfold Obligations.WindowWriteStoresFourBytes
  intro s k w rest hk h
  have hstep := step_of_aligned_write (by omega) (by omega) h
  rw [busWrite_window w (by omega)] at hstep
  have hframe := State.memWrite_onlyBuffer { s with moves := rest } (4 * k) (toLE w.toNat 4)
  rw [toLE_length] at hframe
  have hlane := fun i hi => byte_memWrite_word { s with moves := rest } (4 * k) w (i := i) hi
  exact ⟨_, hstep, hlane 0 (by decide), hlane 1 (by decide), hlane 2 (by decide), hlane 3 (by decide), rfl, hframe⟩

/-! Word reads. -/

theorem busRead_status : busRead 0x004#11 s = s.status := rfl

theorem busRead_ecmd : busRead 0x008#11 s = s.ecmd := rfl

theorem busRead_olen : busRead 0x00C#11 s = s.olen.setWidth 32 := rfl

/-- CMD and the reserved offsets read 0. -/
theorem busRead_reserved {x : Nat} (h : x = 0x000 ∨ (0x010 ≤ x ∧ x < 0x020) ∨ (0x040 ≤ x ∧ x < 0x400)) :
    busRead (BitVec.ofNat 11 x) s = 0#32 := by
  simp only [busRead, offset_toNat (show x < 0x800 by omega)]
  rw [if_neg (by omega), if_neg (by omega), if_neg (by omega), if_neg (by omega), if_neg (by omega)]

theorem busRead_operandReg {i : Nat} (hi : i < 8) :
    busRead (BitVec.ofNat 11 (0x020 + 4 * i)) s = (s.readA (BitVec.ofNat 4 i)).setWidth 32 := by
  have hindex : (0x020 + 4 * i - 0x020) / 4 = i := by omega
  simp only [busRead, offset_toNat (show 0x020 + 4 * i < 0x800 by omega)]
  rw [if_neg (by omega), if_neg (by omega), if_neg (by omega), if_pos (by omega), hindex]

theorem busRead_window {x : Nat} (hx : x < 0x400) :
    busRead (BitVec.ofNat 11 (0x400 + x)) s = BitVec.ofNat 32 (le (s.memRead x 4)) := by
  simp only [busRead, offset_toNat (show 0x400 + x < 0x800 by omega)]
  rw [if_neg (by omega), if_neg (by omega), if_neg (by omega), if_neg (by omega), if_pos (by omega),
    Nat.add_sub_cancel_left]

/-- `20_memory.md` R62: the four bytes of a word of the window, each at its weight. -/
theorem le_memRead_four (s : State) (x : Nat) :
    le (s.memRead x 4) = (s.byte x).toNat + 2 ^ 8 * (s.byte (x + 1)).toNat
      + 2 ^ 16 * (s.byte (x + 2)).toNat + 2 ^ 24 * (s.byte (x + 3)).toNat := by
  have hbytes : s.memRead x 4 = [s.byte x, s.byte (x + 1), s.byte (x + 2), s.byte (x + 3)] := rfl
  rw [hbytes]
  simp only [le]
  ring

theorem toNat_busRead_window {x : Nat} (hx : x < 0x400) :
    (busRead (BitVec.ofNat 11 (0x400 + x)) s).toNat = (s.byte x).toNat + 2 ^ 8 * (s.byte (x + 1)).toNat
      + 2 ^ 16 * (s.byte (x + 2)).toNat + 2 ^ 24 * (s.byte (x + 3)).toNat := by
  have hlt : le (s.memRead x 4) < 2 ^ 32 := by simpa using le_lt (s.memRead x 4)
  rw [busRead_window hx, BitVec.toNat_ofNat, Nat.mod_eq_of_lt hlt, le_memRead_four]

/-- Settles O19: the value read is `busRead`'s, one lemma per range of the bus map. -/
theorem busReadsFollowTheBusMap : Obligations.BusReadsFollowTheBusMap := by
  unfold Obligations.BusReadsFollowTheBusMap
  intro s x rest haligned hx h
  refine ⟨_, step_of_aligned_read haligned hx h, ?cmd, ?status, ?ecmd, ?olen, ?below, ?operandReg, ?above, ?window⟩
  case cmd => exact fun h0 => busRead_reserved (.inl h0)
  case status => rintro rfl; exact busRead_status
  case ecmd => rintro rfl; exact busRead_ecmd
  case olen => rintro rfl; rw [busRead_olen]; exact BitVec.toNat_setWidth_of_le (by decide)
  case below => exact fun hlo hhi => busRead_reserved (.inr (.inl ⟨hlo, hhi⟩))
  case operandReg => rintro i hi rfl; rw [busRead_operandReg hi]; exact BitVec.toNat_setWidth_of_le (by decide)
  case above => exact fun hlo hhi => busRead_reserved (.inr (.inr ⟨hlo, hhi⟩))
  case window => rintro k hk rfl; exact toNat_busRead_window (by omega)

end Sys2Proof.Machine
end

section
/-! The error record after a command (`20_memory.md` R57, `60_exceptions.md` R233). -/

namespace Sys2Proof.Machine

/-- A run to the end of a command puts no error on record. -/
theorem RunShape.err_eq_false {i : Instr} {s t : State} (h : RunShape i s (.ok t)) (hs : s.err = false) :
    t.err = false := by
  obtain ⟨-, n, f, rfl⟩ | ⟨-, r, v, rfl⟩ | ⟨-, x, out, -, rfl⟩ | ⟨-, rfl⟩ := h
  · exact hs
  · exact hs
  · exact hs
  · rfl

/-- Settles O16: a command that puts an error on record has not run to its end, so it has only entered that
error. -/
theorem failingCommandWritesOnlyTheRecord : Obligations.FailingCommandWritesOnlyTheRecord := by
  unfold Obligations.FailingCommandWritesOnlyTheRecord
  intro i s t h hs ht
  obtain ⟨e, he, rfl⟩ | hrun := exec_next_cases s h
  · exact ⟨e, he, s.enter_entersError e _⟩
  · exact absurd ht (ne_true_of_eq_false (hrun.err_eq_false hs))

end Sys2Proof.Machine
end

section
/-! The decoder as a relation between words and rows of the opcode map (`30_encoding.md` R85, R90). -/

namespace Sys2Proof

open Sys2Proof.Machine

/-! The fields of a word that matches a row: a word is held to `encZ op` under the mask of the row. -/

section
variable {w mask : Word} {op : BitVec 8}

/-- Below the opcode, the bits of a matching word under the mask are zero. -/
theorem extract_and_of_match (h : w &&& mask = encZ op) {start len : Nat} (hfit : start + len ≤ 24) :
    w.extractLsb' start len &&& mask.extractLsb' start len = 0#len := by
  rw [← BitVec.extractLsb'_and, h, encZ, BitVec.extractLsb'_append_eq_of_add_le hfit, BitVec.extractLsb'_zero]

/-- Must-be-zero bits, which the mask covers, are zero in a matching word. -/
theorem extract_eq_zero_of_match (h : w &&& mask = encZ op) {start len : Nat} (hfit : start + len ≤ 24)
    (hmask : mask.extractLsb' start len = BitVec.allOnes len) : w.extractLsb' start len = 0#len := by
  rw [← extract_and_of_match h hfit, hmask, BitVec.and_allOnes]

theorem opField_encZ : opField (encZ op) = op := by
  rw [opField, encZ, BitVec.extractLsb'_append_eq_left]

/-- A word that matches under a mask which covers the top byte has the opcode of the match. -/
theorem opField_of_match (h : w &&& mask = encZ op) (hmask : opField mask = BitVec.allOnes 8) : opField w = op := by
  have hop : opField w &&& opField mask = op := by
    rw [opField, opField, ← BitVec.extractLsb'_and, h]
    exact opField_encZ
  rwa [hmask, BitVec.and_allOnes] at hop

end

/-! A word is put together again from its fields. -/

theorem encR_fields {w : Word} (hlow : w.extractLsb' 0 12 = 0#12) :
    encR (opField w) (rdField w) (rs1Field w) (rs2Field w) = w := by
  rw [encR, ← hlow, opField, rdField, rs1Field, rs2Field]
  simp (disch := decide) only [BitVec.extractLsb'_append_extractLsb'_eq_extractLsb', BitVec.extractLsb'_eq_self]

theorem encM_fields {w : Word} (hlow : w.extractLsb' 0 8 = 0#8) :
    encM (opField w) (rdField w) (rs1Field w) (rs2Field w) (langField w) = w := by
  rw [encM, ← hlow, opField, rdField, rs1Field, rs2Field, langField]
  simp (disch := decide) only [BitVec.extractLsb'_append_extractLsb'_eq_extractLsb', BitVec.extractLsb'_eq_self]

theorem encI_fields {w : Word} (hrs1 : rs1Field w = 0#4) : encI (opField w) (rdField w) (immField w) = w := by
  rw [encI, ← hrs1, opField, rdField, rs1Field, immField]
  simp (disch := decide) only [BitVec.extractLsb'_append_extractLsb'_eq_extractLsb', BitVec.extractLsb'_eq_self]

/-! The rows of the opcode map. -/

section
variable (op : BitVec 8) (pattern mask w : Word)

@[simp] theorem row2_build (mk : RegField → RegField → Instr) :
    (row2 op pattern mask mk).build w = mk (rdField w) (rs1Field w) := rfl

@[simp] theorem row3_build (mk : RegField → RegField → RegField → Instr) :
    (row3 op pattern mask mk).build w = mk (rdField w) (rs1Field w) (rs2Field w) := rfl

@[simp] theorem rowM_build (mk : RegField → RegField → RegField → BitVec 4 → Instr) :
    (rowM op pattern mask mk).build w = mk (rdField w) (rs1Field w) (rs2Field w) (langField w) := rfl

end

theorem opcodePatterns_eq : opcodePatterns = opcodeRows.map (fun r => (r.pattern, r.mask)) := rfl

theorem opcodeRows_op_nodup : (opcodeRows.map OpcodeRow.op).Nodup := by decide

theorem opcodeRow_pattern : ∀ r ∈ opcodeRows, r.pattern = encZ r.op := by decide

theorem opcodeRow_mask_op : ∀ r ∈ opcodeRows, opField r.mask = BitVec.allOnes 8 := by decide

/-- The rows are told apart by their opcodes. -/
theorem opcodeRow_eq_of_op_eq {r₁ r₂ : OpcodeRow} (h₁ : r₁ ∈ opcodeRows) (h₂ : r₂ ∈ opcodeRows)
    (hop : r₁.op = r₂.op) : r₁ = r₂ :=
  List.inj_on_of_nodup_map opcodeRows_op_nodup h₁ h₂ hop

/-- A word matches a row only if it has the row's opcode. -/
theorem opField_of_row_match {w : Word} {r : OpcodeRow} (hr : r ∈ opcodeRows) (h : w &&& r.mask = r.pattern) :
    opField w = r.op :=
  opField_of_match (h.trans (opcodeRow_pattern r hr)) (opcodeRow_mask_op r hr)

/-- R90's search by opcode finds the row itself. -/
theorem find?_opcodeRow {r : OpcodeRow} (hr : r ∈ opcodeRows) :
    opcodeRows.find? (fun q => q.op == r.op) = some r := by
  have hsome : (opcodeRows.find? (fun q => q.op == r.op)).isSome :=
    List.find?_isSome.2 ⟨r, hr, beq_self_eq_true r.op⟩
  obtain ⟨r', hfind⟩ := Option.isSome_iff_exists.1 hsome
  have hop : r'.op = r.op := by simpa using List.find?_some hfind
  rw [hfind, opcodeRow_eq_of_op_eq (List.mem_of_find?_eq_some hfind) hr hop]

/-- `30_encoding.md` R90: a word is decoded by the row it matches. -/
theorem decode_of_row_match {w : Word} {r : OpcodeRow} (hr : r ∈ opcodeRows) (h : w &&& r.mask = r.pattern) :
    decode w = .ok (r.build w) := by
  simp only [decode, opField_of_row_match hr h, find?_opcodeRow hr, if_pos h]

theorem decode_eq_ok_iff {w : Word} {i : Instr} :
    decode w = .ok i ↔ ∃ r ∈ opcodeRows, w &&& r.mask = r.pattern ∧ r.build w = i := by
  constructor
  · intro h
    unfold decode at h
    split at h
    · cases h
    · next r hfind =>
      split at h
      · next hmatch => exact ⟨r, List.mem_of_find?_eq_some hfind, hmatch, Except.ok.inj h⟩
      · cases h
  · rintro ⟨r, hr, hmatch, rfl⟩
    exact decode_of_row_match hr hmatch

end Sys2Proof
end

section
/-! Encoding after decoding and decoding after encoding (`30_encoding.md` R81 to R90). -/

namespace Sys2Proof

open Sys2Proof.Laws Sys2Proof.Machine

/-! From a command to its word and back. -/

/-- `30_encoding.md` R85: the word of a well-formed command matches the command's own row. -/
theorem encode_matches_row (i : Instr) : RowMatch.Statement i := by
  cases i with
  | lda rd imm => exact RowMatch.lda rd imm
  | errclr => exact RowMatch.errclr
  | fld rd rs1 => exact RowMatch.fld rd rs1
  | fst rd rs1 => exact RowMatch.fst rd rs1
  | fadd rd rs1 rs2 => exact RowMatch.fadd rd rs1 rs2
  | fsub rd rs1 rs2 => exact RowMatch.fsub rd rs1 rs2
  | fmul rd rs1 rs2 => exact RowMatch.fmul rd rs1 rs2
  | fsq rd rs1 => exact RowMatch.fsq rd rs1
  | scred rd rs1 => exact RowMatch.scred rd rs1
  | scclamp rs1 => exact RowMatch.scclamp rs1
  | gesmb rd rs1 => exact RowMatch.gesmb rd rs1
  | gep3p2 rd rs1 => exact RowMatch.gep3p2 rd rs1
  | gecomp rd rs1 => exact RowMatch.gecomp rd rs1
  | b58eb rd rs1 rs2 => exact RowMatch.b58eb rd rs1 rs2
  | b58db rd rs1 rs2 => exact RowMatch.b58db rd rs1 rs2
  | b58enc rd rs1 rs2 => exact RowMatch.b58enc rd rs1 rs2
  | b58dec rd rs1 rs2 => exact RowMatch.b58dec rd rs1 rs2
  | mnenc rd rs1 rs2 lang => exact RowMatch.mnenc rd rs1 rs2 lang
  | mndec rd rs1 rs2 lang => exact RowMatch.mndec rd rs1 rs2 lang
  | mncsum rd rs1 rs2 lang => exact RowMatch.mncsum rd rs1 rs2 lang

/-- The row of a command reads the command's operands from the fields they are encoded in. -/
theorem build_encode (i : Instr) :
    ∃ r, opcodeRows[RowMatch.rowIndex i]? = some r ∧ r.build (encode i) = i := by
  cases i <;> exact ⟨_, rfl, by simp [encode]⟩

/-- Settles O4: the word matches the command's row (`encode_matches_row`), so the decoder takes that row, which
reads the operands back (`build_encode`). -/
theorem decodeOfEncodeIsIdentity : Obligations.DecodeOfEncodeIsIdentity := by
  unfold Obligations.DecodeOfEncodeIsIdentity
  intro i hwf
  obtain ⟨r, hrow, hbuild⟩ := build_encode i
  obtain ⟨q, hq, hmatch⟩ := encode_matches_row i hwf
  obtain rfl : (r.pattern, r.mask) = q := by
    simpa only [opcodePatterns_eq, List.getElem?_map, hrow, Option.map_some, Option.some.injEq] using hq
  rw [decode_of_row_match (List.mem_of_getElem? hrow) hmatch, hbuild]

/-! From a legal word to its command and back. -/

/-- Every word that matches the row is the word of the well-formed command the row reads from it. -/
def OpcodeRow.Faithful (r : OpcodeRow) : Prop :=
  ∀ w : Word, w &&& r.mask = r.pattern → encode (r.build w) = w ∧ WellFormed (r.build w) = true

/-! `30_encoding.md` R83, R85: the mask of a row holds 8 in a class A field and 12 in a class P field. -/

theorem isClassA_of_and : ∀ r : RegField, r &&& 8#4 = 0#4 → isClassA r = true := by decide

theorem isClassP_of_and : ∀ r : RegField, r &&& 12#4 = 0#4 → isClassP r = true := by decide

theorem threeClassA_of_and {rd rs1 rs2 : RegField} (hd : rd &&& 8#4 = 0#4) (h1 : rs1 &&& 8#4 = 0#4)
    (h2 : rs2 &&& 8#4 = 0#4) : (isClassA rd && isClassA rs1 && isClassA rs2) = true := by
  rw [isClassA_of_and rd hd, isClassA_of_and rs1 h1, isClassA_of_and rs2 h2]
  rfl

/-! The rows of one shape are faithful by one argument: the mask covers the opcode and every bit the encoder leaves
zero, so the encoder's fields are all of the word. -/

section
variable {op : BitVec 8} {mask : Word}

theorem row2_faithful {mk : RegField → RegField → Instr}
    (hop : opField mask = BitVec.allOnes 8) (hrs2 : rs2Field mask = BitVec.allOnes 4)
    (hlow : mask.extractLsb' 0 12 = BitVec.allOnes 12)
    (henc : ∀ rd rs1, encode (mk rd rs1) = encR op rd rs1 0#4)
    (hwf : ∀ rd rs1, rd &&& rdField mask = 0#4 → rs1 &&& rs1Field mask = 0#4 → WellFormed (mk rd rs1) = true) :
    (row2 op (encZ op) mask mk).Faithful := by
  intro w (h : w &&& mask = encZ op)
  have hrs2w : rs2Field w = 0#4 := extract_eq_zero_of_match h (by decide) hrs2
  refine ⟨?encode, hwf _ _ (extract_and_of_match h (by decide)) (extract_and_of_match h (by decide))⟩
  rw [row2_build, henc, ← opField_of_match h hop, ← hrs2w]
  exact encR_fields (extract_eq_zero_of_match h (by decide) hlow)

theorem row3_faithful {mk : RegField → RegField → RegField → Instr}
    (hop : opField mask = BitVec.allOnes 8) (hlow : mask.extractLsb' 0 12 = BitVec.allOnes 12)
    (henc : ∀ rd rs1 rs2, encode (mk rd rs1 rs2) = encR op rd rs1 rs2)
    (hwf : ∀ rd rs1 rs2, rd &&& rdField mask = 0#4 → rs1 &&& rs1Field mask = 0#4 → rs2 &&& rs2Field mask = 0#4 →
      WellFormed (mk rd rs1 rs2) = true) :
    (row3 op (encZ op) mask mk).Faithful := by
  intro w (h : w &&& mask = encZ op)
  refine ⟨?encode, hwf _ _ _ (extract_and_of_match h (by decide)) (extract_and_of_match h (by decide))
    (extract_and_of_match h (by decide))⟩
  rw [row3_build, henc, ← opField_of_match h hop]
  exact encR_fields (extract_eq_zero_of_match h (by decide) hlow)

theorem rowM_faithful {mk : RegField → RegField → RegField → BitVec 4 → Instr}
    (hop : opField mask = BitVec.allOnes 8) (hlow : mask.extractLsb' 0 8 = BitVec.allOnes 8)
    (henc : ∀ rd rs1 rs2 lang, encode (mk rd rs1 rs2 lang) = encM op rd rs1 rs2 lang)
    (hwf : ∀ rd rs1 rs2 lang, rd &&& rdField mask = 0#4 → rs1 &&& rs1Field mask = 0#4 →
      rs2 &&& rs2Field mask = 0#4 → WellFormed (mk rd rs1 rs2 lang) = true) :
    (rowM op (encZ op) mask mk).Faithful := by
  intro w (h : w &&& mask = encZ op)
  refine ⟨?encode, hwf _ _ _ _ (extract_and_of_match h (by decide)) (extract_and_of_match h (by decide))
    (extract_and_of_match h (by decide))⟩
  rw [rowM_build, henc, ← opField_of_match h hop]
  exact encM_fields (extract_eq_zero_of_match h (by decide) hlow)

end

theorem controlRows_faithful : ∀ r ∈ controlRows, r.Faithful := by
  simp only [controlRows, List.forall_mem_cons]
  refine ⟨?lda, ?errclr, nofun⟩
  case lda =>
    intro w (h : w &&& 0xFF8F0000#32 = encZ 0x01#8)
    have hrd : rdField w &&& 8#4 = 0#4 := extract_and_of_match h (by decide)
    refine ⟨?encode, isClassA_of_and _ hrd⟩
    calc encode (.lda (rdField w) (immField w))
        = encI (opField w) (rdField w) (immField w) := by rw [encode, opField_of_match h rfl]
      _ = w := encI_fields (extract_eq_zero_of_match h (by decide) rfl)
  case errclr =>
    intro w (h : w &&& BitVec.allOnes 32 = encZ 0x02#8)
    rw [BitVec.and_allOnes] at h
    exact ⟨h.symm, rfl⟩

theorem fieldRows_faithful : ∀ r ∈ fieldRows, r.Faithful := by
  simp only [fieldRows, List.forall_mem_cons]
  refine ⟨?fld, ?fst, ?fadd, ?fsub, ?fmul, ?fsq, nofun⟩
  case fld => exact row2_faithful rfl rfl rfl (fun _ _ => rfl) fun _ rs1 _ h1 => isClassA_of_and rs1 h1
  case fst => exact row2_faithful rfl rfl rfl (fun _ _ => rfl) fun rd _ hd _ => isClassA_of_and rd hd
  case fadd => exact row3_faithful rfl rfl (fun _ _ _ => rfl) fun _ _ _ _ _ _ => rfl
  case fsub => exact row3_faithful rfl rfl (fun _ _ _ => rfl) fun _ _ _ _ _ _ => rfl
  case fmul => exact row3_faithful rfl rfl (fun _ _ _ => rfl) fun _ _ _ _ _ _ => rfl
  case fsq => exact row2_faithful rfl rfl rfl (fun _ _ => rfl) fun _ _ _ _ => rfl

theorem curveRows_faithful : ∀ r ∈ curveRows, r.Faithful := by
  simp only [curveRows, List.forall_mem_cons]
  refine ⟨?scred, ?scclamp, ?gesmb, ?gep3p2, ?gecomp, nofun⟩
  case scred =>
    exact row2_faithful rfl rfl rfl (fun _ _ => rfl) fun rd rs1 hd h1 =>
      Bool.and_eq_true_iff.2 ⟨isClassA_of_and rd hd, isClassA_of_and rs1 h1⟩
  case scclamp =>
    intro w (h : w &&& 0xFFF8FFFF#32 = encZ 0x21#8)
    have hrd : rdField w = 0#4 := extract_eq_zero_of_match h (by decide) rfl
    have hrs2 : rs2Field w = 0#4 := extract_eq_zero_of_match h (by decide) rfl
    have hrs1 : rs1Field w &&& 8#4 = 0#4 := extract_and_of_match h (by decide)
    refine ⟨?encode, isClassA_of_and _ hrs1⟩
    calc encode (.scclamp (rs1Field w))
        = encR (opField w) (rdField w) (rs1Field w) (rs2Field w) := by
          rw [encode, opField_of_match h rfl, hrd, hrs2]
      _ = w := encR_fields (extract_eq_zero_of_match h (by decide) rfl)
  case gesmb =>
    exact row2_faithful rfl rfl rfl (fun _ _ => rfl) fun rd rs1 hd h1 =>
      Bool.and_eq_true_iff.2 ⟨isClassP_of_and rd hd, isClassA_of_and rs1 h1⟩
  case gep3p2 =>
    exact row2_faithful rfl rfl rfl (fun _ _ => rfl) fun rd rs1 hd h1 =>
      Bool.and_eq_true_iff.2 ⟨isClassP_of_and rd hd, isClassP_of_and rs1 h1⟩
  case gecomp =>
    exact row2_faithful rfl rfl rfl (fun _ _ => rfl) fun rd rs1 hd h1 =>
      Bool.and_eq_true_iff.2 ⟨isClassA_of_and rd hd, isClassP_of_and rs1 h1⟩

theorem base58Rows_faithful : ∀ r ∈ base58Rows, r.Faithful := by
  simp only [base58Rows, List.forall_mem_cons]
  refine ⟨?b58eb, ?b58db, ?b58enc, ?b58dec, nofun⟩
  all_goals exact row3_faithful rfl rfl (fun _ _ _ => rfl) fun _ _ _ => threeClassA_of_and

theorem mnemonicRows_faithful : ∀ r ∈ mnemonicRows, r.Faithful := by
  simp only [mnemonicRows, List.forall_mem_cons]
  refine ⟨?mnenc, ?mndec, ?mncsum, nofun⟩
  all_goals exact rowM_faithful rfl rfl (fun _ _ _ _ => rfl) fun _ _ _ _ => threeClassA_of_and

theorem opcodeRows_faithful : ∀ r ∈ opcodeRows, r.Faithful := by
  simp only [opcodeRows, List.forall_mem_append]
  exact ⟨⟨⟨⟨controlRows_faithful, fieldRows_faithful⟩, curveRows_faithful⟩, base58Rows_faithful⟩,
    mnemonicRows_faithful⟩

/-- Settles O5: the word matches the row it was decoded by, and every row is faithful. -/
theorem encodeOfDecodeIsIdentity : Obligations.EncodeOfDecodeIsIdentity := by
  unfold Obligations.EncodeOfDecodeIsIdentity
  intro w i h
  obtain ⟨r, hr, hmatch, rfl⟩ := decode_eq_ok_iff.1 h
  exact opcodeRows_faithful r hr w hmatch

end Sys2Proof
end

section
/-! The legal words (`30_encoding.md` R85, R86), and what an illegal one does (`60_exceptions.md` R230). -/

namespace Sys2Proof.Machine

theorem mem_opcodePatterns_iff {q : Word × Word} :
    q ∈ opcodePatterns ↔ ∃ r ∈ opcodeRows, (r.pattern, r.mask) = q := by
  rw [opcodePatterns_eq, List.mem_map]

/-- Settles O6: the decoder goes by the rows (`decode_eq_ok_iff`), and a word's opcode leaves it one row. -/
theorem legalWordsAreTheTableRows : Obligations.LegalWordsAreTheTableRows := by
  unfold Obligations.LegalWordsAreTheTableRows
  refine ⟨fun w => ⟨?_, ?_⟩, ?_⟩
  · rintro ⟨i, h⟩
    obtain ⟨r, hr, hmatch, -⟩ := decode_eq_ok_iff.1 h
    exact ⟨_, mem_opcodePatterns_iff.2 ⟨r, hr, rfl⟩, hmatch⟩
  · rintro ⟨q, hq, hmatch⟩
    obtain ⟨r, hr, rfl⟩ := mem_opcodePatterns_iff.1 hq
    exact ⟨_, decode_of_row_match hr hmatch⟩
  · intro w q₁ hq₁ q₂ hq₂ hmatch₁ hmatch₂
    obtain ⟨r₁, hr₁, rfl⟩ := mem_opcodePatterns_iff.1 hq₁
    obtain ⟨r₂, hr₂, rfl⟩ := mem_opcodePatterns_iff.1 hq₂
    have hop : r₁.op = r₂.op := (opField_of_row_match hr₁ hmatch₁).symm.trans (opField_of_row_match hr₂ hmatch₂)
    rw [opcodeRow_eq_of_op_eq hr₁ hr₂ hop]

/-- Settles O7, by running the decoder. -/
theorem sampleWordsDecode : Obligations.SampleWordsDecode := by
  unfold Obligations.SampleWordsDecode
  decide

/-- With no error on record an illegal word raises IllegalCommand (`60_exceptions.md` R230). -/
theorem issue_illegal {s : State} {w : Word} (hs : s.err = false) (hw : ∀ i, decode w ≠ .ok i) :
    issue w s = .next (s.enter .illegalCommand w) := by
  rw [issue, if_neg (ne_true_of_eq_false hs)]
  cases hdecode : decode w with
  | error e => rfl
  | ok i => exact absurd hdecode (hw i)

/-- Settles O9: the step is `issue`, and entry writes the record only. -/
theorem illegalWordEntersIllegalCommand : Obligations.IllegalWordEntersIllegalCommand := by
  unfold Obligations.IllegalWordEntersIllegalCommand
  intro s w rest hmoves hs hw
  exact ⟨_, (step_of_command s hmoves).trans (issue_illegal hs hw), State.enter_entersError _ _ _⟩

end Sys2Proof.Machine
end

section
/-! The command word of format R in the form in which the command rules write it (`30_encoding.md` R82). -/

namespace Sys2Proof.Machine

theorem encR_eq_commandWord (op : BitVec 8) (rd rs1 rs2 : RegField) :
    encR op rd rs1 rs2 = commandWord (op.setWidth 32 <<< 24) rd rs1 rs2 0#4 := by
  rw [encR_eq_encM, encM_eq_or, commandWord]

end Sys2Proof.Machine
end

section
/-! The commands that write one field register: FLD, FADD, FSUB, FMUL, FSQ (`40_field.md` R112, R114 to R117). -/

namespace Sys2Proof.Machine

/-- The end of a command that writes one field register: the value, and the frame. -/
theorem retire_writeF (w : Word) (s : State) (d : RegField) (v : Elem) :
    ∃ t, retire w s (.ok (s.writeF d v)) = .next t ∧ t.readF d = v ∧ OnlyFieldRegs (· = d) s t ∧
      t.draws = s.draws :=
  ⟨_, retire_ok s w _, s.readF_writeF_same d v, s.writeF_onlyFieldRegs d v, rfl⟩

/-! `40_field.md` R112: the two ends of FLD. -/

theorem execFld_fits {rs1 : RegField} {s : State} (rd : RegField) (h : inBuf (s.operand rs1) 32) :
    execFld rd rs1 s = retire (encode (.fld rd rs1)) s
      (.ok (s.writeF rd (decodeElem (s.memRead (s.operand rs1) 32)))) := by
  simp only [execFld, if_pos h]

theorem execFld_outside {rs1 : RegField} {s : State} (rd : RegField) (h : ¬ inBuf (s.operand rs1) 32) :
    execFld rd rs1 s = .next (s.enter .contractViolation (encode (.fld rd rs1))) := by
  simp only [execFld, if_neg h, retire_error]

/-- Settles O24, by the range check: either one field register is written, or the error is entered. -/
theorem fldLoadsReducedElement : Obligations.FldLoadsReducedElement := by
  unfold Obligations.FldLoadsReducedElement
  intro rd rs1 s _
  refine ⟨encR_eq_commandWord 0x10#8 rd rs1 0#4, fun hfits => ?_, fun houtside => ?_⟩
  · obtain ⟨t, ht, hvalue, hframe⟩ := retire_writeF (encode (.fld rd rs1)) s rd
      (decodeElem (s.memRead (s.operand rs1) 32))
    exact ⟨t, (execFld_fits rd hfits).trans ht, by rw [hvalue, decodeElem, elemOfNat_val], hframe⟩
  · exact ⟨_, execFld_outside rd (Nat.not_le_of_gt houtside), State.enter_entersError _ _ _⟩

/-- Settles O26: FADD writes `fieldAdd` to one field register. -/
theorem faddAddsModP : Obligations.FaddAddsModP := by
  unfold Obligations.FaddAddsModP
  intro rd rs1 rs2 s
  obtain ⟨t, ht, hvalue, hframe⟩ := retire_writeF (encode (.fadd rd rs1 rs2)) s rd
    (fieldAdd (s.readF rs1) (s.readF rs2))
  exact ⟨encR_eq_commandWord 0x12#8 rd rs1 rs2, t, ht, by rw [hvalue, fieldAdd_val], hframe⟩

/-- `40_field.md` R115: the summand `p`, which keeps the difference of naturals exact, vanishes modulo `p`. -/
theorem fieldSub_val_int (x y : Elem) : ((fieldSub x y).val : Int) = ((x.val : Int) - y.val) % p := by
  have hle : y.val ≤ x.val + p := Nat.le_add_left_of_le y.isLt.le
  calc ((fieldSub x y).val : Int)
      = ((x.val : Int) + p - y.val) % p := by
        rw [fieldSub_val, Int.natCast_mod, Nat.cast_sub hle, Nat.cast_add]
    _ = ((x.val : Int) - y.val) % p := by rw [add_sub_right_comm, Int.add_emod_right]

/-- Settles O27: FSUB writes `fieldSub` to one field register. -/
theorem fsubSubtractsModP : Obligations.FsubSubtractsModP := by
  unfold Obligations.FsubSubtractsModP
  intro rd rs1 rs2 s
  obtain ⟨t, ht, hvalue, hframe⟩ := retire_writeF (encode (.fsub rd rs1 rs2)) s rd
    (fieldSub (s.readF rs1) (s.readF rs2))
  exact ⟨encR_eq_commandWord 0x13#8 rd rs1 rs2, t, ht, by rw [hvalue, fieldSub_val_int], hframe⟩

/-- Settles O28: FMUL writes `fieldMul` to one field register. -/
theorem fmulMultipliesModP : Obligations.FmulMultipliesModP := by
  unfold Obligations.FmulMultipliesModP
  intro rd rs1 rs2 s
  obtain ⟨t, ht, hvalue, hframe⟩ := retire_writeF (encode (.fmul rd rs1 rs2)) s rd
    (fieldMul (s.readF rs1) (s.readF rs2))
  exact ⟨encR_eq_commandWord 0x14#8 rd rs1 rs2, t, ht, by rw [hvalue, fieldMul_val], hframe⟩

/-- `40_field.md` R117: neither command can fail, so that their words differ has no effect. -/
theorem exec_fsq_eq_fmul (rd rs1 : RegField) (s : State) : exec (.fsq rd rs1) s = exec (.fmul rd rs1 rs1) s := rfl

/-- Settles O29, by O28 for the register with itself. -/
theorem fsqSquaresModP : Obligations.FsqSquaresModP := by
  unfold Obligations.FsqSquaresModP
  intro rd rs1 s
  obtain ⟨-, t, ht, hvalue, hframe⟩ := fmulMultipliesModP rd rs1 rs1 s
  exact ⟨encR_eq_commandWord 0x15#8 rd rs1 0#4, exec_fsq_eq_fmul rd rs1 s, t,
    (exec_fsq_eq_fmul rd rs1 s).trans ht, by rw [hvalue, pow_two], hframe⟩

end Sys2Proof.Machine
end

section
/-! The two ends of a command that stores its output (`20_memory.md` R56, R57). -/

namespace Sys2Proof.Machine

variable {s : State} {w : Word} {x : Nat} {out : List Byte}

theorem retire_storeOutput_fits (h : x + out.length ≤ 1024) :
    ∃ t, retire w s (s.storeOutput x out) = .next t ∧ Stores x out s t := by
  simpa only [if_pos h] using retire_storeOutput s w x out

theorem retire_storeOutput_outside (h : x + out.length > 1024) :
    ∃ t, retire w s (s.storeOutput x out) = .next t ∧ EntersError .contractViolation w s t := by
  simpa only [if_neg (Nat.not_le_of_gt h)] using retire_storeOutput s w x out

end Sys2Proof.Machine
end

section
/-! FST, and FLD of what it has stored (`40_field.md` R111, R113). -/

namespace Sys2Proof.Machine

/-- `40_field.md` R111: an element is less than `2^255`, so bit 7 of byte 31 of its encoding is clear. -/
theorem encodeElem_topByte_lt (x : Elem) :
    ((encodeElem x)[31]'(by rw [encodeElem_length]; decide)).toNat < 0x80 := by
  have hdigit := le_digit (encodeElem x) 31 (by rw [encodeElem_length]; decide)
  have hlt : x.val / 256 ^ 31 < 0x80 := Nat.div_lt_of_lt_mul (elem_lt x)
  rw [← hdigit, le_encodeElem]
  exact Nat.lt_of_le_of_lt (Nat.mod_le _ _) hlt

theorem exec_fst_fits {rd : RegField} {s : State} (rs1 : RegField) (h : s.operand rd + 32 ≤ 1024) :
    ∃ t, exec (.fst rd rs1) s = .next t ∧ Stores (s.operand rd) (encodeElem (s.readF rs1)) s t :=
  retire_storeOutput_fits (by rwa [encodeElem_length])

theorem exec_fst_outside {rd : RegField} {s : State} (rs1 : RegField) (h : s.operand rd + 32 > 1024) :
    ∃ t, exec (.fst rd rs1) s = .next t ∧ EntersError .contractViolation (encode (.fst rd rs1)) s t :=
  retire_storeOutput_outside (by rwa [encodeElem_length])

/-- Settles O25, by what FST stores: the encoding has the element's value, and its top byte is below 0x80. -/
theorem fstStoresCanonicalEncoding : Obligations.FstStoresCanonicalEncoding := by
  unfold Obligations.FstStoresCanonicalEncoding
  intro rd rs1 s _
  refine ⟨encR_eq_commandWord 0x11#8 rd rs1 0#4, fun hfits => ?_, exec_fst_outside rs1⟩
  obtain ⟨t, ht, hstores⟩ := exec_fst_fits rs1 hfits
  have htop : (t.byte (s.operand rd + 31)).toNat < 0x80 := by
    rw [hstores.byte_eq]
    exact encodeElem_topByte_lt (s.readF rs1)
  obtain ⟨hread, holen, hframe⟩ := hstores
  rw [encodeElem_length] at hread holen hframe
  exact ⟨t, ht, by rw [hread, le_encodeElem], BitVec.eq_of_toNat_eq holen, htop, hframe⟩

/-- Settles O30: FST leaves the operand register, so FLD reads the encoding FST has stored and decodes it. -/
theorem fstThenFldReturnsTheElement : Obligations.FstThenFldReturnsTheElement := by
  unfold Obligations.FstThenFldReturnsTheElement
  intro rd rs1 d s hfits
  obtain ⟨t, ht, hstores⟩ := exec_fst_fits rs1 hfits
  have hoperand : t.operand rd = s.operand rd := hstores.operand_eq rd
  have hread : t.memRead (t.operand rd) 32 = encodeElem (s.readF rs1) := by
    rw [hoperand, ← hstores.1, encodeElem_length]
  obtain ⟨u, hu, hvalue, -⟩ := retire_writeF (encode (.fld d rd)) t d (decodeElem (t.memRead (t.operand rd) 32))
  refine ⟨t, u, ht, (execFld_fits d (hoperand ▸ hfits)).trans hu, ?_⟩
  rw [hvalue, hread, decodeElem_encodeElem]

end Sys2Proof.Machine
end

section
/-! The inverse of `00_scope.md` R8 (`40_field.md` R119). -/

namespace Sys2Proof.Machine

open Sys2Proof.Laws (p_prime)

theorem cast_ne_zero_of_val_ne_zero {z : Elem} (hz : z.val ≠ 0) : (z.val : ZMod p) ≠ 0 := by
  rw [Ne, ZMod.natCast_eq_zero_iff]
  exact Nat.not_dvd_of_pos_of_lt (Nat.pos_of_ne_zero hz) z.isLt

theorem fieldMul_fieldInv {z : Elem} (hz : z.val ≠ 0) : fieldMul z (fieldInv z) = elemOfNat 1 := by
  have := Fact.mk p_prime
  apply elem_ext_cast
  rw [cast_fieldMul, cast_fieldInv, cast_elemOfNat, mul_inv_cancel₀ (cast_ne_zero_of_val_ne_zero hz), Nat.cast_one]

theorem fieldInv_zero {z : Elem} (hz : z.val = 0) : fieldInv z = elemOfNat 0 := by
  have := Fact.mk p_prime
  apply elem_ext_cast
  rw [cast_fieldInv, cast_elemOfNat, hz, Nat.cast_zero, inv_zero]

/-- Settles O31, in `ZMod p`, which is a field. -/
theorem fieldOperationsAreThoseOfTheField : Obligations.FieldOperationsAreThoseOfTheField := by
  unfold Obligations.FieldOperationsAreThoseOfTheField
  refine ⟨fun x y => ⟨cast_fieldAdd x y, cast_fieldSub x y, cast_fieldMul x y⟩, fieldInv_val, fun z hz => ?_,
    fun z hz => ?_⟩
  · rw [fieldMul_fieldInv hz]; rfl
  · rw [fieldInv_zero hz]; rfl

end Sys2Proof.Machine
end

section
/-! The base point `B` and its order (`41_curve_scalar.md` R130, R132 to R134). -/

namespace Sys2Proof.Machine

theorem basePoint_onCurve : basePoint.onCurve = true := by decide +kernel

/-- Settles O37: closure is `pointAdd_onCurve`, and `[k]B` is a repeated sum (O36). -/
theorem multiplesOfBasePointLieOnTheCurve : Obligations.MultiplesOfBasePointLieOnTheCurve := by
  unfold Obligations.MultiplesOfBasePointLieOnTheCurve
  refine ⟨fun P Q => pointAdd_onCurve, fun k => ?_⟩
  rw [scalarMulIsRepeatedAddition basePoint k basePoint_onCurve]
  exact repeatedSum_onCurve basePoint_onCurve k

/-- `41_curve_scalar.md` R132: `[L]B = O`, evaluated by the doubling algorithm, a round for each of the 253 bits
of `L`. -/
theorem repeatedSum_groupOrder : repeatedSum basePoint groupOrder = neutral := by
  rw [← scalarMulFuel_eq_repeatedSum basePoint_onCurve 253 groupOrder (by decide)]
  decide +kernel

theorem repeatedSum_groupOrder_mul (n : Nat) : repeatedSum basePoint (groupOrder * n) = neutral := by
  induction n with
  | zero => rfl
  | succ n ih =>
    rw [Nat.mul_succ, repeatedSum_add basePoint_onCurve, ih, repeatedSum_groupOrder, pointAdd_neutral]

/-- `41_curve_scalar.md` R134: `[k]B = [k mod L]B`. -/
theorem scalarMul_mod_groupOrder (k : Nat) : scalarMul (k % groupOrder) basePoint = scalarMul k basePoint := by
  rw [scalarMulIsRepeatedAddition basePoint _ basePoint_onCurve,
    scalarMulIsRepeatedAddition basePoint _ basePoint_onCurve]
  conv_rhs => rw [← Nat.mod_add_div k groupOrder]
  rw [repeatedSum_add basePoint_onCurve, repeatedSum_groupOrder_mul, pointAdd_neutral]

end Sys2Proof.Machine
end

section
/-! The ends of a command that checks a source range, and what a store of 32 bytes leaves (`20_memory.md` R56, R57). -/

namespace Sys2Proof.Machine

theorem retire_source_outside {s : State} {w : Word} {x n : Nat} {r : Run} (h : x + n > 1024) :
    ∃ t, retire w s (if inBuf x n then r else .error .contractViolation) = .next t ∧
      EntersError .contractViolation w s t := by
  rw [if_neg (Nat.not_le_of_gt h), retire_error]
  exact ⟨_, rfl, s.enter_entersError _ _⟩

section
variable {x : Nat} {out : List Byte} {s t : State}

theorem Stores.thirtyTwo (h : Stores x out s t) (hlen : out.length = 32) :
    t.memRead x 32 = out ∧ t.olen = 32#16 ∧ OnlyBuffer x 32 s t := by
  obtain ⟨hread, holen, hframe⟩ := h
  rw [hlen] at hread holen hframe
  exact ⟨hread, BitVec.eq_of_toNat_eq holen, hframe⟩

/-- A store of the bytes that stand there already. -/
theorem Stores.sameBuffer (h : Stores x out s t) (hold : s.memRead x out.length = out) : SameBuffer s t := by
  obtain ⟨hread, -, houtside, -⟩ := h
  intro y
  by_cases hy : y < x ∨ x + out.length ≤ y
  · exact houtside y hy
  · obtain ⟨i, rfl⟩ := Nat.exists_eq_add_of_le (show x ≤ y by omega)
    have hi : i < out.length := by omega
    rw [← Option.some_inj, ← t.memRead_getElem? x _ i hi, ← s.memRead_getElem? x _ i hi, hread, hold]

end

end Sys2Proof.Machine
end

section
/-! SCRED (`41_curve_scalar.md` R135). -/

namespace Sys2Proof.Machine

theorem groupOrder_eq : groupOrder = 2 ^ 252 + 27742317777372353535851937790883648493 := rfl

@[simp] theorem reduceScalar_length (bs : List Byte) : (reduceScalar bs).length = 32 := toLE_length _ _

/-- `L` has less than 256 bits, so the 32 bytes hold all of the remainder. -/
theorem le_reduceScalar (bs : List Byte) : le (reduceScalar bs) = le bs % groupOrder := by
  have hlt : le bs % groupOrder < 256 ^ 32 := (Nat.mod_lt _ (by decide)).trans (by decide)
  rw [reduceScalar, le_toLE, Nat.mod_eq_of_lt hlt]

section
variable {rd rs1 : RegField} {s : State}

theorem exec_scred_of_source (rd : RegField) (h : inBuf (s.operand rs1) 64) :
    exec (.scred rd rs1) s = retire (encode (.scred rd rs1)) s
      (s.storeOutput (s.operand rd) (reduceScalar (s.memRead (s.operand rs1) 64))) := by
  simp only [exec, execScred, if_pos h]

theorem exec_scred_fits (hsrc : s.operand rs1 + 64 ≤ 1024) (hdst : s.operand rd + 32 ≤ 1024) :
    ∃ t, exec (.scred rd rs1) s = .next t ∧
      Stores (s.operand rd) (reduceScalar (s.memRead (s.operand rs1) 64)) s t := by
  rw [exec_scred_of_source rd hsrc]
  exact retire_storeOutput_fits (by rwa [reduceScalar_length])

theorem exec_scred_outside (h : s.operand rs1 + 64 > 1024 ∨ s.operand rd + 32 > 1024) :
    ∃ t, exec (.scred rd rs1) s = .next t ∧ EntersError .contractViolation (encode (.scred rd rs1)) s t := by
  by_cases hsrc : inBuf (s.operand rs1) 64
  · rw [exec_scred_of_source rd hsrc]
    exact retire_storeOutput_outside (by rw [reduceScalar_length]; exact h.resolve_left (Nat.not_lt_of_ge hsrc))
  · exact retire_source_outside (Nat.lt_of_not_le hsrc)

end

/-- Settles O33, by what SCRED stores: the remainder modulo `L`. -/
theorem scredReducesModL : Obligations.ScredReducesModL := by
  unfold Obligations.ScredReducesModL
  intro rd rs1 s _
  refine ⟨encR_eq_commandWord 0x20#8 rd rs1 0#4, fun hsrc hdst => ?_, exec_scred_outside⟩
  obtain ⟨t, ht, hstores⟩ := exec_scred_fits hsrc hdst
  obtain ⟨hread, holen, hframe⟩ := hstores.thirtyTwo (reduceScalar_length _)
  exact ⟨t, ht, by rw [hread, le_reduceScalar, groupOrder_eq], holen, hframe⟩

end Sys2Proof.Machine
end

section
/-! SCCLAMP (`41_curve_scalar.md` R136). -/

namespace Sys2Proof.Machine

@[simp] theorem clampScalar_length (bs : List Byte) : (clampScalar bs).length = bs.length := by
  simp [clampScalar]

/-- Each byte of a clamped scalar: two masked, the others kept. -/
theorem clampScalar_getElem (bs : List Byte) (i : Nat) (h : i < (clampScalar bs).length) :
    (clampScalar bs)[i] =
      if i = 0 then bs[i]'(by simpa using h) &&& 0xF8#8
      else if i = 31 then (bs[i]'(by simpa using h) &&& 0x7F#8) ||| 0x40#8
      else bs[i]'(by simpa using h) := by
  by_cases h0 : i = 0
  · subst h0
    simp [clampScalar]
  · by_cases h31 : i = 31
    · subst h31
      simp [clampScalar]
    · simp only [clampScalar, List.getElem_modify, if_neg h0, if_neg h31, if_neg (Ne.symm h0), if_neg (Ne.symm h31)]

/-- The two masked bytes are not the same one, and masking either again changes nothing. -/
theorem clampScalar_clampScalar (bs : List Byte) : clampScalar (clampScalar bs) = clampScalar bs := by
  have hlow : ∀ b : Byte, b &&& 0xF8#8 &&& 0xF8#8 = b &&& 0xF8#8 := by decide
  have htop : ∀ b : Byte, ((b &&& 0x7F#8) ||| 0x40#8) &&& 0x7F#8 ||| 0x40#8 = (b &&& 0x7F#8) ||| 0x40#8 := by
    decide
  apply List.ext_getElem (by simp)
  intro i h₁ h₂
  rw [clampScalar_getElem, clampScalar_getElem]
  split
  · exact hlow _
  · split
    · exact htop _
    · rfl

/-- Bits 0, 1 and 2 of a clamped scalar are clear. -/
theorem eight_dvd_le_clampScalar {bs : List Byte} (hlen : bs.length = 32) : 8 ∣ le (clampScalar bs) := by
  have hmask : ∀ b : Byte, 8 ∣ (b &&& 0xF8#8).toNat := by decide
  have hdigit := le_digit (clampScalar bs) 0 (by simp [hlen])
  rw [clampScalar_getElem, if_pos rfl, pow_zero, Nat.div_one] at hdigit
  have hlow := hmask (bs[0]'(by simp [hlen]))
  omega

/-- Bit 254 of a clamped scalar is set and bit 255 is clear: its top byte is in `[0x40, 0x80)`. -/
theorem le_clampScalar_range {bs : List Byte} (hlen : bs.length = 32) :
    2 ^ 254 ≤ le (clampScalar bs) ∧ le (clampScalar bs) < 2 ^ 255 := by
  have hmask : ∀ b : Byte,
      0x40 ≤ ((b &&& 0x7F#8) ||| 0x40#8).toNat ∧ ((b &&& 0x7F#8) ||| 0x40#8).toNat < 0x80 := by decide
  have hlt := le_lt (clampScalar bs)
  have hdigit := le_digit (clampScalar bs) 31 (by simp [hlen])
  rw [clampScalar_getElem, if_neg (by decide), if_pos rfl] at hdigit
  obtain ⟨hlo, hhi⟩ := hmask (bs[31]'(by simp [hlen]))
  rw [clampScalar_length, hlen] at hlt
  omega

theorem exec_scclamp_fits {rs1 : RegField} {s : State} (h : s.operand rs1 + 32 ≤ 1024) :
    ∃ t, exec (.scclamp rs1) s = .next t ∧
      Stores (s.operand rs1) (clampScalar (s.memRead (s.operand rs1) 32)) s t := by
  have hbuf : inBuf (s.operand rs1) 32 := h
  simp only [exec, execScclamp, if_pos hbuf]
  exact retire_storeOutput_fits (by simpa using h)

/-- Settles O34, by what SCCLAMP stores: the bytes of `clampScalar`, which clamps a clamped scalar to itself. -/
theorem scclampClampsInPlace : Obligations.ScclampClampsInPlace := by
  unfold Obligations.ScclampClampsInPlace
  intro rs1 s _
  refine ⟨encR_eq_commandWord 0x21#8 0#4 rs1 0#4, fun hfits => ?_, retire_source_outside⟩
  obtain ⟨t, ht, hstores⟩ := exec_scclamp_fits hfits
  have hlen := s.memRead_length (s.operand rs1) 32
  have hbyte : ∀ i < 32, t.byte (s.operand rs1 + i) =
      if i = 0 then s.byte (s.operand rs1 + i) &&& 0xF8#8
      else if i = 31 then (s.byte (s.operand rs1 + i) &&& 0x7F#8) ||| 0x40#8
      else s.byte (s.operand rs1 + i) := fun i hi => by
    rw [hstores.byte_eq (by simpa using hi), clampScalar_getElem]
    simp only [State.memRead_getElem]
  have hoperand := hstores.operand_eq rs1
  obtain ⟨hread, holen, hframe⟩ := hstores.thirtyTwo ((clampScalar_length _).trans hlen)
  obtain ⟨hlo, hhi⟩ := le_clampScalar_range hlen
  obtain ⟨u, hu, hagain⟩ := exec_scclamp_fits (hoperand ▸ hfits)
  rw [hoperand, hread, clampScalar_clampScalar] at hagain
  refine ⟨t, ht, hbyte 0 (by decide), hbyte 31 (by decide), fun i h1 h30 => ?_, hread ▸ hlo, hread ▸ hhi,
    hread ▸ eight_dvd_le_clampScalar hlen, holen, hframe, u, hu, hagain.sameBuffer ?_⟩
  · rw [hbyte i (by omega), if_neg (by omega), if_neg (by omega)]
  · rw [clampScalar_length, hlen, hread]

end Sys2Proof.Machine
end

section
/-! GEP3P2 (`41_curve_scalar.md` R141). -/

namespace Sys2Proof.Machine

theorem State.writeF_readF (s : State) (i : RegField) : s.writeF i (s.readF i) = s := by
  simp [State.writeF, State.readF]

theorem State.writeXYZ_coord (s : State) (k : RegField) :
    s.writeXYZ k (s.coord k 0#4) (s.coord k 1#4) (s.coord k 2#4) = s := by
  simp only [State.writeXYZ, State.coord, State.writeF_readF]

/-- Different point registers have no field register in common. -/
theorem coordIndex_ne_of_ne {k m : RegField} (hk : isClassP k = true) (hm : isClassP m = true) (h : k ≠ m)
    {i j : Nat} (hi : i < 4) (hj : j < 4) : coordIndex k (BitVec.ofNat 4 i) ≠ BitVec.ofNat 4 (4 * m.toNat + j) := by
  simp only [isClassP, decide_eq_true_eq] at hk hm
  have hne : k.toNat ≠ m.toNat := fun e => h (BitVec.eq_of_toNat_eq e)
  intro e
  have hindex := congrArg BitVec.toNat e
  rw [coordIndex_eq, BitVec.toNat_ofNat, BitVec.toNat_ofNat] at hindex
  omega

/-- Settles O38: GEP3P2 writes three field registers, none of them a coordinate of another point register. -/
theorem gep3p2CopiesThreeCoordinates : Obligations.Gep3p2CopiesThreeCoordinates := by
  unfold Obligations.Gep3p2CopiesThreeCoordinates
  intro rd rs1 s hwf
  obtain ⟨hrd, hrs1⟩ := Bool.and_eq_true_iff.1 hwf
  obtain ⟨hX, hY, hZ, hT⟩ := s.coord_writeXYZ rd (s.coord rs1 0#4) (s.coord rs1 1#4) (s.coord rs1 2#4)
  have hframe := s.writeXYZ_onlyFieldRegs rd (s.coord rs1 0#4) (s.coord rs1 1#4) (s.coord rs1 2#4)
  refine ⟨encR_eq_commandWord 0x23#8 rd rs1 0#4, _, rfl, hX, hY, hZ, hT, hframe, rfl, fun hne j => ?_, ?_⟩
  · refine hframe.1 _ ?_
    rintro ⟨i, hi, hindex⟩
    exact coordIndex_ne_of_ne hrs1 hrd hne.symm (Nat.mod_lt j (by decide)) (by omega) hindex
  · rintro rfl
    exact s.writeXYZ_coord rd

end Sys2Proof.Machine
end

section
/-! GESMB (`41_curve_scalar.md` R137 to R139). -/

namespace Sys2Proof.Machine

/-- `41_curve_scalar.md` R139: the draw is not 0. -/
theorem one_le_freeLambda (n : Nat) : 1 ≤ (freeLambda n).val := Nat.le_add_right 1 _

theorem exec_gesmb_fits {rs1 : RegField} {s : State} (rd : RegField) (h : s.operand rs1 + 32 ≤ 1024) :
    exec (.gesmb rd rs1) s = .next (s.countDraw.writeExtended rd
      (scalarMul (le (s.memRead (s.operand rs1) 32)) basePoint) (freeLambda s.draws)) := by
  have hbuf : inBuf (s.operand rs1) 32 := h
  simp only [exec, execGesmb, if_pos hbuf, retire_ok]

/-- `41_curve_scalar.md` R138: `X Y = Z T` for every `Z`. -/
theorem extended_XY_eq_ZT (z x y : Elem) :
    fieldMul (fieldMul z x) (fieldMul z y) = fieldMul z (fieldMul (fieldMul z x) y) := by
  apply elem_ext_cast
  simp only [cast_fieldMul]
  ring

/-- Settles O35, by the four coordinates `writeExtended` leaves. -/
theorem gesmbDeliversARepresentative : Obligations.GesmbDeliversARepresentative := by
  unfold Obligations.GesmbDeliversARepresentative
  intro rd rs1 s _
  refine ⟨encR_eq_commandWord 0x22#8 rd rs1 0#4, fun hfits => ?_, retire_source_outside⟩
  obtain ⟨hX, hY, hZ, hT⟩ := s.countDraw.coord_writeExtended rd
    (scalarMul (le (s.memRead (s.operand rs1) 32)) basePoint) (freeLambda s.draws)
  refine ⟨_, _, _, exec_gesmb_fits rd hfits, rfl, one_le_freeLambda s.draws, (freeLambda s.draws).isLt, ?_, ?_,
    congrArg Fin.val hZ, ?_, ?_, s.countDraw.writeExtended_onlyFieldRegs rd _ _⟩
  · rw [hX, fieldMul_val]
  · rw [hY, fieldMul_val]
  · rw [hT, fieldMul_val, fieldMul_val, Nat.mod_mul_mod]
  · rw [hX, hY, hZ, hT, ← fieldMul_val, ← fieldMul_val, extended_XY_eq_ZT]

end Sys2Proof.Machine
end

section
/-! The compression of a point (`41_curve_scalar.md` R140). -/

namespace Sys2Proof.Machine

open Sys2Proof.Laws (p_prime)

@[simp] theorem compressAffine_length (x y : Elem) : (compressAffine x y).length = 32 := by
  simp [compressAffine]

@[simp] theorem compress_length (X Y Z : Elem) : (compress X Y Z).length = 32 := compressAffine_length _ _

/-- Bit 7 of a byte that has it clear. -/
theorem byte_or_topBit {b : Byte} (hb : b.toNat < 2 ^ 7) {n : Nat} (hn : n < 2) :
    (b ||| BitVec.ofNat 8 n <<< 7).toNat = b.toNat + 2 ^ 7 * n := by
  have hshift : (BitVec.ofNat 8 n <<< 7).toNat = n <<< 7 := by
    rw [BitVec.toNat_shiftLeft, BitVec.toNat_ofNat, Nat.shiftLeft_eq, Nat.shiftLeft_eq]
    omega
  rw [BitVec.toNat_or, hshift, Nat.or_comm, ← Nat.shiftLeft_add_eq_or_of_lt hb, Nat.shiftLeft_eq]
  ring

/-- The value of a compressed point: `y` in bits 254:0, the sign of `x` in bit 255. -/
theorem le_compressAffine (x y : Elem) : le (compressAffine x y) = y.val + 2 ^ 255 * (x.val % 2) := by
  have hmodify := le_modify (encodeElem y) 31 (fun b => b ||| (BitVec.ofNat 8 (x.val % 2) <<< 7)) (by simp)
  rw [byte_or_topBit (encodeElem_topByte_lt y) (Nat.mod_lt _ two_pos), le_encodeElem] at hmodify
  rw [compressAffine]
  omega

/-- `41_curve_scalar.md` R140: `inv` gives 0 for `Z = 0`, so both coordinates are 0. -/
theorem compress_of_Z_zero (X Y : Elem) {Z : Elem} (hZ : Z.val = 0) : compress X Y Z = List.replicate 32 0#8 := by
  have hzero : ∀ V, fieldMul V (fieldInv Z) = elemOfNat 0 := fun V => by
    apply elem_ext_cast
    rw [cast_fieldMul, fieldInv_zero hZ, cast_elemOfNat, Nat.cast_zero, mul_zero]
  rw [compress, hzero, hzero]
  decide

/-- A factor common to a coordinate and to `Z` is no part of their quotient. -/
theorem fieldMul_fieldInv_scaled {l : Elem} (hl : l.val ≠ 0) (V Z : Elem) :
    fieldMul (fieldMul l V) (fieldInv (fieldMul l Z)) = fieldMul V (fieldInv Z) := by
  have := Fact.mk p_prime
  apply elem_ext_cast
  simp only [cast_fieldMul, cast_fieldInv, ← div_eq_mul_inv]
  exact mul_div_mul_left _ _ (cast_ne_zero_of_val_ne_zero hl)

/-- `41_curve_scalar.md` R140: the output does not depend on the representative. -/
theorem compress_scaled {l : Elem} (hl : l.val ≠ 0) (X Y Z : Elem) :
    compress (fieldMul l X) (fieldMul l Y) (fieldMul l Z) = compress X Y Z := by
  simp only [compress, fieldMul_fieldInv_scaled hl]

/-- The quotient by `Z` undoes the product with `Z`. -/
theorem fieldMul_mul_fieldInv {z : Elem} (hz : z.val ≠ 0) (v : Elem) :
    fieldMul (fieldMul z v) (fieldInv z) = v := by
  have := Fact.mk p_prime
  apply elem_ext_cast
  rw [cast_fieldMul, cast_fieldMul, cast_fieldInv, ← div_eq_mul_inv]
  exact mul_div_cancel_left₀ _ (cast_ne_zero_of_val_ne_zero hz)

/-- A representative of an affine point compresses like the point. -/
theorem compress_representative {z : Elem} (hz : z.val ≠ 0) (P : Point) :
    compress (fieldMul z P.x) (fieldMul z P.y) z = compressAffine P.x P.y := by
  simp only [compress, fieldMul_mul_fieldInv hz]

end Sys2Proof.Machine
end

section
/-! GECOMP, and GECOMP after GESMB (`41_curve_scalar.md` R139, R140, R142). -/

namespace Sys2Proof.Machine

theorem exec_gecomp_fits {rd : RegField} {s : State} (rs1 : RegField) (h : s.operand rd + 32 ≤ 1024) :
    ∃ t, exec (.gecomp rd rs1) s = .next t ∧
      Stores (s.operand rd) (compress (s.coord rs1 0#4) (s.coord rs1 1#4) (s.coord rs1 2#4)) s t :=
  retire_storeOutput_fits (by rwa [compress_length])

theorem exec_gecomp_outside {rd : RegField} {s : State} (rs1 : RegField) (h : s.operand rd + 32 > 1024) :
    ∃ t, exec (.gecomp rd rs1) s = .next t ∧ EntersError .contractViolation (encode (.gecomp rd rs1)) s t :=
  retire_storeOutput_outside (by rwa [compress_length])

/-- Settles O39, by what GECOMP stores: the compression, whose value is `le_compressAffine`'s. -/
theorem gecompCompressesThePoint : Obligations.GecompCompressesThePoint := by
  unfold Obligations.GecompCompressesThePoint
  refine ⟨fun l X Y Z hl => compress_scaled hl X Y Z, fun rd rs1 s _ => ?_⟩
  refine ⟨encR_eq_commandWord 0x24#8 rd rs1 0#4, fun hfits => ?_, exec_gecomp_outside rs1⟩
  obtain ⟨t, ht, hstores⟩ := exec_gecomp_fits rs1 hfits
  obtain ⟨hread, holen, hframe⟩ := hstores.thirtyTwo (compress_length _ _ _)
  refine ⟨t, ht, ?_, fun hZ i hi => ?_, holen, hframe⟩
  · rw [hread, compress, le_compressAffine, fieldMul_val, fieldMul_val, fieldInv_val]
  · rw [hstores.byte_eq (by rwa [compress_length])]
    simp only [compress_of_Z_zero _ _ hZ, List.getElem_replicate]

@[simp] theorem State.operand_writeExtended (s : State) (k : RegField) (P : Point) (z : Elem) (j : RegField) :
    (s.writeExtended k P z).operand j = s.operand j := rfl

theorem compress_coord_writeExtended (s : State) (k : RegField) (P : Point) {z : Elem} (hz : z.val ≠ 0) :
    compress ((s.writeExtended k P z).coord k 0#4) ((s.writeExtended k P z).coord k 1#4)
      ((s.writeExtended k P z).coord k 2#4) = compressAffine P.x P.y := by
  obtain ⟨hX, hY, hZ, -⟩ := s.coord_writeExtended k P z
  rw [hX, hY, hZ, compress_representative hz]

/-- `41_curve_scalar.md` R139: GECOMP after GESMB stores the compression of the affine point, whatever the draw. -/
theorem exec_gesmb_gecomp {rs1 rd : RegField} {s : State} {P : Point} (pd : RegField)
    (hsrc : s.operand rs1 + 32 ≤ 1024) (hdst : s.operand rd + 32 ≤ 1024)
    (hP : P = scalarMul (le (s.memRead (s.operand rs1) 32)) basePoint) :
    ∃ t u, exec (.gesmb pd rs1) s = .next t ∧ exec (.gecomp rd pd) t = .next u ∧
      u.memRead (s.operand rd) 32 = compressAffine P.x P.y := by
  have ht := exec_gesmb_fits pd hsrc
  rw [← hP] at ht
  obtain ⟨u, hu, hstores⟩ := exec_gecomp_fits (s := s.countDraw.writeExtended pd P (freeLambda s.draws)) pd hdst
  rw [compress_coord_writeExtended _ _ _ (Nat.ne_of_gt (one_le_freeLambda s.draws))] at hstores
  exact ⟨_, u, ht, hu, (hstores.thirtyTwo (compressAffine_length _ _)).1⟩

/-- Settles O40, by the value of the compression of the affine point. -/
theorem gesmbThenGecompIsIndependentOfTheDraw : Obligations.GesmbThenGecompIsIndependentOfTheDraw := by
  unfold Obligations.GesmbThenGecompIsIndependentOfTheDraw
  intro pd rs1 rd s P hsrc hdst hP
  obtain ⟨t, u, ht, hu, hread⟩ := exec_gesmb_gecomp pd hsrc hdst hP
  exact ⟨t, u, ht, hu, by rw [hread, le_compressAffine]⟩

/-- Zero bytes above a string leave its value. -/
theorem le_append_zeros (bs : List Byte) (n : Nat) : le (bs ++ List.replicate n 0#8) = le bs := by
  have hzeros : le (List.replicate n 0#8) = 0 := by
    induction n with
    | zero => rfl
    | succ n ih => rw [List.replicate_succ, le, ih]; rfl
  rw [le_append, hzeros, mul_zero, add_zero]

/-- Settles O41: both ways store the compression of one affine point, since `[k]B = [k mod L]B`
(`scalarMul_mod_groupOrder`). -/
theorem reducedScalarGivesTheSamePoint : Obligations.ReducedScalarGivesTheSamePoint := by
  unfold Obligations.ReducedScalarGivesTheSamePoint
  intro pd rs1 rz rr rd s hrs1 hrz hrr hrd hextended
  obtain ⟨t, u, ht, hu, hread⟩ := exec_gesmb_gecomp pd hrs1 hrd rfl
  obtain ⟨a, ha, hstores⟩ := exec_scred_fits hrz hrr
  have hoperand := hstores.operand_eq
  obtain ⟨hreduced, -, -⟩ := hstores.thirtyTwo (reduceScalar_length _)
  have hpoint : scalarMul (le (s.memRead (s.operand rs1) 32)) basePoint
      = scalarMul (le (a.memRead (a.operand rr) 32)) basePoint := by
    rw [hoperand, hreduced, le_reduceScalar, hextended, le_append_zeros, scalarMul_mod_groupOrder]
  obtain ⟨b, c, hb, hc, hread'⟩ :=
    exec_gesmb_gecomp pd ((hoperand rr).symm ▸ hrr) ((hoperand rd).symm ▸ hrd) hpoint
  rw [hoperand] at hread'
  exact ⟨t, u, a, b, c, ht, hu, ha, hb, hc, hread.trans hread'.symm⟩

end Sys2Proof.Machine
end
section
/-! The tables of Base58 (`42_base58.md` R160 to R163). -/

namespace Sys2Proof.Machine

/-- `42_base58.md` R160: every digit has a character. -/
theorem alphabet_getElem?_eq_digitChar : ∀ i < 58, alphabet[i]? = some (digitChar i) := by decide

/-- `42_base58.md` R160, R163: no character stands twice in the alphabet. -/
theorem digit_digitChar : ∀ i < 58, digit (digitChar i) = some i := by decide

/-- `42_base58.md` R161: the characters of a block can hold every value of its bytes. -/
theorem pow_256_le_pow_58_encodedLength : ∀ n ≤ 8, 256 ^ n ≤ 58 ^ encodedLength n := by decide

/-- `42_base58.md` R162: the reverse table inverts the table. -/
theorem rawLength_encodedLength : ∀ n ≤ 8, rawLength (encodedLength n) = some n := by decide

theorem encodedLength_lt_eleven : ∀ n < 8, encodedLength n < 11 := by decide

theorem encodedLength_pos : ∀ n ≤ 8, 0 < n → 0 < encodedLength n := by decide

/-- `42_base58.md` R167: the sizes of one group. -/
theorem exists_encodedLength_of_mem :
    ∀ m ∈ [2, 3, 5, 6, 7, 9, 10, 11], ∃ n ≤ 8, 0 < n ∧ encodedLength n = m := by decide

/-- `42_base58.md` R169: the sizes of the tail of a text. -/
theorem exists_encodedLength_of_remainder :
    ∀ m < 11, m ∉ [1, 4, 8] → ∃ r ≤ 7, encodedLength r = m := by decide

theorem rawLength_of_mem_invalid : ∀ m ∈ [1, 4, 8], rawLength m = none := by decide

/-- `42_base58.md` R162: the sizes that no block has. -/
theorem rawLength_eq_none {m : Nat} (h : m ∉ [0, 2, 3, 5, 6, 7, 9, 10, 11]) : rawLength m = none := by
  unfold rawLength
  split
  case h_10 => rfl
  all_goals exact absurd (by decide) h

end Sys2Proof.Machine
end

section
/-! A block and its base-58 digits (`42_base58.md` R164). -/

namespace Sys2Proof.Machine

/-- The `m` base-58 digits of `v`, the most significant first. -/
def base58Digits (v m : Nat) : List Nat := (List.range m).map (fun j => v / 58 ^ (m - 1 - j) % 58)

/-- The value Horner's rule (`42_base58.md` R166) reaches from `v` over the digits `ds`. -/
def horner (v : Nat) (ds : List Nat) : Nat := ds.foldl (fun v x => v * 58 + x) v

theorem horner_cons (v x : Nat) (ds : List Nat) : horner v (x :: ds) = horner (v * 58 + x) ds := rfl

theorem horner_append_singleton (v : Nat) (ds : List Nat) (x : Nat) :
    horner v (ds ++ [x]) = horner v ds * 58 + x :=
  List.foldl_concat _ _ _ _

theorem base58Digits_succ (v m : Nat) : base58Digits v (m + 1) = base58Digits (v / 58) m ++ [v % 58] := by
  rw [base58Digits, List.range_succ, List.map_append, base58Digits, List.map_singleton]
  congr 1
  · refine List.map_congr_left fun j hj => ?_
    have hj := List.mem_range.1 hj
    rw [Nat.div_div_eq_div_mul, ← pow_succ', show m + 1 - 1 - j = m - 1 - j + 1 by omega]
  · simp

theorem base58Digits_lt {v m x : Nat} (h : x ∈ base58Digits v m) : x < 58 := by
  obtain ⟨j, -, rfl⟩ := List.mem_map.1 h
  exact Nat.mod_lt _ (by decide)

/-- Horner's rule gives back the value whose digits it is given. -/
theorem horner_base58Digits (v m : Nat) : horner 0 (base58Digits v m) = v % 58 ^ m := by
  induction m generalizing v with
  | zero => exact (Nat.mod_one v).symm
  | succ m ih =>
    rw [base58Digits_succ, horner_append_singleton, ih, pow_succ', Nat.mod_mul, Nat.mul_comm, Nat.add_comm]

theorem encodeBlock_eq_map (b : List Byte) :
    encodeBlock b = (base58Digits (be b) (encodedLength b.length)).map digitChar := by
  rw [encodeBlock, base58Digits, List.map_map]
  rfl

@[simp] theorem encodeBlock_length (b : List Byte) : (encodeBlock b).length = encodedLength b.length := by
  simp [encodeBlock]

/-- `42_base58.md` R164: no block's value fails to fit its characters. -/
theorem be_lt_pow_encodedLength {b : List Byte} (h : b.length ≤ 8) : be b < 58 ^ encodedLength b.length :=
  (be_lt b).trans_le (pow_256_le_pow_58_encodedLength _ h)

theorem map_digit_encodeBlock (b : List Byte) :
    (encodeBlock b).map digit = (base58Digits (be b) (encodedLength b.length)).map some := by
  rw [encodeBlock_eq_map, List.map_map]
  exact List.map_congr_left fun x hx => digit_digitChar x (base58Digits_lt hx)

/-- Settles O42: the value is below `256^n` and so fits, and a digit modulo 58 has a character. -/
theorem encodeBlockWritesTheDigits : Obligations.EncodeBlockWritesTheDigits := by
  unfold Obligations.EncodeBlockWritesTheDigits
  intro b _ hlen
  refine ⟨encodeBlock_length b, be_lt_pow_encodedLength hlen, fun j hj => ?_⟩
  rw [alphabet_getElem?_eq_digitChar _ (Nat.mod_lt _ (by decide)), encodeBlock, List.getElem?_map,
    List.getElem?_range hj, Option.map_some]

end Sys2Proof.Machine
end

section
/-! Horner's rule and the bytes of a group (`42_base58.md` R166). -/

namespace Sys2Proof.Machine

/-- The running value never falls. -/
theorem le_horner (v : Nat) (ds : List Nat) : v ≤ horner v ds := by
  induction ds generalizing v with
  | nil => exact le_rfl
  | cons x ds ih =>
    have hstep := ih (v * 58 + x)
    rw [horner_cons]
    omega

theorem decodeDigits_cons {c : Byte} {x : Nat} (hc : digit c = some x) (v : Nat) (cs : List Byte) :
    decodeDigits v (c :: cs)
      = if v * 58 + x > 2 ^ 64 - 1 then .error .overflow else decodeDigits (v * 58 + x) cs := by
  simp only [decodeDigits, hc]

theorem decodeDigits_cons_invalid {c : Byte} (hc : digit c = none) (v : Nat) (cs : List Byte) :
    decodeDigits v (c :: cs) = .error .invalidDigit := by
  simp only [decodeDigits, hc]

/-- As long as the value stays in range the loop runs through the characters that have digits. -/
theorem decodeDigits_append {t : List Byte} {ds : List Nat} {v : Nat} (hds : t.map digit = ds.map some)
    (hv : horner v ds ≤ 2 ^ 64 - 1) (rest : List Byte) :
    decodeDigits v (t ++ rest) = decodeDigits (horner v ds) rest := by
  induction t generalizing v ds with
  | nil =>
    obtain rfl : ds = [] := by simpa using hds.symm
    rfl
  | cons c t ih =>
    obtain ⟨x, ds, rfl⟩ : ∃ x es, ds = x :: es := List.exists_cons_of_ne_nil (by rintro rfl; simp at hds)
    obtain ⟨hc, ht⟩ := List.cons.inj hds
    rw [horner_cons] at hv ⊢
    have hle := le_horner (v * 58 + x) ds
    rw [List.cons_append, decodeDigits_cons hc, if_neg (by omega), ih ht hv]

/-- `42_base58.md` R166: once the value is out of range, what follows makes no difference. -/
theorem decodeDigits_overflow {t : List Byte} {ds : List Nat} {v : Nat} (hds : t.map digit = ds.map some)
    (hstart : v ≤ 2 ^ 64 - 1) (hv : horner v ds > 2 ^ 64 - 1) (rest : List Byte) :
    decodeDigits v (t ++ rest) = .error .overflow := by
  induction t generalizing v ds with
  | nil =>
    obtain rfl : ds = [] := by simpa using hds.symm
    exact absurd hstart (Nat.not_le_of_gt hv)
  | cons c t ih =>
    obtain ⟨x, ds, rfl⟩ : ∃ x es, ds = x :: es := List.exists_cons_of_ne_nil (by rintro rfl; simp at hds)
    obtain ⟨hc, ht⟩ := List.cons.inj hds
    rw [List.cons_append, decodeDigits_cons hc]
    split
    next => rfl
    next hnext => exact ih ht (Nat.le_of_not_gt hnext) hv

theorem toBE_drop (v : Nat) {n m : Nat} (h : n ≤ m) : (toBE v m).drop (m - n) = toBE v n := by
  rw [toBE, List.drop_reverse, toLE_length, Nat.sub_sub_self h, toLE_take v h, toBE]

theorem toBE_mod (v n : Nat) : toBE (v % 2 ^ (8 * n)) n = toBE v n := by
  rw [pow_mul, toBE, show 2 ^ 8 = 256 from rfl, toLE_mod, toBE]

theorem decodeGroup_of_digits {t : List Byte} {v n : Nat} (hn : n ≤ 8) (h : decodeDigits 0 t = .ok v) :
    decodeGroup t n = .ok (toBE v n) := by
  simp only [decodeGroup, h, toBE_drop v hn]

theorem decodeGroup_of_digits_error {t : List Byte} {e : ErrKind} (n : Nat) (h : decodeDigits 0 t = .error e) :
    decodeGroup t n = .error e := by
  simp only [decodeGroup, h]

theorem decodeGroup_length {t out : List Byte} {n : Nat} (hn : n ≤ 8) (h : decodeGroup t n = .ok out) :
    out.length = n := by
  cases hdigits : decodeDigits 0 t with
  | error e => simp [decodeGroup_of_digits_error n hdigits] at h
  | ok v =>
    rw [decodeGroup_of_digits hn hdigits] at h
    rw [← Except.ok.inj h, toBE_length]

/-- A group whose characters all have digits and whose value is in range. -/
theorem decodeGroup_of_horner {t : List Byte} {ds : List Nat} {n : Nat} (hn : n ≤ 8)
    (hds : t.map digit = ds.map some) (hv : horner 0 ds ≤ 2 ^ 64 - 1) :
    decodeGroup t n = .ok (toBE (horner 0 ds) n) := by
  have hdigits := decodeDigits_append hds hv []
  rw [List.append_nil] at hdigits
  exact decodeGroup_of_digits hn hdigits

/-- Settles O43, by the run of the loop over the characters that have digits: to its end
(`decodeDigits_append`), or to the first value out of range (`decodeDigits_overflow`). -/
theorem decodeGroupIsHornersRule : Obligations.DecodeGroupIsHornersRule := by
  unfold Obligations.DecodeGroupIsHornersRule
  intro t n ds hn hds
  refine ⟨fun hv => ⟨?_, fun c rest hc => ?_⟩, fun hv rest => ?_⟩
  · rw [toBE_mod]
    exact decodeGroup_of_horner hn hds hv
  · exact decodeGroup_of_digits_error n
      ((decodeDigits_append hds hv (c :: rest)).trans (decodeDigits_cons_invalid hc _ rest))
  · exact decodeGroup_of_digits_error n (decodeDigits_overflow hds (Nat.zero_le _) hv rest)

/-- `42_base58.md` R170, for one block. -/
theorem decodeGroup_encodeBlock {b : List Byte} (h : b.length ≤ 8) :
    decodeGroup (encodeBlock b) b.length = .ok b := by
  have hvalue : horner 0 (base58Digits (be b) (encodedLength b.length)) = be b := by
    rw [horner_base58Digits, Nat.mod_eq_of_lt (be_lt_pow_encodedLength h)]
  have hrange : be b < 256 ^ 8 := (be_lt b).trans_le (Nat.pow_le_pow_right (by decide) h)
  rw [decodeGroup_of_horner h (map_digit_encodeBlock b) (by rw [hvalue]; omega), hvalue, toBE_be]

end Sys2Proof.Machine
end

section
/-! The shared ends of the Base58 commands (`20_memory.md` R56, R57, `60_exceptions.md` R233, R236). -/

namespace Sys2Proof.Machine

theorem retire_error_enters (w : Word) (s : State) (e : ErrKind) :
    ∃ t, retire w s (.error e) = .next t ∧ EntersError e w s t :=
  ⟨_, retire_error s w e, s.enter_entersError e w⟩

/-- The end of a command whose output may be an error met in its data. -/
theorem retire_storeResult (w : Word) (s : State) (x : Nat) (r : Except ErrKind (List Byte)) :
    ∃ t, retire w s (s.storeResult x r) = .next t ∧ (∀ e, r = .error e → EntersError e w s t) ∧
      ∀ out, r = .ok out →
        if x + out.length ≤ 1024 then Stores x out s t else EntersError .contractViolation w s t := by
  cases r with
  | error e =>
    obtain ⟨t, ht, herr⟩ := retire_error_enters w s e
    exact ⟨t, ht, fun _ h => Except.error.inj h ▸ herr, nofun⟩
  | ok out =>
    obtain ⟨t, ht, hend⟩ := retire_storeOutput s w x out
    exact ⟨t, ht, nofun, fun _ h => Except.ok.inj h ▸ hend⟩

theorem Stores.of_length {x n : Nat} {out : List Byte} {s t : State} (h : Stores x out s t) (hlen : out.length = n) :
    t.memRead x n = out ∧ t.olen.toNat = n ∧ OnlyBuffer x n s t := by
  subst hlen
  exact h

end Sys2Proof.Machine
end

section
/-! B58EB (`42_base58.md` R165). -/

namespace Sys2Proof.Machine

section
variable {rs1 rs2 : RegField} {s : State}

theorem exec_b58eb_badLength (rd : RegField) (h : s.operand rs2 < 1 ∨ s.operand rs2 > 8) :
    exec (.b58eb rd rs1 rs2) s = retire (encode (.b58eb rd rs1 rs2)) s (.error .contractViolation) := by
  simp only [exec, execB58eb, if_pos h]

theorem exec_b58eb_of_length (rd : RegField) (h : ¬ (s.operand rs2 < 1 ∨ s.operand rs2 > 8)) :
    exec (.b58eb rd rs1 rs2) s = retire (encode (.b58eb rd rs1 rs2)) s
      (if inBuf (s.operand rs1) (s.operand rs2) then
        s.storeOutput (s.operand rd) (encodeBlock (s.memRead (s.operand rs1) (s.operand rs2)))
      else .error .contractViolation) := by
  simp only [exec, execB58eb, if_neg h]

end

/-- Settles O44, by the checks in their order: the length, the source, and the destination of TAB[n] characters. -/
theorem b58ebEncodesOneBlock : Obligations.B58ebEncodesOneBlock := by
  unfold Obligations.B58ebEncodesOneBlock
  intro rd rs1 rs2 s _
  have hlen : (encodeBlock (s.memRead (s.operand rs1) (s.operand rs2))).length = encodedLength (s.operand rs2) := by
    rw [encodeBlock_length, State.memRead_length]
  refine ⟨encR_eq_commandWord 0x30#8 rd rs1 rs2, fun hlo hhi hsrc hdst => ?_, fun h => ?_⟩
  · rw [exec_b58eb_of_length rd (by omega), if_pos hsrc]
    obtain ⟨t, ht, hstores⟩ := retire_storeOutput_fits (by rwa [hlen])
    obtain ⟨-, holen, -⟩ := hstores.of_length hlen
    exact ⟨t, ht, holen, hstores⟩
  · by_cases hlength : s.operand rs2 < 1 ∨ s.operand rs2 > 8
    · rw [exec_b58eb_badLength rd hlength]
      exact retire_error_enters _ s _
    rw [exec_b58eb_of_length rd hlength]
    by_cases hsrc : s.operand rs1 + s.operand rs2 > 1024
    · exact retire_source_outside hsrc
    · rw [if_pos (Nat.le_of_not_gt hsrc)]
      exact retire_storeOutput_outside (by rw [hlen]; omega)

end Sys2Proof.Machine
end

section
/-! B58DB (`42_base58.md` R167). -/

namespace Sys2Proof.Machine

section
variable {rs1 rs2 : RegField} {s : State}

theorem exec_b58db_badSize (rd : RegField) (hsrc : inBuf (s.operand rs1) (s.operand rs2))
    (h : s.operand rs2 ∉ [2, 3, 5, 6, 7, 9, 10, 11]) :
    exec (.b58db rd rs1 rs2) s = retire (encode (.b58db rd rs1 rs2)) s (.error .invalidEncodedSize) := by
  by_cases hzero : s.operand rs2 = 0
  · simp only [exec, execB58db, if_pos hsrc, if_pos hzero]
  · have hnone : rawLength (s.operand rs2) = none :=
      rawLength_eq_none (List.not_mem_cons_of_ne_of_not_mem hzero h)
    simp only [exec, execB58db, if_pos hsrc, if_neg hzero, hnone]

theorem exec_b58db_of_size (rd : RegField) {n : Nat} (hsrc : inBuf (s.operand rs1) (s.operand rs2)) (hn : n ≤ 8)
    (hpos : 0 < n) (h : encodedLength n = s.operand rs2) :
    exec (.b58db rd rs1 rs2) s = retire (encode (.b58db rd rs1 rs2)) s
      (s.storeResult (s.operand rd) (decodeGroup (s.memRead (s.operand rs1) (s.operand rs2)) n)) := by
  have hne : s.operand rs2 ≠ 0 := h ▸ (encodedLength_pos n hn hpos).ne'
  have hraw : rawLength (s.operand rs2) = some n := h ▸ rawLength_encodedLength n hn
  simp only [exec, execB58db, if_pos hsrc, if_neg hne, hraw]

end

/-- Settles O45, by the checks in their order: the source, the size, the characters, the destination. -/
theorem b58dbDecodesOneGroup : Obligations.B58dbDecodesOneGroup := by
  unfold Obligations.B58dbDecodesOneGroup
  rintro rd rs1 rs2 s _ _ _ _ _ rfl rfl rfl rfl
  refine ⟨encR_eq_commandWord 0x31#8 rd rs1 rs2, ?_⟩
  by_cases hsrc : s.operand rs1 + s.operand rs2 ≤ 1024
  case neg =>
    obtain ⟨t, ht, herr⟩ : ∃ t, exec (.b58db rd rs1 rs2) s = .next t ∧
        EntersError .contractViolation (encode (.b58db rd rs1 rs2)) s t := retire_source_outside (Nat.lt_of_not_le hsrc)
    exact ⟨t, ht, fun _ => herr, fun h => absurd h hsrc, fun h => absurd h hsrc⟩
  by_cases hsize : s.operand rs2 ∈ [2, 3, 5, 6, 7, 9, 10, 11]
  case neg =>
    obtain ⟨t, ht, herr⟩ := retire_error_enters (encode (.b58db rd rs1 rs2)) s .invalidEncodedSize
    exact ⟨t, (exec_b58db_badSize rd hsrc hsize).trans ht, fun h => absurd hsrc (Nat.not_le_of_gt h),
      fun _ _ => herr, fun _ h => absurd h hsize⟩
  obtain ⟨n, hn, hpos, hencoded⟩ := exists_encodedLength_of_mem _ hsize
  obtain ⟨t, ht, herr, hok⟩ := retire_storeResult (encode (.b58db rd rs1 rs2)) s (s.operand rd)
    (decodeGroup (s.memRead (s.operand rs1) (s.operand rs2)) n)
  refine ⟨t, (exec_b58db_of_size rd hsrc hn hpos hencoded).trans ht, fun h => absurd hsrc (Nat.not_le_of_gt h),
    fun _ h => absurd hsize h, fun _ _ => ⟨n, hencoded, hn, ?_⟩⟩
  cases hgroup : decodeGroup (s.memRead (s.operand rs1) (s.operand rs2)) n with
  | error e => exact herr e hgroup
  | ok out =>
    have hlen := decodeGroup_length hn hgroup
    exact ⟨hlen, hlen ▸ hok out hgroup⟩

end Sys2Proof.Machine
end

section
/-! The encoding of a byte string, block by block (`42_base58.md` R168). -/

namespace Sys2Proof.Machine

theorem length_flatMap_range {f : Nat → List Byte} {c q : Nat} (hf : ∀ i < q, (f i).length = c) :
    ((List.range q).flatMap f).length = c * q := by
  rw [List.length_flatMap, List.map_congr_left fun i hi => hf i (List.mem_range.1 hi)]
  simp [Nat.mul_comm]

/-- The chunk `i` of a string of chunks of one length. -/
theorem slice_flatMap_range {f : Nat → List Byte} {c q i : Nat} (hf : ∀ i < q, (f i).length = c) (hi : i < q)
    (rest : List Byte) : slice ((List.range q).flatMap f ++ rest) (c * i) c = f i := by
  induction q generalizing rest with
  | zero => omega
  | succ q ih =>
    rw [List.range_succ, List.flatMap_append, List.flatMap_singleton, List.append_assoc]
    obtain hlt | rfl := Nat.lt_succ_iff_lt_or_eq.1 hi
    · exact ih (fun j hj => hf j (by omega)) hlt _
    · rw [slice, List.drop_left' (length_flatMap_range fun j hj => hf j (by omega)), List.take_left' (hf i hi)]

/-- What stands behind the chunks. -/
theorem slice_flatMap_range_rest {f : Nat → List Byte} {c q n : Nat} (hf : ∀ i < q, (f i).length = c)
    {rest : List Byte} (hrest : rest.length = n) : slice ((List.range q).flatMap f ++ rest) (c * q) n = rest := by
  rw [slice, List.drop_left' (length_flatMap_range hf), List.take_of_length_le hrest.le]

section
variable (src : List Byte)

/-- The empty tail encodes to no character, so it needs no case of its own. -/
theorem encodeBase58_eq : encodeBase58 src
    = (List.range (src.length / 8)).flatMap (fun i => encodeBlock (slice src (8 * i) 8))
      ++ encodeBlock (slice src (8 * (src.length / 8)) (src.length % 8)) := by
  rw [encodeBase58]
  split
  next => rfl
  next h => rw [Nat.eq_zero_of_not_pos h, slice, List.take_zero]; rfl

theorem block_length {i : Nat} (hi : i < src.length / 8) : (slice src (8 * i) 8).length = 8 :=
  slice_length (by omega)

theorem tail_length : (slice src (8 * (src.length / 8)) (src.length % 8)).length = src.length % 8 :=
  slice_length (Nat.div_add_mod _ _).le

theorem encodeBlock_block_length {i : Nat} (hi : i < src.length / 8) :
    (encodeBlock (slice src (8 * i) 8)).length = 11 := by
  rw [encodeBlock_length, block_length src hi]
  rfl

theorem encodeBlock_tail_length : (encodeBlock (slice src (8 * (src.length / 8)) (src.length % 8))).length
    = encodedLength (src.length % 8) := by
  rw [encodeBlock_length, tail_length]

/-- `42_base58.md` R171. -/
theorem encodeBase58_length :
    (encodeBase58 src).length = 11 * (src.length / 8) + encodedLength (src.length % 8) := by
  rw [encodeBase58_eq, List.length_append, length_flatMap_range fun i hi => encodeBlock_block_length src hi,
    encodeBlock_tail_length]

theorem slice_encodeBase58_block {i : Nat} (hi : i < src.length / 8) :
    slice (encodeBase58 src) (11 * i) 11 = encodeBlock (slice src (8 * i) 8) := by
  rw [encodeBase58_eq]
  exact slice_flatMap_range (fun i hi => encodeBlock_block_length src hi) hi _

theorem slice_encodeBase58_tail :
    slice (encodeBase58 src) (11 * (src.length / 8)) (encodedLength (src.length % 8))
      = encodeBlock (slice src (8 * (src.length / 8)) (src.length % 8)) := by
  conv_lhs => rw [encodeBase58_eq]
  exact slice_flatMap_range_rest (fun i hi => encodeBlock_block_length src hi) (encodeBlock_tail_length src)

end

section
variable {rs1 rs2 : RegField} {s : State}

theorem exec_b58enc_of_source (rd : RegField) (h : inBuf (s.operand rs1) (s.operand rs2)) :
    exec (.b58enc rd rs1 rs2) s = retire (encode (.b58enc rd rs1 rs2)) s
      (s.storeOutput (s.operand rd) (encodeBase58 (s.memRead (s.operand rs1) (s.operand rs2)))) := by
  simp only [exec, execB58enc, if_pos h]

theorem exec_b58enc_fits {rd : RegField} (hsrc : s.operand rs1 + s.operand rs2 ≤ 1024)
    (hdst : s.operand rd + (11 * (s.operand rs2 / 8) + encodedLength (s.operand rs2 % 8)) ≤ 1024) :
    ∃ t, exec (.b58enc rd rs1 rs2) s = .next t ∧
      Stores (s.operand rd) (encodeBase58 (s.memRead (s.operand rs1) (s.operand rs2))) s t := by
  rw [exec_b58enc_of_source rd hsrc]
  exact retire_storeOutput_fits (by rwa [encodeBase58_length, State.memRead_length])

theorem exec_b58enc_outside {rd : RegField} (h : s.operand rs1 + s.operand rs2 > 1024 ∨
      s.operand rd + (11 * (s.operand rs2 / 8) + encodedLength (s.operand rs2 % 8)) > 1024) :
    ∃ t, exec (.b58enc rd rs1 rs2) s = .next t ∧
      EntersError .contractViolation (encode (.b58enc rd rs1 rs2)) s t := by
  by_cases hsrc : inBuf (s.operand rs1) (s.operand rs2)
  · rw [exec_b58enc_of_source rd hsrc]
    refine retire_storeOutput_outside ?_
    rw [encodeBase58_length, State.memRead_length]
    exact h.resolve_left (Nat.not_lt_of_ge hsrc)
  · exact retire_source_outside (Nat.lt_of_not_le hsrc)

end

/-- Settles O46, by what B58ENC stores: the parts of the encoding are the encodings of the blocks and of the tail. -/
theorem b58encEncodesByBlocks : Obligations.B58encEncodesByBlocks := by
  unfold Obligations.B58encEncodesByBlocks
  rintro rd rs1 rs2 s _ _ _ _ _ _ rfl rfl rfl rfl rfl
  refine ⟨encR_eq_commandWord 0x32#8 rd rs1 rs2, fun hsrc hdst => ?_, exec_b58enc_outside⟩
  obtain ⟨t, ht, hstores⟩ := exec_b58enc_fits hsrc hdst
  have hread := State.memRead_length s (s.operand rs1) (s.operand rs2)
  have hlen := encodeBase58_length (s.memRead (s.operand rs1) (s.operand rs2))
  have htail := slice_encodeBase58_tail (s.memRead (s.operand rs1) (s.operand rs2))
  rw [hread] at hlen htail
  obtain ⟨-, holen, hframe⟩ := hstores.of_length hlen
  refine ⟨t, ht, holen, hframe, fun i hi => ?_, fun _ => ?_⟩
  · rw [hstores.memRead_eq (by omega), slice_encodeBase58_block _ (by rwa [hread]), State.slice_memRead s (by omega)]
  · rw [hstores.memRead_eq hlen.ge, htail, State.slice_memRead s (Nat.div_add_mod _ _).le]

end Sys2Proof.Machine
end

section
/-! The decoding of a list of groups (`42_base58.md` R169). -/

namespace Sys2Proof.Machine

theorem decodeGroups_cons_ok {t out : List Byte} {n : Nat} (h : decodeGroup t n = .ok out)
    (gs : List (List Byte × Nat)) : decodeGroups ((t, n) :: gs) = (decodeGroups gs).map (out ++ ·) := by
  rw [decodeGroups, h]
  cases decodeGroups gs <;> rfl

theorem decodeGroups_cons_error {t : List Byte} {n : Nat} {e : ErrKind} (h : decodeGroup t n = .error e)
    (gs : List (List Byte × Nat)) : decodeGroups ((t, n) :: gs) = .error e := by
  simp only [decodeGroups, h]

/-- Groups that all decode give their bytes one after the other. -/
theorem decodeGroups_of_forall_ok {gs : List (List Byte × Nat)} {bs : List (List Byte)}
    (h : gs.map (fun g => decodeGroup g.1 g.2) = bs.map .ok) : decodeGroups gs = .ok bs.flatten := by
  induction gs generalizing bs with
  | nil =>
    obtain rfl : bs = [] := by simpa using h.symm
    rfl
  | cons g gs ih =>
    obtain ⟨b, bs, rfl⟩ : ∃ b cs, bs = b :: cs := List.exists_cons_of_ne_nil (by rintro rfl; simp at h)
    obtain ⟨hg, hgs⟩ := List.cons.inj h
    rw [decodeGroups_cons_ok hg, ih hgs]
    rfl

/-- The first group from the left that fails gives the error. -/
theorem decodeGroups_of_first_error {gs : List (List Byte × Nat)} {k : Nat} {e : ErrKind}
    (hk : (gs.map (fun g => decodeGroup g.1 g.2))[k]? = some (.error e))
    (hbefore : ∀ j < k, ∃ b, (gs.map (fun g => decodeGroup g.1 g.2))[j]? = some (.ok b)) :
    decodeGroups gs = .error e := by
  induction gs generalizing k with
  | nil => simp at hk
  | cons g gs ih =>
    cases k with
    | zero => exact decodeGroups_cons_error (Option.some.inj hk) gs
    | succ k =>
      obtain ⟨b, hb⟩ := hbefore 0 (Nat.succ_pos k)
      rw [decodeGroups_cons_ok (Option.some.inj hb), ih hk fun j hj => hbefore (j + 1) (Nat.succ_lt_succ hj)]
      rfl

/-- Each group gives its raw length. -/
theorem decodeGroups_length {gs : List (List Byte × Nat)} {out : List Byte} (hgs : ∀ g ∈ gs, g.2 ≤ 8)
    (h : decodeGroups gs = .ok out) : out.length = (gs.map Prod.snd).sum := by
  induction gs generalizing out with
  | nil => rw [← Except.ok.inj h]; rfl
  | cons g gs ih =>
    obtain ⟨hg, hgs⟩ := List.forall_mem_cons.1 hgs
    cases hfirst : decodeGroup g.1 g.2 with
    | error e => rw [decodeGroups_cons_error hfirst] at h; cases h
    | ok b =>
      rw [decodeGroups_cons_ok hfirst] at h
      cases hrest : decodeGroups gs with
      | error e => rw [hrest] at h; cases h
      | ok bs =>
        rw [hrest] at h
        rw [← Except.ok.inj h, List.length_append, decodeGroup_length hg hfirst, ih hgs hrest, List.map_cons,
          List.sum_cons]

end Sys2Proof.Machine
end

section
/-! The groups of a text (`42_base58.md` R169), and the round trip (R170). -/

namespace Sys2Proof.Machine

/-- The groups of a text whose tail has the raw length `r`, each with its raw length. -/
def textGroups (txt : List Byte) (r : Nat) : List (List Byte × Nat) :=
  (List.range (txt.length / 11)).map (fun i => (slice txt (11 * i) 11, 8))
    ++ (if txt.length % 11 > 0 then [(slice txt (11 * (txt.length / 11)) (txt.length % 11), r)] else [])

theorem textGroups_rawLength_le (txt : List Byte) {r : Nat} (hr : r ≤ 8) {g : List Byte × Nat}
    (hg : g ∈ textGroups txt r) : g.2 ≤ 8 := by
  obtain hg | hg := List.mem_append.1 hg
  · obtain ⟨i, -, rfl⟩ := List.mem_map.1 hg
    exact le_rfl
  · obtain ⟨-, hg⟩ := List.mem_ite_nil_right.1 hg
    rw [List.mem_singleton.1 hg]
    exact hr

theorem sum_textGroups (txt : List Byte) {r : Nat} (hr : txt.length % 11 = 0 → r = 0) :
    ((textGroups txt r).map Prod.snd).sum = 8 * (txt.length / 11) + r := by
  rw [textGroups, List.map_append, List.sum_append, List.map_map]
  congr 1
  · simp [Function.comp_def, Nat.mul_comm]
  · split
    next => simp
    next h => exact (hr (Nat.eq_zero_of_not_pos h)).symm

theorem decodeBase58_of_size {txt : List Byte} {r : Nat} (h : rawLength (txt.length % 11) = some r) :
    decodeBase58 txt = decodeGroups (textGroups txt r) := by
  simp only [decodeBase58, h, textGroups]

theorem decodeBase58_badSize {txt : List Byte} (h : rawLength (txt.length % 11) = none) :
    decodeBase58 txt = .error .invalidEncodedSize := by
  simp only [decodeBase58, h]

/-- `42_base58.md` R171. -/
theorem decodeBase58_length {txt out : List Byte} {r : Nat} (hr : r ≤ 8) (hsize : encodedLength r = txt.length % 11)
    (h : decodeBase58 txt = .ok out) : out.length = 8 * (txt.length / 11) + r := by
  rw [decodeBase58_of_size (hsize ▸ rawLength_encodedLength r hr)] at h
  rw [decodeGroups_length (fun g hg => textGroups_rawLength_le txt hr hg) h,
    sum_textGroups txt fun hzero => Nat.eq_zero_of_not_pos fun hpos =>
      (encodedLength_pos r hr hpos).ne' (hsize.trans hzero)]

/-- The blocks of a byte string and its tail. -/
def rawBlocks (src : List Byte) : List (List Byte) :=
  (List.range (src.length / 8)).map (fun i => slice src (8 * i) 8)
    ++ (if src.length % 8 > 0 then [slice src (8 * (src.length / 8)) (src.length % 8)] else [])

theorem flatten_map_slice (src : List Byte) (c q : Nat) :
    ((List.range q).map (fun i => slice src (c * i) c)).flatten = src.take (c * q) := by
  induction q with
  | zero => rfl
  | succ q ih =>
    rw [List.range_succ, List.map_append, List.flatten_append, ih, Nat.mul_succ, List.take_add]
    simp [slice]

theorem flatten_rawBlocks (src : List Byte) : (rawBlocks src).flatten = src := by
  rw [rawBlocks, List.flatten_append, flatten_map_slice]
  conv_rhs => rw [← List.take_append_drop (8 * (src.length / 8)) src]
  congr 1
  split
  next => rw [List.flatten_singleton, slice, List.take_of_length_le (by simp; omega)]
  next => exact (List.drop_eq_nil_of_le (by omega)).symm

theorem decodeGroups_encodeBase58 (src : List Byte) :
    (textGroups (encodeBase58 src) (src.length % 8)).map (fun g => decodeGroup g.1 g.2) = (rawBlocks src).map .ok := by
  have hr : src.length % 8 < 8 := Nat.mod_lt _ (by decide)
  have hlt := encodedLength_lt_eleven _ hr
  have hq : (encodeBase58 src).length / 11 = src.length / 8 := by rw [encodeBase58_length]; omega
  have hm : (encodeBase58 src).length % 11 = encodedLength (src.length % 8) := by rw [encodeBase58_length]; omega
  rw [textGroups, hq, hm, rawBlocks, List.map_append, List.map_append, List.map_map, List.map_map]
  congr 1
  · refine List.map_congr_left fun i hi => ?_
    have hi := List.mem_range.1 hi
    have hblock := decodeGroup_encodeBlock (block_length src hi).le
    rw [block_length src hi] at hblock
    simp only [Function.comp_apply, slice_encodeBase58_block src hi, hblock]
  · rw [slice_encodeBase58_tail]
    have htail := decodeGroup_encodeBlock ((tail_length src).trans_le hr.le)
    rw [tail_length] at htail
    by_cases hpos : src.length % 8 > 0
    · rw [if_pos (encodedLength_pos _ hr.le hpos), if_pos hpos, List.map_singleton, List.map_singleton, htail]
    · rw [Nat.eq_zero_of_not_pos hpos]
      rfl

/-- `42_base58.md` R170. -/
theorem decodeBase58_encodeBase58 (src : List Byte) : decodeBase58 (encodeBase58 src) = .ok src := by
  have hr : src.length % 8 < 8 := Nat.mod_lt _ (by decide)
  have hsize : rawLength ((encodeBase58 src).length % 11) = some (src.length % 8) := by
    rw [encodeBase58_length, Nat.mul_add_mod, Nat.mod_eq_of_lt (encodedLength_lt_eleven _ hr),
      rawLength_encodedLength _ hr.le]
  rw [decodeBase58_of_size hsize, decodeGroups_of_forall_ok (decodeGroups_encodeBase58 src), flatten_rawBlocks]

end Sys2Proof.Machine
end

section
/-! B58DEC, and B58DEC of what B58ENC has stored (`42_base58.md` R169, R170). -/

namespace Sys2Proof.Machine

section
variable {rs1 rs2 : RegField} {s : State}

theorem exec_b58dec_of_source (rd : RegField) (h : inBuf (s.operand rs1) (s.operand rs2)) :
    exec (.b58dec rd rs1 rs2) s = retire (encode (.b58dec rd rs1 rs2)) s
      (s.storeResult (s.operand rd) (decodeBase58 (s.memRead (s.operand rs1) (s.operand rs2)))) := by
  simp only [exec, execB58dec, if_pos h]

end

/-- The outcomes of the groups of a text that stands in BUF, each read where it stands. -/
theorem map_textGroups_memRead (s : State) (x n r : Nat) :
    (textGroups (s.memRead x n) r).map (fun g => decodeGroup g.1 g.2)
      = (List.range (n / 11)).map (fun i => decodeGroup (s.memRead (x + 11 * i) 11) 8)
        ++ (if n % 11 = 0 then [] else [decodeGroup (s.memRead (x + 11 * (n / 11)) (n % 11)) r]) := by
  rw [textGroups, State.memRead_length, List.map_append, List.map_map]
  congr 1
  · refine List.map_congr_left fun i hi => ?_
    have hi := List.mem_range.1 hi
    rw [Function.comp_apply, State.slice_memRead s (by omega)]
  · rw [State.slice_memRead s (Nat.div_add_mod _ _).le]
    by_cases hzero : n % 11 = 0
    · rw [if_pos hzero, if_neg (by omega), List.map_nil]
    · rw [if_neg hzero, if_pos (Nat.pos_of_ne_zero hzero), List.map_singleton]

/-- Settles O47, by the checks in their order: the source, the size, the groups from the left
(`decodeGroups_of_first_error`, `decodeGroups_of_forall_ok`), the destination. -/
theorem b58decDecodesByGroups : Obligations.B58decDecodesByGroups := by
  unfold Obligations.B58decDecodesByGroups
  rintro rd rs1 rs2 s _ _ _ _ _ rfl rfl rfl rfl
  refine ⟨encR_eq_commandWord 0x33#8 rd rs1 rs2, ?_⟩
  by_cases hsrc : s.operand rs1 + s.operand rs2 ≤ 1024
  case neg =>
    obtain ⟨t, ht, herr⟩ : ∃ t, exec (.b58dec rd rs1 rs2) s = .next t ∧
        EntersError .contractViolation (encode (.b58dec rd rs1 rs2)) s t := retire_source_outside (Nat.lt_of_not_le hsrc)
    exact ⟨t, ht, fun _ => herr, fun h => absurd h hsrc, fun h => absurd h hsrc⟩
  have hread := s.memRead_length (s.operand rs1) (s.operand rs2)
  obtain ⟨t, ht, herr, hok⟩ := retire_storeResult (encode (.b58dec rd rs1 rs2)) s (s.operand rd)
    (decodeBase58 (s.memRead (s.operand rs1) (s.operand rs2)))
  refine ⟨t, (exec_b58dec_of_source rd hsrc).trans ht, fun h => absurd hsrc (Nat.not_le_of_gt h),
    fun _ hsize => herr _ (decodeBase58_badSize (hread.symm ▸ rawLength_of_mem_invalid _ hsize)), fun _ hsize => ?_⟩
  obtain ⟨r, hr, hencoded⟩ := exists_encodedLength_of_remainder _ (Nat.mod_lt _ (by decide)) hsize
  have hr8 : r ≤ 8 := Nat.le_succ_of_le hr
  rw [← hread] at hencoded
  have hgroups := decodeBase58_of_size (hencoded ▸ rawLength_encodedLength r hr8)
  have houts := map_textGroups_memRead s (s.operand rs1) (s.operand rs2) r
  refine ⟨r, hread ▸ hencoded, hr, fun k e hk hbefore => ?_, fun bs hbs => ?_⟩
  · rw [← houts] at hk hbefore
    exact herr e (hgroups.trans (decodeGroups_of_first_error hk hbefore))
  · rw [← houts] at hbs
    have hdecoded := hgroups.trans (decodeGroups_of_forall_ok hbs)
    have hlen := decodeBase58_length hr8 hencoded hdecoded
    rw [hread] at hlen
    exact ⟨hlen, hlen ▸ hok _ hdecoded⟩

/-- Settles O48: B58DEC reads the encoding B58ENC has stored, whose groups decode to the blocks
(`decodeBase58_encodeBase58`). -/
theorem base58RoundTrip : Obligations.Base58RoundTrip := by
  unfold Obligations.Base58RoundTrip
  intro rd rs1 rs2 rd' rl s hsrc hdst hrl hback
  obtain ⟨t, ht, hstores⟩ := exec_b58enc_fits hsrc hdst
  have hread := State.memRead_length s (s.operand rs1) (s.operand rs2)
  have hlen := encodeBase58_length (s.memRead (s.operand rs1) (s.operand rs2))
  rw [hread, ← hrl] at hlen
  rw [← hrl] at hdst
  have hoperand := hstores.operand_eq
  obtain ⟨htext, holen, -⟩ := hstores.of_length hlen
  obtain ⟨u, hu, hdecoded⟩ := retire_storeOutput_fits (s := t) (w := encode (.b58dec rd' rd rl)) (x := s.operand rd')
    (hread.symm ▸ hback)
  obtain ⟨hbytes, hcount, -⟩ := hdecoded.of_length hread
  refine ⟨t, u, ht, holen, ?_, hbytes, hcount⟩
  rw [exec_b58dec_of_source rd' (by rwa [hoperand, hoperand]), hoperand, hoperand, hoperand, htext,
    decodeBase58_encodeBase58]
  exact hu

end Sys2Proof.Machine
end

section
/-! The lookup of a word in the truncated list (`43_mnemonic.md` R191, R192). -/

namespace Sys2Proof

theorem LangConfig.size_pos (c : LangConfig) : 0 < c.size := List.length_pos_iff.2 c.words_nonempty

end Sys2Proof

namespace Sys2Proof.Machine

section
variable {c : LangConfig}

theorem wordAt_getElem? {i : Nat} (h : i < c.size) : c.words[i]? = some (wordAt c i) := by
  rw [wordAt, List.getD_eq_getElem _ _ h, List.getElem?_eq_getElem h]

theorem wordAt_legal {i : Nat} (h : i < c.size) : wordAt c i ≠ [] ∧ 0x20#8 ∉ wordAt c i :=
  c.word_legal _ (List.mem_of_getElem? (wordAt_getElem? h))

theorem lookupWord_eq_some_iff {w : List Byte} {i : Nat} : lookupWord c w = some i ↔
    (∃ x, c.words[i]? = some x ∧ truncWord c x = truncWord c w) ∧
    ∀ j < i, ∀ x, c.words[j]? = some x → truncWord c x ≠ truncWord c w := by
  simp only [lookupWord, List.findIdx?_eq_some_iff_getElem, beq_iff_eq, List.getElem?_eq_some_iff]
  constructor
  · rintro ⟨hi, heq, hleast⟩
    exact ⟨⟨_, ⟨hi, rfl⟩, heq⟩, fun j hj x ⟨_, hx⟩ => hx ▸ hleast j hj⟩
  · rintro ⟨⟨x, ⟨hi, rfl⟩, heq⟩, hleast⟩
    exact ⟨hi, heq, fun j hj => hleast j hj _ ⟨hj.trans hi, rfl⟩⟩

theorem lookupWord_eq_none_iff {w : List Byte} :
    lookupWord c w = none ↔ ∀ x ∈ c.words, truncWord c x ≠ truncWord c w := by
  simp only [lookupWord, List.findIdx?_eq_none_iff, beq_eq_false_iff_ne]

theorem lookupWord_lt {w : List Byte} {i : Nat} (h : lookupWord c w = some i) : i < c.size := by
  obtain ⟨⟨x, hx, -⟩, -⟩ := lookupWord_eq_some_iff.1 h
  exact (List.getElem?_eq_some_iff.1 hx).1

/-- No word of the list is empty and PREFIXLEN is at least 1, so no truncated word is empty. -/
theorem lookupWord_nil (c : LangConfig) : lookupWord c [] = none := by
  refine lookupWord_eq_none_iff.2 fun x hx h => ?_
  rw [truncWord, truncWord, List.take_nil, List.take_eq_nil_iff] at h
  exact h.elim (Nat.one_le_iff_ne_zero.1 c.prefix_pos) (c.word_legal x hx).1

/-- Where the truncated words are distinct, a word of the list is found at its own index. -/
theorem lookupWord_wordAt (hdistinct : (c.words.map (truncWord c)).Nodup) {i : Nat} (hi : i < c.size) :
    lookupWord c (wordAt c i) = some i := by
  refine lookupWord_eq_some_iff.2 ⟨⟨_, wordAt_getElem? hi, rfl⟩, fun j hj x hx heq => hj.ne ?_⟩
  have hlt : j < (c.words.map (truncWord c)).length := by rw [List.length_map]; exact hj.trans hi
  refine (List.getElem?_inj hlt hdistinct).1 ?_
  rw [List.getElem?_map, List.getElem?_map, hx, wordAt_getElem? hi, Option.map_some, Option.map_some, heq]

end

/-- Settles O54, by what `findIdx?` answers on the truncated words. -/
theorem lookupIsLeastIndex : Obligations.LookupIsLeastIndex := by
  unfold Obligations.LookupIsLeastIndex
  exact fun c _ => ⟨fun _ => lookupWord_eq_some_iff, lookupWord_eq_none_iff, lookupWord_nil c⟩

end Sys2Proof.Machine
end

section
/-! Splitting at the byte 0x20 and joining (`43_mnemonic.md` R193), as the library's `splitOn` and `intercalate`. -/

namespace Sys2Proof.Machine

theorem splitPieces_eq_splitOn (s : List Byte) : splitPieces s = s.splitOn 0x20#8 := by
  induction s with
  | nil => rw [splitPieces, List.splitOn_nil]
  | cons b bs ih =>
    rw [splitPieces, List.splitOn_cons_eq_if_modifyHead, ih]
    simp only [beq_iff_eq]
    split
    · rfl
    · obtain ⟨w, ws, h⟩ := List.exists_cons_of_ne_nil (List.splitOn_ne_nil 0x20#8 bs)
      rw [h, List.modifyHead_cons]

theorem splitWords_eq_splitOn {s : List Byte} (h : s ≠ []) : splitWords s = s.splitOn 0x20#8 := by
  rw [splitWords, if_neg h, splitPieces_eq_splitOn]

theorem joinWords_eq_intercalate (ws : List (List Byte)) : joinWords ws = [0x20#8].intercalate ws := by
  induction ws using joinWords.induct with
  | case1 => rfl
  | case2 w => rw [joinWords, List.intercalate_singleton]
  | case3 w ws hne ih =>
    rw [joinWords.eq_3 w ws hne, ih, List.intercalate_cons_of_ne_nil hne, List.append_assoc]
    rfl

theorem length_splitOn {α : Type} [BEq α] [LawfulBEq α] (a : α) (s : List α) :
    (s.splitOn a).length = s.count a + 1 := by
  induction s with
  | nil => rw [List.splitOn_nil]; rfl
  | cons b bs ih =>
    rw [List.splitOn_cons_eq_if_modifyHead, List.count_cons]
    split
    · rw [List.length_cons, ih]
    · rw [List.length_modifyHead, ih, Nat.add_zero]

theorem not_mem_of_mem_splitOn {α : Type} [BEq α] [LawfulBEq α] {a : α} {s w : List α} (h : w ∈ s.splitOn a) :
    a ∉ w := by
  induction s generalizing w with
  | nil =>
    rw [List.splitOn_nil] at h
    rw [List.mem_singleton.1 h]
    exact List.not_mem_nil
  | cons b bs ih =>
    obtain ⟨v, vs, hsplit⟩ := List.exists_cons_of_ne_nil (List.splitOn_ne_nil a bs)
    rw [List.splitOn_cons_eq_if_modifyHead] at h
    split at h
    · obtain rfl | h := List.mem_cons.1 h
      · exact List.not_mem_nil
      · exact ih h
    · next hb =>
      rw [hsplit, List.modifyHead_cons] at h
      obtain rfl | h := List.mem_cons.1 h
      · have hv := ih (hsplit ▸ List.mem_cons_self)
        exact List.not_mem_cons_of_ne_of_not_mem (fun e => hb (beq_iff_eq.2 e.symm)) hv
      · exact ih (hsplit ▸ List.mem_cons_of_mem v h)

theorem splitWords_nil : splitWords [] = [] := rfl

theorem splitWords_length {s : List Byte} (h : s ≠ []) : (splitWords s).length = s.count 0x20#8 + 1 := by
  rw [splitWords_eq_splitOn h, length_splitOn]

theorem splitWords_ne_nil {s : List Byte} (h : s ≠ []) : splitWords s ≠ [] := by
  rw [splitWords_eq_splitOn h]
  exact List.splitOn_ne_nil _ _

theorem splitWords_joinWords {ws : List (List Byte)} (hne : ws ≠ []) (h : ∀ w ∈ ws, w ≠ [] ∧ 0x20#8 ∉ w) :
    splitWords (joinWords ws) = ws := by
  have hsplit : (joinWords ws).splitOn 0x20#8 = ws := by
    rw [joinWords_eq_intercalate, List.splitOn_intercalate _ (fun w hw => (h w hw).2) hne]
  have hjoin : joinWords ws ≠ [] := fun e => by
    rw [e, List.splitOn_nil] at hsplit
    exact (h [] (hsplit ▸ List.mem_singleton_self _)).1 rfl
  rw [splitWords_eq_splitOn hjoin, hsplit]

/-- Settles O55, by the library's laws of `splitOn` and `intercalate`. -/
theorem splitAndJoinAreInverse : Obligations.SplitAndJoinAreInverse := by
  unfold Obligations.SplitAndJoinAreInverse
  refine ⟨splitWords_nil, fun s hs => ⟨splitWords_length hs, fun w hw => ?_, ?_⟩, fun _ => splitWords_joinWords⟩
  · exact not_mem_of_mem_splitOn (splitWords_eq_splitOn hs ▸ hw)
  · rw [joinWords_eq_intercalate, splitWords_eq_splitOn hs, List.intercalate_splitOn]

end Sys2Proof.Machine
end

section
/-! The three indices of a 32-bit group (`43_mnemonic.md` R194, R195). -/

namespace Sys2Proof.Machine

/-- Taking away modulo `n` what has been added. -/
theorem sub_add_add_mod {n a : Nat} (ha : a ≤ n) (y : Nat) : (n - a + (y + a) % n) % n = y % n := by
  rw [Nat.add_mod_mod, show n - a + (y + a) = y + n by omega, Nat.add_mod_right]

/-- Adding modulo `n` what has been taken away. -/
theorem sub_add_mod_add_mod {n a b : Nat} (ha : a ≤ n) (hb : b < n) : ((n - a + b) % n + a) % n = b := by
  rw [Nat.mod_add_mod, show n - a + b + a = b + n by omega, Nat.add_mod_right, Nat.mod_eq_of_lt hb]

section
variable {c : LangConfig} {i1 i2 i3 : Nat}

theorem triple_eq_iff {x : Nat} : triple c x = (i1, i2, i3) ↔
    x % c.size = i1 ∧ (x / c.size + i1) % c.size = i2 ∧ (x / c.size / c.size + i2) % c.size = i3 := by
  simp only [triple, Prod.mk.injEq]
  constructor <;> (rintro ⟨rfl, rfl, rfl⟩; exact ⟨rfl, rfl, rfl⟩)

theorem triple_lt {x : Nat} (h : triple c x = (i1, i2, i3)) : i1 < c.size ∧ i2 < c.size ∧ i3 < c.size := by
  obtain ⟨rfl, rfl, rfl⟩ := triple_eq_iff.1 h
  exact ⟨Nat.mod_lt _ c.size_pos, Nat.mod_lt _ c.size_pos, Nat.mod_lt _ c.size_pos⟩

/-- `43_mnemonic.md` R195: the three summands are the digits of `x` in base `N`. -/
theorem untriple_of_triple {x : Nat} (h : triple c x = (i1, i2, i3)) : untriple c i1 i2 i3 = x % c.size ^ 3 := by
  obtain ⟨hi1, hi2, -⟩ := triple_lt h
  obtain ⟨rfl, rfl, rfl⟩ := triple_eq_iff.1 h
  simp only [untriple, sub_add_add_mod hi1.le, sub_add_add_mod hi2.le]
  rw [Nat.mod_pow_succ, pow_two, Nat.mod_mul, ← Nat.div_div_eq_div_mul]

/-- `untriple` as a numeral of three digits in base `N`. -/
theorem untriple_eq : untriple c i1 i2 i3
    = i1 + c.size * ((c.size - i1 + i2) % c.size + c.size * ((c.size - i2 + i3) % c.size)) := by
  rw [untriple]
  ring

theorem untriple_mod (h1 : i1 < c.size) : untriple c i1 i2 i3 % c.size = i1 := by
  rw [untriple_eq, Nat.add_mul_mod_self_left, Nat.mod_eq_of_lt h1]

theorem triple_untriple (h1 : i1 < c.size) (h2 : i2 < c.size) (h3 : i3 < c.size) :
    triple c (untriple c i1 i2 i3) = (i1, i2, i3) := by
  have hdiv : untriple c i1 i2 i3 / c.size
      = (c.size - i1 + i2) % c.size + c.size * ((c.size - i2 + i3) % c.size) := by
    rw [untriple_eq, Nat.add_mul_div_left _ _ c.size_pos, Nat.div_eq_of_lt h1, Nat.zero_add]
  refine triple_eq_iff.2 ⟨untriple_mod h1, ?_, ?_⟩
  · rw [hdiv, Nat.add_right_comm, Nat.add_mul_mod_self_left, sub_add_mod_add_mod h1.le h2]
  · rw [hdiv, Nat.add_mul_div_left _ _ c.size_pos, Nat.div_eq_of_lt (Nat.mod_lt _ c.size_pos), Nat.zero_add,
      sub_add_mod_add_mod h2.le h3]

theorem untriple_lt (h1 : i1 < c.size) (h2 : i2 < c.size) (h3 : i3 < c.size) :
    untriple c i1 i2 i3 < c.size ^ 3 := by
  rw [untriple_of_triple (triple_untriple h1 h2 h3)]
  exact Nat.mod_lt _ (Nat.pow_pos c.size_pos)

end

/-- Settles O56, by the digits in base `N` of a number and of `untriple`. -/
theorem tripleAndUntripleAreInverse : Obligations.TripleAndUntripleAreInverse := by
  unfold Obligations.TripleAndUntripleAreInverse
  refine ⟨fun c x w1 w2 w3 h => ?_, fun c i1 i2 i3 => triple_untriple⟩
  obtain ⟨h1, h2, h3⟩ := triple_lt h
  exact ⟨h1, h2, h3, untriple_of_triple h⟩

end Sys2Proof.Machine
end

section
/-! Lists taken a chunk of one length at a time. -/

namespace Sys2Proof.Machine

variable {α : Type}

/-- Chunks of `k` elements are taken from the left until fewer than `k` elements remain. -/
theorem chunk_induction {P : List α → Prop} {k : Nat} (hk : 0 < k) (short : ∀ l, l.length < k → P l)
    (chunk : ∀ g rest, g.length = k → P rest → P (g ++ rest)) (l : List α) : P l := by
  induction h : l.length using Nat.strong_induction_on generalizing l with
  | _ n ih =>
    subst h
    by_cases hlen : l.length < k
    · exact short l hlen
    · rw [← List.take_append_drop k l]
      exact chunk _ _ (List.length_take_of_le (Nat.le_of_not_lt hlen))
        (ih _ (by rw [List.length_drop]; omega) _ rfl)

/-- The element `k` of the chunk `j`. -/
theorem getElem?_flatMap_range {f : Nat → List α} {n q j k : Nat} (hf : ∀ i, (f i).length = n) (hj : j < q)
    (hk : k < n) : ((List.range q).flatMap f)[n * j + k]? = (f j)[k]? := by
  induction q with
  | zero => omega
  | succ q ih =>
    have hlen : ((List.range q).flatMap f).length = n * q := by simp [List.length_flatMap, hf, Nat.mul_comm]
    rw [List.range_succ, List.flatMap_append, List.flatMap_singleton]
    obtain hlt | rfl := Nat.lt_succ_iff_lt_or_eq.1 hj
    · have hchunk : n * (j + 1) ≤ n * q := Nat.mul_le_mul_left n hlt
      rw [List.getElem?_append_left (by rw [hlen]; rw [Nat.mul_succ] at hchunk; omega), ih hlt]
    · rw [List.getElem?_append_right (by rw [hlen]; omega), hlen, Nat.add_sub_cancel_left]

end Sys2Proof.Machine
end

section
/-! The words of a seed and of its phrase (`43_mnemonic.md` R196, R197, R201). -/

namespace Sys2Proof.Machine

section
variable {c : LangConfig} {g seed : List Byte} {w1 w2 w3 : Nat}

theorem groupWords_eq (h : triple c (le g) = (w1, w2, w3)) :
    groupWords c g = [wordAt c w1, wordAt c w2, wordAt c w3] := by
  simp only [groupWords, h]

theorem exists_groupWords_eq (c : LangConfig) (g : List Byte) : ∃ w1 w2 w3, triple c (le g) = (w1, w2, w3) ∧
    groupWords c g = [wordAt c w1, wordAt c w2, wordAt c w3] :=
  ⟨_, _, _, rfl, rfl⟩

theorem groupWords_length (c : LangConfig) (g : List Byte) : (groupWords c g).length = 3 := rfl

theorem seedWords_length (c : LangConfig) (seed : List Byte) : (seedWords c seed).length = 3 * (seed.length / 4) := by
  simp [seedWords, List.length_flatMap, groupWords_length, Nat.mul_comm]

theorem seedWords_nil (c : LangConfig) : seedWords c [] = [] := rfl

/-- The words of a seed, its first group apart. -/
theorem seedWords_append (hg : g.length = 4) (rest : List Byte) :
    seedWords c (g ++ rest) = groupWords c g ++ seedWords c rest := by
  have hcount : (g ++ rest).length / 4 = rest.length / 4 + 1 := by rw [List.length_append]; omega
  have hfirst : slice (g ++ rest) (4 * 0) 4 = g := List.take_left' hg
  have hlater : ∀ j, slice (g ++ rest) (4 * (j + 1)) 4 = slice rest (4 * j) 4 := fun j => by
    rw [slice, slice, Nat.mul_succ, Nat.add_comm, ← List.drop_drop, List.drop_left' hg]
  rw [seedWords, hcount, List.range_succ_eq_map, List.flatMap_cons, List.flatMap_map, hfirst]
  simp only [hlater, seedWords]

theorem seedWords_getElem? {j k : Nat} (hj : j < seed.length / 4) (hk : k < 3) :
    (seedWords c seed)[3 * j + k]? = (groupWords c (slice seed (4 * j) 4))[k]? :=
  getElem?_flatMap_range (fun _ => groupWords_length c _) hj hk

/-- `43_mnemonic.md` R196: where the three words of the group `j` stand. -/
theorem seedWords_getElem?_of_triple {j : Nat} (hj : j < seed.length / 4)
    (h : triple c (le (slice seed (4 * j) 4)) = (w1, w2, w3)) :
    (seedWords c seed)[3 * j]? = c.words[w1]? ∧ (seedWords c seed)[3 * j + 1]? = c.words[w2]? ∧
    (seedWords c seed)[3 * j + 2]? = c.words[w3]? := by
  obtain ⟨h1, h2, h3⟩ := triple_lt h
  rw [wordAt_getElem? h1, wordAt_getElem? h2, wordAt_getElem? h3]
  have hwords := fun k hk => seedWords_getElem? (c := c) (k := k) hj hk
  rw [groupWords_eq h] at hwords
  exact ⟨hwords 0 (by decide), hwords 1 (by decide), hwords 2 (by decide)⟩

theorem seedWords_legal {w : List Byte} (h : w ∈ seedWords c seed) : w ≠ [] ∧ 0x20#8 ∉ w := by
  obtain ⟨j, -, hw⟩ := List.mem_flatMap.1 h
  obtain ⟨w1, w2, w3, htriple, hwords⟩ := exists_groupWords_eq c (slice seed (4 * j) 4)
  obtain ⟨h1, h2, h3⟩ := triple_lt htriple
  obtain rfl | rfl | rfl : w = wordAt c w1 ∨ w = wordAt c w2 ∨ w = wordAt c w3 := by simpa [hwords] using hw
  · exact wordAt_legal h1
  · exact wordAt_legal h2
  · exact wordAt_legal h3

theorem checksumIndex_lt {ws : List (List Byte)} (h : ws ≠ []) : checksumIndex c ws < ws.length :=
  Nat.mod_lt _ (List.length_pos_iff.2 h)

theorem seedWords_ne_nil (h : 4 ≤ seed.length) : seedWords c seed ≠ [] := by
  rw [← List.length_pos_iff, seedWords_length]
  omega

theorem phraseWords_length (c : LangConfig) (seed : List Byte) :
    (phraseWords c seed).length = 3 * (seed.length / 4) + 1 := by
  rw [phraseWords, List.length_append, seedWords_length, List.length_singleton]

theorem phraseWords_legal (h : 4 ≤ seed.length) {w : List Byte} (hw : w ∈ phraseWords c seed) :
    w ≠ [] ∧ 0x20#8 ∉ w := by
  obtain hw | hw := List.mem_append.1 hw
  · exact seedWords_legal hw
  · have hk := checksumIndex_lt (c := c) (seedWords_ne_nil (c := c) h)
    rw [List.mem_singleton.1 hw, List.getD_eq_getElem _ _ hk]
    exact seedWords_legal (List.getElem_mem hk)

/-- The words of the list are not empty and hold no 0x20, so the phrase splits into the words it was made of. -/
theorem splitWords_encodePhrase (h : 4 ≤ seed.length) : splitWords (encodePhrase c seed) = phraseWords c seed :=
  splitWords_joinWords (List.append_ne_nil_of_right_ne_nil _ (List.cons_ne_nil _ _)) fun _ => phraseWords_legal h

end

theorem four_le_length {seed : List Byte} (hne : seed ≠ []) (hmod : seed.length % 4 = 0) : 4 ≤ seed.length := by
  have := List.length_pos_iff.2 hne
  omega

/-- Settles O57: the words are those of the seed, and the index is theirs. -/
theorem checksumWordIsADataWord : Obligations.ChecksumWordIsADataWord := by
  unfold Obligations.ChecksumWordIsADataWord
  intro c seed hne hmod
  have hlen := four_le_length hne hmod
  exact ⟨seedWords c seed, _, splitWords_encodePhrase hlen, seedWords_length c seed, rfl,
    checksumIndex_lt (seedWords_ne_nil hlen)⟩

end Sys2Proof.Machine
end

section
/-! The decoding of one triple of words (`43_mnemonic.md` R198). -/

namespace Sys2Proof.Machine

section
variable {c : LangConfig} {u v w : List Byte}

theorem decodeTriple_of_lookup_none (h : lookupWord c u = none ∨ lookupWord c v = none ∨ lookupWord c w = none) :
    decodeTriple c u v w = .error .invalidMnemonic := by
  unfold decodeTriple
  cases hu : lookupWord c u with
  | none => rfl
  | some i1 =>
    cases hv : lookupWord c v with
    | none => rfl
    | some i2 =>
      have hw : lookupWord c w = none := by simpa [hu, hv] using h
      simp only [hw]

/-- `43_mnemonic.md` R195: `x mod N = i1` always holds, so only the range of `x` decides. -/
theorem decodeTriple_of_lookup {i1 i2 i3 : Nat} (hu : lookupWord c u = some i1) (hv : lookupWord c v = some i2)
    (hw : lookupWord c w = some i3) : decodeTriple c u v w
      = if untriple c i1 i2 i3 ≥ 2 ^ 32 then .error .mnemonicChecksumMismatch
        else .ok (toLE (untriple c i1 i2 i3) 4) := by
  simp only [decodeTriple, hu, hv, hw, untriple_mod (lookupWord_lt hu), ne_eq, not_true_eq_false, false_or]

theorem decodeTriple_eq_ok {b : List Byte} (h : decodeTriple c u v w = .ok b) :
    ∃ i1 i2 i3, lookupWord c u = some i1 ∧ lookupWord c v = some i2 ∧ lookupWord c w = some i3 ∧
      untriple c i1 i2 i3 < 2 ^ 32 ∧ b = toLE (untriple c i1 i2 i3) 4 := by
  by_cases hnone : lookupWord c u = none ∨ lookupWord c v = none ∨ lookupWord c w = none
  · rw [decodeTriple_of_lookup_none hnone] at h
    cases h
  · simp only [not_or, Option.ne_none_iff_exists'] at hnone
    obtain ⟨⟨i1, hu⟩, ⟨i2, hv⟩, ⟨i3, hw⟩⟩ := hnone
    rw [decodeTriple_of_lookup hu hv hw] at h
    split at h
    · cases h
    · next hlt => exact ⟨i1, i2, i3, hu, hv, hw, Nat.lt_of_not_ge hlt, (Except.ok.inj h).symm⟩

theorem decodeTriple_length {b : List Byte} (h : decodeTriple c u v w = .ok b) : b.length = 4 := by
  obtain ⟨i1, i2, i3, -, -, -, -, rfl⟩ := decodeTriple_eq_ok h
  exact toLE_length _ _

theorem le_toLE_four {x : Nat} (h : x < 2 ^ 32) : le (toLE x 4) = x := by
  rw [le_toLE]
  exact Nat.mod_eq_of_lt h

/-- `43_mnemonic.md` R200 (2): the words of the decoded group are the list words at the indices found. -/
theorem groupWords_of_decodeTriple {b : List Byte} (h : decodeTriple c u v w = .ok b) :
    ∃ i1 i2 i3, lookupWord c u = some i1 ∧ lookupWord c v = some i2 ∧ lookupWord c w = some i3 ∧
      groupWords c b = [wordAt c i1, wordAt c i2, wordAt c i3] := by
  obtain ⟨i1, i2, i3, hu, hv, hw, hlt, rfl⟩ := decodeTriple_eq_ok h
  refine ⟨i1, i2, i3, hu, hv, hw, groupWords_eq ?_⟩
  rw [le_toLE_four hlt, triple_untriple (lookupWord_lt hu) (lookupWord_lt hv) (lookupWord_lt hw)]

/-- `43_mnemonic.md` R200 (1): a group of four bytes is decoded from its own words. -/
theorem decodeTriple_of_groupWords {g : List Byte} (hsize : c.size ^ 3 ≥ 2 ^ 32)
    (hdistinct : (c.words.map (truncWord c)).Nodup) (hg : g.length = 4) (h : groupWords c g = [u, v, w]) :
    decodeTriple c u v w = .ok g := by
  obtain ⟨w1, w2, w3, htriple, hwords⟩ := exists_groupWords_eq c g
  obtain ⟨rfl, rfl, rfl⟩ : wordAt c w1 = u ∧ wordAt c w2 = v ∧ wordAt c w3 = w := by simpa [hwords] using h
  obtain ⟨h1, h2, h3⟩ := triple_lt htriple
  have hlt : le g < 2 ^ 32 := by simpa [hg] using le_lt g
  have hx : untriple c w1 w2 w3 = le g := by
    rw [untriple_of_triple htriple, Nat.mod_eq_of_lt (hlt.trans_le hsize)]
  have hbytes : toLE (le g) 4 = g := by rw [← hg, toLE_le]
  rw [decodeTriple_of_lookup (lookupWord_wordAt hdistinct h1) (lookupWord_wordAt hdistinct h2)
    (lookupWord_wordAt hdistinct h3), hx, if_neg (Nat.not_le_of_gt hlt), hbytes]

end

/-- Settles O52: a failed lookup raises InvalidMnemonic, and after the lookups only the range decides. -/
theorem decodeTripleChecksLookupsThenRange : Obligations.DecodeTripleChecksLookupsThenRange := by
  unfold Obligations.DecodeTripleChecksLookupsThenRange
  refine fun c u v w => ⟨decodeTriple_of_lookup_none, fun i1 i2 i3 hu hv hw => ?_⟩
  have hdecoded := decodeTriple_of_lookup hu hv hw
  refine ⟨untriple_mod (lookupWord_lt hu), untriple_lt (lookupWord_lt hu) (lookupWord_lt hv) (lookupWord_lt hw),
    fun hge => by rw [hdecoded, if_pos hge], fun hlt => ?_⟩
  exact ⟨_, by rw [hdecoded, if_neg (Nat.not_le_of_gt hlt)], toLE_length _ _, le_toLE_four hlt⟩

end Sys2Proof.Machine
end

section
/-! The decoding of the triples of a phrase (`43_mnemonic.md` R198). -/

namespace Sys2Proof.Machine

/-- The outcome of each triple of a list of words; the words left over have none. -/
def tripleOutcomes (c : LangConfig) (ws : List (List Byte)) : List (Except ErrKind (List Byte)) :=
  (List.range (ws.length / 3)).map (fun j =>
    decodeTriple c (ws.getD (3 * j) []) (ws.getD (3 * j + 1) []) (ws.getD (3 * j + 2) []))

section
variable {c : LangConfig} {u v w : List Byte}

theorem tripleOutcomes_cons (u v w : List Byte) (ws : List (List Byte)) :
    tripleOutcomes c (u :: v :: w :: ws) = decodeTriple c u v w :: tripleOutcomes c ws := by
  have hcount : (u :: v :: w :: ws).length / 3 = ws.length / 3 + 1 := by simp only [List.length_cons]; omega
  rw [tripleOutcomes, hcount, List.range_succ_eq_map, List.map_cons, List.map_map]
  rfl

theorem tripleOutcomes_of_short {ws : List (List Byte)} (h : ws.length < 3) : tripleOutcomes c ws = [] := by
  rw [tripleOutcomes, Nat.div_eq_of_lt h]
  rfl

theorem decodeTriples_of_short {ws : List (List Byte)} (h : ws.length < 3) : decodeTriples c ws = .ok [] := by
  refine decodeTriples.eq_2 c ws fun u v w rest e => ?_
  simp only [e, List.length_cons] at h
  omega

theorem decodeTriples_cons_ok {b : List Byte} (h : decodeTriple c u v w = .ok b) (ws : List (List Byte)) :
    decodeTriples c (u :: v :: w :: ws) = (decodeTriples c ws).map (b ++ ·) := by
  rw [decodeTriples, h]
  cases decodeTriples c ws <;> rfl

theorem decodeTriples_cons_error {e : ErrKind} (h : decodeTriple c u v w = .error e) (ws : List (List Byte)) :
    decodeTriples c (u :: v :: w :: ws) = .error e := by
  simp only [decodeTriples, h]

theorem decodeTriples_cons_eq_ok {seed : List Byte} {ws : List (List Byte)}
    (h : decodeTriples c (u :: v :: w :: ws) = .ok seed) :
    ∃ b rest, decodeTriple c u v w = .ok b ∧ decodeTriples c ws = .ok rest ∧ seed = b ++ rest := by
  cases hfirst : decodeTriple c u v w with
  | error e => rw [decodeTriples_cons_error hfirst] at h; cases h
  | ok b =>
    rw [decodeTriples_cons_ok hfirst] at h
    cases hrest : decodeTriples c ws with
    | error e => rw [hrest] at h; cases h
    | ok rest => rw [hrest] at h; exact ⟨b, rest, rfl, rfl, (Except.ok.inj h).symm⟩

theorem triples_induction {P : List (List Byte) → Prop} (short : ∀ ws, ws.length < 3 → P ws)
    (triple : ∀ u v w ws, P ws → P (u :: v :: w :: ws)) (ws : List (List Byte)) : P ws := by
  refine chunk_induction three_pos short (fun g rest hg => ?_) ws
  obtain ⟨u, v, w, rfl⟩ := List.length_eq_three.1 hg
  exact triple u v w rest

/-- Triples that all decode give their bytes one after the other. -/
theorem decodeTriples_of_forall_ok {ws bs : List (List Byte)} (h : tripleOutcomes c ws = bs.map .ok) :
    decodeTriples c ws = .ok bs.flatten := by
  induction ws using triples_induction generalizing bs with
  | short ws hlen =>
    rw [tripleOutcomes_of_short hlen] at h
    rw [decodeTriples_of_short hlen, List.map_eq_nil_iff.1 h.symm, List.flatten_nil]
  | triple u v w ws ih =>
    rw [tripleOutcomes_cons] at h
    obtain ⟨b, bs, rfl, hfirst, hrest⟩ := List.map_eq_cons_iff.1 h.symm
    rw [decodeTriples_cons_ok hfirst.symm, ih hrest.symm, List.flatten_cons]
    rfl

/-- The first triple from the left that fails gives the error. -/
theorem decodeTriples_of_first_error {ws : List (List Byte)} {k : Nat} {e : ErrKind}
    (hk : (tripleOutcomes c ws)[k]? = some (.error e))
    (hbefore : ∀ j < k, ∃ b, (tripleOutcomes c ws)[j]? = some (.ok b)) : decodeTriples c ws = .error e := by
  induction ws using triples_induction generalizing k with
  | short ws hlen =>
    rw [tripleOutcomes_of_short hlen] at hk
    cases hk
  | triple u v w ws ih =>
    rw [tripleOutcomes_cons] at hk hbefore
    cases k with
    | zero => exact decodeTriples_cons_error (Option.some.inj hk) ws
    | succ k =>
      obtain ⟨b, hb⟩ := hbefore 0 (Nat.succ_pos k)
      rw [decodeTriples_cons_ok (Option.some.inj hb), ih hk fun j hj => hbefore (j + 1) (Nat.succ_lt_succ hj)]
      rfl

/-- Each triple gives four bytes. -/
theorem length_flatten_of_tripleOutcomes {ws bs : List (List Byte)} (h : tripleOutcomes c ws = bs.map .ok) :
    bs.flatten.length = 4 * (ws.length / 3) := by
  have hcount : bs.length = ws.length / 3 := by
    rw [← List.length_map (f := (Except.ok : List Byte → Except ErrKind (List Byte))), ← h, tripleOutcomes,
      List.length_map, List.length_range]
  have hfour : ∀ b ∈ bs, b.length = 4 := fun b hb => by
    have hok : Except.ok b ∈ tripleOutcomes c ws := h ▸ List.mem_map_of_mem hb
    obtain ⟨j, -, hj⟩ := List.mem_map.1 hok
    exact decodeTriple_length hj
  rw [List.length_flatten, List.map_congr_left hfour, ← hcount]
  simp [Nat.mul_comm]

theorem decodePhrase_of_count {phrase : List Byte} (h : (splitWords phrase).length % 3 = 1) :
    decodePhrase c phrase = decodeTriples c (splitWords phrase) := by
  simp only [decodePhrase, h, ne_eq, not_true_eq_false, if_false]

theorem decodePhrase_badCount {phrase : List Byte} (h : (splitWords phrase).length % 3 ≠ 1) :
    decodePhrase c phrase = .error .invalidEncodedSize := by
  simp only [decodePhrase, if_pos h]

end

end Sys2Proof.Machine
end

section
/-! Seed to phrase to seed, and phrase to seed to phrase (`43_mnemonic.md` R200). -/

namespace Sys2Proof.Machine

section
variable {c : LangConfig}

/-- The words of a seed decode to the seed, whatever the word behind them. -/
theorem decodeTriples_seedWords {seed : List Byte} (hsize : c.size ^ 3 ≥ 2 ^ 32)
    (hdistinct : (c.words.map (truncWord c)).Nodup) (last : List Byte) (hlen : 4 ∣ seed.length) :
    decodeTriples c (seedWords c seed ++ [last]) = .ok seed := by
  induction seed using chunk_induction four_pos with
  | short seed hshort =>
    rw [List.length_eq_zero_iff.1 (Nat.eq_zero_of_dvd_of_lt hlen hshort)]
    exact decodeTriples_of_short (by simp [seedWords_nil])
  | chunk g rest hg ih =>
    rw [List.length_append, hg, Nat.dvd_add_right (Nat.dvd_refl 4)] at hlen
    obtain ⟨u, v, w, hwords⟩ := List.length_eq_three.1 (groupWords_length c g)
    have hgroup := decodeTriple_of_groupWords hsize hdistinct hg hwords
    simp only [seedWords_append hg, hwords, List.cons_append, List.nil_append, decodeTriples_cons_ok hgroup, ih hlen]
    rfl

theorem decodePhrase_encodePhrase {seed : List Byte} (hsize : c.size ^ 3 ≥ 2 ^ 32)
    (hdistinct : (c.words.map (truncWord c)).Nodup) (hne : seed ≠ []) (hmod : seed.length % 4 = 0) :
    decodePhrase c (encodePhrase c seed) = .ok seed := by
  have hsplit := splitWords_encodePhrase (c := c) (four_le_length hne hmod)
  have hcount : (splitWords (encodePhrase c seed)).length % 3 = 1 := by
    rw [hsplit, phraseWords_length, Nat.mul_add_mod]
  rw [decodePhrase_of_count hcount, hsplit]
  exact decodeTriples_seedWords hsize hdistinct _ (Nat.dvd_of_mod_eq_zero hmod)

/-- The word of the list that a word stands for. -/
def listWord (c : LangConfig) (w : List Byte) : List Byte := wordAt c ((lookupWord c w).getD 0)

theorem listWord_of_lookup {w : List Byte} {i : Nat} (h : lookupWord c w = some i) : listWord c w = wordAt c i := by
  rw [listWord, h, Option.getD_some]

/-- The words before the last are words of the list, and the seed's words are those. -/
theorem seedWords_of_decodeTriples {ws : List (List Byte)} {seed : List Byte} (hcount : ws.length % 3 = 1)
    (h : decodeTriples c ws = .ok seed) :
    (∀ w ∈ ws.dropLast, lookupWord c w ≠ none) ∧ seedWords c seed = ws.dropLast.map (listWord c) := by
  induction ws using triples_induction generalizing seed with
  | short ws hlen =>
    obtain ⟨last, rfl⟩ : ∃ last, ws = [last] := List.length_eq_one_iff.1 (by omega)
    rw [decodeTriples_of_short hlen] at h
    rw [← Except.ok.inj h]
    exact ⟨nofun, seedWords_nil c⟩
  | triple u v w ws ih =>
    have hcount : ws.length % 3 = 1 := by simpa [Nat.add_assoc] using hcount
    have hne : ws ≠ [] := by rintro rfl; cases hcount
    obtain ⟨b, rest, hfirst, hrest, rfl⟩ := decodeTriples_cons_eq_ok h
    obtain ⟨i1, i2, i3, hu, hv, hw, hwords⟩ := groupWords_of_decodeTriple hfirst
    obtain ⟨hfound, hseed⟩ := ih hcount hrest
    have hdata : (u :: v :: w :: ws).dropLast = u :: v :: w :: ws.dropLast := by
      simp [List.dropLast_cons_of_ne_nil, hne]
    rw [hdata]
    constructor
    · simpa [hu, hv, hw] using hfound
    · rw [seedWords_append (decodeTriple_length hfirst), hwords, hseed, ← listWord_of_lookup hu,
        ← listWord_of_lookup hv, ← listWord_of_lookup hw]
      rfl

theorem seedWords_of_decodePhrase {phrase seed : List Byte} (h : decodePhrase c phrase = .ok seed) :
    (∀ w ∈ (splitWords phrase).dropLast, lookupWord c w ≠ none) ∧
    seedWords c seed = (splitWords phrase).dropLast.map (listWord c) := by
  by_cases hcount : (splitWords phrase).length % 3 = 1
  · exact seedWords_of_decodeTriples hcount (decodePhrase_of_count hcount ▸ h)
  · rw [decodePhrase_badCount hcount] at h
    cases h

end

/-- Settles O58, group by group from the left. -/
theorem seedToPhraseToSeed : Obligations.SeedToPhraseToSeed := by
  unfold Obligations.SeedToPhraseToSeed
  exact fun c seed => decodePhrase_encodePhrase

/-- Settles O60, triple by triple from the left; the phrase of the seed is made of the seed's words. -/
theorem phraseToSeedToPhrase : Obligations.PhraseToSeedToPhrase := by
  unfold Obligations.PhraseToSeedToPhrase
  rintro c phrase seed ws hdecoded rfl
  obtain ⟨hfound, hseed⟩ := seedWords_of_decodePhrase hdecoded
  exact ⟨hfound, hseed, by rw [encodePhrase, phraseWords, hseed]; rfl⟩

end Sys2Proof.Machine
end

section
/-! What the mnemonic commands share: the form in which their rules write command words (`30_encoding.md` R82), and a
source that is not empty. -/

namespace Sys2Proof.Machine

theorem encM_eq_commandWord (op : BitVec 8) (rd rs1 rs2 : RegField) (lang : BitVec 4) :
    encM op rd rs1 rs2 lang = commandWord (op.setWidth 32 <<< 24) rd rs1 rs2 lang := by
  rw [encM_eq_or, commandWord]

theorem State.memRead_ne_nil (s : State) {x n : Nat} (h : n ≠ 0) : s.memRead x n ≠ [] := by
  rw [← List.length_pos_iff, s.memRead_length]
  exact Nat.pos_of_ne_zero h

end Sys2Proof.Machine
end

section
/-! MNENC (`43_mnemonic.md` R196). -/

namespace Sys2Proof.Machine

section
variable {c : LangConfig} {rs1 rs2 : RegField} {lang : BitVec 4} {s : State}

/-- The command is its rule at the English configuration. -/
theorem exec_mnenc (rd rs1 rs2 : RegField) (lang : BitVec 4) (s : State) : exec (.mnenc rd rs1 rs2 lang) s
    = retire (encode (.mnenc rd rs1 rs2 lang)) s (runMnenc Config.english rd rs1 rs2 lang s) := rfl

theorem exec_mnenc_of_run {rd : RegField} {t : State} (h : runMnenc Config.english rd rs1 rs2 lang s = .ok t) :
    exec (.mnenc rd rs1 rs2 lang) s = .next t := by
  rw [exec_mnenc, h, retire_ok]

theorem runMnenc_of_lang (rd : RegField) (h : lang ≠ 0#4) :
    runMnenc c rd rs1 rs2 lang s = .error .unsupportedLanguage := by
  simp only [runMnenc, if_pos h]

theorem runMnenc_of_legal (rd : RegField) (hne : s.operand rs2 ≠ 0) (hmod : s.operand rs2 % 4 = 0)
    (hsrc : inBuf (s.operand rs1) (s.operand rs2)) : runMnenc c rd rs1 rs2 0#4 s
      = s.storeOutput (s.operand rd) (encodePhrase c (s.memRead (s.operand rs1) (s.operand rs2))) := by
  simp only [runMnenc, hne, hmod, ne_eq, not_true_eq_false, or_self, if_false, if_pos hsrc]

theorem runMnenc_of_illegal (rd : RegField)
    (h : s.operand rs2 = 0 ∨ s.operand rs2 % 4 ≠ 0 ∨ s.operand rs1 + s.operand rs2 > 1024) :
    runMnenc c rd rs1 rs2 0#4 s = .error .contractViolation := by
  by_cases hlen : s.operand rs2 = 0 ∨ s.operand rs2 % 4 ≠ 0
  · simp only [runMnenc, ne_eq, not_true_eq_false, if_false, if_pos hlen]
  · have hsrc : ¬ inBuf (s.operand rs1) (s.operand rs2) :=
      Nat.not_le_of_gt ((or_assoc.2 h).resolve_left hlen)
    simp only [runMnenc, ne_eq, not_true_eq_false, if_false, if_neg hlen, if_neg hsrc]

end

/-- Settles O49, by the checks in their order: the language, the length and the source, the destination. -/
theorem mnencWritesThePhrase : Obligations.MnencWritesThePhrase := by
  unfold Obligations.MnencWritesThePhrase
  rintro rd rs1 rs2 lang s _ _ _ _ - rfl rfl rfl rfl
  refine ⟨encM_eq_commandWord 0x40#8 rd rs1 rs2 lang, fun hlang => ?_, ?_, ?_⟩
  · rw [exec_mnenc, runMnenc_of_lang rd hlang]
    exact retire_error_enters _ s _
  · rintro rfl hne hmod hsrc
    have hread := s.memRead_length (s.operand rs1) (s.operand rs2)
    have hlen := seedWords_length Config.english (s.memRead (s.operand rs1) (s.operand rs2))
    rw [hread] at hlen
    have hwords : seedWords Config.english (s.memRead (s.operand rs1) (s.operand rs2)) ≠ [] :=
      seedWords_ne_nil (by omega)
    obtain ⟨t, ht, hend⟩ := retire_storeOutput s (encode (.mnenc rd rs1 rs2 0#4)) (s.operand rd)
      (encodePhrase Config.english (s.memRead (s.operand rs1) (s.operand rs2)))
    refine ⟨t, _, _, by rwa [exec_mnenc, runMnenc_of_legal rd hne hmod hsrc], hlen, fun j hj w1 w2 w3 h => ?_, rfl,
      checksumIndex_lt hwords, hend⟩
    rw [← s.slice_memRead (n := s.operand rs2) (by omega)] at h
    exact seedWords_getElem?_of_triple (hread.symm ▸ hj) h
  · rintro rfl h
    rw [exec_mnenc, runMnenc_of_illegal rd h]
    exact retire_error_enters _ s _

/-- Settles O50: the rule ends in the store of the phrase, which splits into its words. -/
theorem mnencRuleStoresPhraseUnderEveryConfiguration :
    Obligations.MnencRuleStoresPhraseUnderEveryConfiguration := by
  unfold Obligations.MnencRuleStoresPhraseUnderEveryConfiguration
  rintro c rd rs1 rs2 s _ _ _ rfl rfl rfl hne hmod hsrc hdst
  have hread := s.memRead_length (s.operand rs1) (s.operand rs2)
  obtain ⟨t, ht, hstores⟩ := s.storeOutput_fits hdst
  have hrun := (runMnenc_of_legal rd hne hmod hsrc).trans ht
  refine ⟨t, hrun, hstores, ?_, fun hc => exec_mnenc_of_run (hc ▸ hrun)⟩
  rw [splitWords_encodePhrase (by omega), phraseWords_length, hread]

end Sys2Proof.Machine
end

section
/-! MNDEC, and MNDEC of what MNENC has stored (`43_mnemonic.md` R198, R200). -/

namespace Sys2Proof.Machine

section
variable {c : LangConfig} {rs1 rs2 : RegField} {lang : BitVec 4} {s : State}

/-- The command is its rule at the English configuration. -/
theorem exec_mndec (rd rs1 rs2 : RegField) (lang : BitVec 4) (s : State) : exec (.mndec rd rs1 rs2 lang) s
    = retire (encode (.mndec rd rs1 rs2 lang)) s (runMndec Config.english rd rs1 rs2 lang s) := rfl

theorem exec_mndec_of_run {rd : RegField} {t : State} (h : runMndec Config.english rd rs1 rs2 lang s = .ok t) :
    exec (.mndec rd rs1 rs2 lang) s = .next t := by
  rw [exec_mndec, h, retire_ok]

theorem runMndec_of_lang (rd : RegField) (h : lang ≠ 0#4) :
    runMndec c rd rs1 rs2 lang s = .error .unsupportedLanguage := by
  simp only [runMndec, if_pos h]

theorem runMndec_of_source (rd : RegField) (hsrc : inBuf (s.operand rs1) (s.operand rs2)) :
    runMndec c rd rs1 rs2 0#4 s
      = s.storeResult (s.operand rd) (decodePhrase c (s.memRead (s.operand rs1) (s.operand rs2))) := by
  simp only [runMndec, ne_eq, not_true_eq_false, if_false, if_pos hsrc]

theorem runMndec_outside (rd : RegField) (h : ¬ inBuf (s.operand rs1) (s.operand rs2)) :
    runMndec c rd rs1 rs2 0#4 s = .error .contractViolation := by
  simp only [runMndec, ne_eq, not_true_eq_false, if_false, if_neg h]

end

/-- Settles O51, by the checks in their order: the language, the source, the word count, the triples from the left
(`decodeTriples_of_first_error`, `decodeTriples_of_forall_ok`), the destination. -/
theorem mndecDecodesThePhrase : Obligations.MndecDecodesThePhrase := by
  unfold Obligations.MndecDecodesThePhrase
  rintro rd rs1 rs2 lang s _ _ _ _ _ _ - rfl rfl rfl rfl rfl rfl
  refine ⟨encM_eq_commandWord 0x41#8 rd rs1 rs2 lang, ?_⟩
  rw [exec_mndec]
  by_cases hlang : lang = 0#4
  case neg =>
    obtain ⟨t, ht, herr⟩ := retire_error_enters (encode (.mndec rd rs1 rs2 lang)) s .unsupportedLanguage
    rw [runMndec_of_lang rd hlang]
    exact ⟨t, ht, fun _ => herr, fun h => absurd h hlang, fun h => absurd h hlang, fun h => absurd h hlang⟩
  subst hlang
  by_cases hsrc : inBuf (s.operand rs1) (s.operand rs2)
  case neg =>
    obtain ⟨t, ht, herr⟩ := retire_error_enters (encode (.mndec rd rs1 rs2 0#4)) s .contractViolation
    rw [runMndec_outside rd hsrc]
    exact ⟨t, ht, fun h => absurd rfl h, fun _ _ => herr, fun _ h => absurd h hsrc, fun _ h => absurd h hsrc⟩
  obtain ⟨t, ht, herr, hok⟩ := retire_storeResult (encode (.mndec rd rs1 rs2 0#4)) s (s.operand rd)
    (decodePhrase Config.english (s.memRead (s.operand rs1) (s.operand rs2)))
  rw [runMndec_of_source rd hsrc]
  refine ⟨t, ht, fun h => absurd rfl h, fun _ h => absurd hsrc (Nat.not_le_of_gt h),
    fun _ _ hcount => herr _ (decodePhrase_badCount hcount), fun _ _ hcount => ?_⟩
  have hdecode := decodePhrase_of_count (c := Config.english) hcount
  have htriples : ∀ m, m % 3 = 1 → (m - 1) / 3 = m / 3 := by omega
  rw [htriples _ hcount]
  refine ⟨fun k e hk hbefore => herr e (hdecode.trans (decodeTriples_of_first_error hk hbefore)), fun bs hbs => ?_⟩
  have hlen := length_flatten_of_tripleOutcomes hbs
  exact ⟨hlen, hlen ▸ hok _ (hdecode.trans (decodeTriples_of_forall_ok hbs))⟩

/-- Settles O59: MNDEC reads the phrase MNENC has stored, which decodes to the seed (`decodePhrase_encodePhrase`). -/
theorem mndecOfMnencReturnsTheSeed : Obligations.MndecOfMnencReturnsTheSeed := by
  unfold Obligations.MndecOfMnencReturnsTheSeed
  rintro c rd rs1 rs2 rd' rl s _ _ _ hsize hdistinct rfl rfl hne hmod hsrc rfl hdst hrl hback
  have hread := s.memRead_length (s.operand rs1) (s.operand rs2)
  obtain ⟨t, ht, hphrase⟩ := s.storeOutput_fits hdst
  have hencoded := (runMnenc_of_legal rd hne hmod hsrc).trans ht
  have hoperand := hphrase.operand_eq
  obtain ⟨htext, holen, -⟩ := hphrase.of_length hrl.symm
  obtain ⟨u, hu, hstores⟩ := t.storeOutput_fits (x := s.operand rd') (hread.symm ▸ hback)
  have hdecoded : runMndec c rd' rd rl 0#4 t = .ok u := by
    rw [runMndec_of_source rd' (by rwa [hoperand, hoperand, hrl]), hoperand, hoperand, hoperand, htext,
      decodePhrase_encodePhrase hsize hdistinct (s.memRead_ne_nil hne) (by rwa [hread])]
    exact hu
  obtain ⟨-, hcount, -⟩ := hstores.of_length hread
  exact ⟨t, u, hencoded, holen, hdecoded, hstores, hcount,
    fun hc => ⟨exec_mnenc_of_run (hc ▸ hencoded), exec_mndec_of_run (hc ▸ hdecoded)⟩⟩

end Sys2Proof.Machine
end

section
/-! MNCSUM (`43_mnemonic.md` R199). -/

namespace Sys2Proof.Machine

section
variable {c : LangConfig} {rs1 rs2 : RegField} {lang : BitVec 4} {s : State}

/-- The command is its rule at the English configuration. -/
theorem exec_mncsum (rd rs1 rs2 : RegField) (lang : BitVec 4) (s : State) : exec (.mncsum rd rs1 rs2 lang) s
    = retire (encode (.mncsum rd rs1 rs2 lang)) s (runMncsum Config.english rd rs1 rs2 lang s) := rfl

theorem splitWords_length_le (bs : List Byte) : (splitWords bs).length ≤ bs.length + 1 := by
  by_cases h : bs = []
  · rw [h, splitWords_nil]
    exact Nat.zero_le _
  · rw [splitWords_length h]
    exact Nat.succ_le_succ List.count_le_length

theorem runMncsum_of_lang (rd : RegField) (h : lang ≠ 0#4) :
    runMncsum c rd rs1 rs2 lang s = .error .unsupportedLanguage := by
  simp only [runMncsum, if_pos h]

theorem runMncsum_of_words (rd : RegField) (hsrc : inBuf (s.operand rs1) (s.operand rs2))
    (h : splitWords (s.memRead (s.operand rs1) (s.operand rs2)) ≠ []) : runMncsum c rd rs1 rs2 0#4 s
      = .ok (s.writeA rd (BitVec.ofNat 16
          (checksumIndex c (splitWords (s.memRead (s.operand rs1) (s.operand rs2)))))) := by
  simp only [runMncsum, ne_eq, not_true_eq_false, if_false, if_pos hsrc, List.length_eq_zero_iff, h]

theorem runMncsum_of_illegal (rd : RegField)
    (h : s.operand rs1 + s.operand rs2 > 1024 ∨ s.operand rs2 = 0) :
    runMncsum c rd rs1 rs2 0#4 s = .error .contractViolation := by
  by_cases hsrc : inBuf (s.operand rs1) (s.operand rs2)
  · have hzero := h.resolve_left (Nat.not_lt_of_ge hsrc)
    have hempty : s.memRead (s.operand rs1) (s.operand rs2) = [] := by rw [hzero]; rfl
    simp only [runMncsum, ne_eq, not_true_eq_false, if_false, if_pos hsrc, hempty, splitWords_nil,
      List.length_nil, if_true]
  · simp only [runMncsum, ne_eq, not_true_eq_false, if_false, if_neg hsrc]

end

/-- Settles O53, by the checks in their order: the language, the source, the empty phrase; a phrase in BUF has fewer
than `2^16` words, so `A[d]` holds the index. -/
theorem mncsumReturnsTheChecksumIndex : Obligations.MncsumReturnsTheChecksumIndex := by
  unfold Obligations.MncsumReturnsTheChecksumIndex
  rintro rd rs1 rs2 lang s _ _ _ _ hwf rfl rfl rfl rfl
  simp only [WellFormed, Bool.and_eq_true] at hwf
  obtain ⟨⟨hrd, -⟩, -⟩ := hwf
  refine ⟨encM_eq_commandWord 0x42#8 rd rs1 rs2 lang, fun hlang => ?_, ?_, ?_⟩
  · rw [exec_mncsum, runMncsum_of_lang rd hlang]
    exact retire_error_enters _ s _
  · rintro rfl hsrc hne
    have hread := s.memRead_length (s.operand rs1) (s.operand rs2)
    have hcount := splitWords_length_le (s.memRead (s.operand rs1) (s.operand rs2))
    have hwords := splitWords_ne_nil (s.memRead_ne_nil (x := s.operand rs1) hne)
    have hlt := checksumIndex_lt (c := Config.english) hwords
    rw [exec_mncsum, runMncsum_of_words rd hsrc hwords, retire_ok]
    refine ⟨_, rfl, ?_⟩
    rw [State.readA_writeA_same, BitVec.toNat_ofNat, Nat.mod_eq_of_lt (by omega)]
    exact ⟨rfl, hlt, s.writeA_onlyOperandReg rd _ hrd⟩
  · rintro rfl h
    rw [exec_mncsum, runMncsum_of_illegal rd h]
    exact retire_error_enters _ s _

end Sys2Proof.Machine
end

section
/-! The control commands LDA and ERRCLR (`44_control.md` R220, R221). -/

namespace Sys2Proof.Machine

/-! LDA. -/

theorem encI_eq_commandWord (op : BitVec 8) (rd : RegField) (imm : Half) :
    encI op rd imm = commandWord (op.setWidth 32 <<< 24) rd 0#4 0#4 0#4 ||| imm.setWidth 32 := by
  rw [encI_eq_or, commandWord]
  simp only [BitVec.setWidth_zero, BitVec.zero_shiftLeft, BitVec.or_zero]

theorem exec_lda (rd : RegField) (imm : Half) (s : State) : exec (.lda rd imm) s = .next (s.writeA rd imm) := rfl

/-- The opcodes of the two commands differ. -/
theorem encode_lda_ne_errclrWord (rd : RegField) (imm : Half) : encode (.lda rd imm) ≠ errclrWord := by
  intro h
  have hop : 0x01#8 = opField errclrWord := by rw [← h, encode, opField_encI]
  exact absurd hop (by decide)

/-- Settles O22: LDA is one write of an operand register, and its word is not ERRCLR's, so an error skips it. -/
theorem ldaLoadsOperandRegister : Obligations.LdaLoadsOperandRegister := by
  unfold Obligations.LdaLoadsOperandRegister
  intro rd imm s hwf
  have hrd : isClassA rd = true := hwf
  refine ⟨encI_eq_commandWord 0x01#8 rd imm, ⟨_, exec_lda rd imm s, ?result, ?frame⟩, fun herr => ?skipped⟩
  case result => exact s.readA_writeA_same rd imm
  case frame => exact s.writeA_onlyOperandReg rd imm hrd
  case skipped => exact issue_skips s herr (encode_lda_ne_errclrWord rd imm)

/-! ERRCLR. -/

theorem exec_errclr (s : State) : exec .errclr s = .next s.clearError := rfl

/-- With nothing on record there is nothing to clear. -/
theorem State.clearError_of_noRecord {s : State} (herr : s.err = false) (hecode : s.ecode = 0#4)
    (hecmd : s.ecmd = 0#32) : s.clearError = s := by
  rw [State.clearError, ← herr, ← hecode, ← hecmd]

/-- The mask of ERRCLR's row covers every bit, so the row has one word (`30_encoding.md` R85). -/
theorem eq_errclrWord_of_decode {w : Word} {i : Instr} (hop : opField w = 0x02#8) (h : decode w = .ok i) :
    w = errclrWord := by
  obtain ⟨r, hr, hmatch, -⟩ := decode_eq_ok_iff.1 h
  have herrclr : ⟨0x02#8, errclrWord, BitVec.allOnes 32, fun _ => .errclr⟩ ∈ opcodeRows :=
    .tail _ (.head _)
  obtain rfl := opcodeRow_eq_of_op_eq hr herrclr ((opField_of_row_match hr hmatch).symm.trans hop)
  rwa [BitVec.and_allOnes] at hmatch

/-- Settles O23: ERRCLR's rule is `clearError`, and a word of its opcode that decodes is its own. -/
theorem errclrClearsTheRecord : Obligations.ErrclrClearsTheRecord := by
  unfold Obligations.ErrclrClearsTheRecord
  refine ⟨rfl, fun s => ?clears, fun s herr hecode hecmd => ?noRecord, fun w hop hw => ⟨?illegal, ?skipped⟩⟩
  case clears => exact ⟨_, exec_errclr s, rfl, rfl, rfl, s.clearError_onlyRecord⟩
  case noRecord => rw [exec_errclr, State.clearError_of_noRecord herr hecode hecmd]
  case illegal => exact fun _ h => hw (eq_errclrWord_of_decode hop h)
  case skipped => exact fun s herr => issue_skips s herr hw

end Sys2Proof.Machine
end

section
/-! What the step for a command word does with the error record and the moves (`60_exceptions.md` R230, R231, R233,
R240, R242). -/

namespace Sys2Proof.Machine

variable {s t : State} {w : Word}

/-! Error entry. -/

/-- `10_state.md` R26: STATUS after entry, with ERR in bit 0 and the kind's code in bits 7:4. -/
theorem State.status_enter_toNat (s : State) (e : ErrKind) (w : Word) :
    (s.enter e w).status.toNat = 0x01 + 16 * e.code.toNat := by
  rw [State.status_toNat, State.enter_err, State.enter_ecode, Bool.toNat_true]

/-- Settles O14: entry is one write of the record (`State.enter_entersError`), and STATUS shows that record. -/
theorem errorEntryRecordsKindAndWord : Obligations.ErrorEntryRecordsKindAndWord := by
  unfold Obligations.ErrorEntryRecordsKindAndWord
  refine ⟨⟨rfl, rfl, rfl, rfl, rfl, rfl, rfl, rfl⟩, fun s e w => ⟨?entry, ?status⟩⟩
  case entry => exact s.enter_entersError e w
  case status => exact s.status_enter_toNat e w

/-! The branches of `Issue` that run a command. -/

theorem issue_runs_decoded {i : Instr} (hs : s.err = false) (hw : decode w = .ok i) : issue w s = exec i s := by
  rw [issue, if_neg (ne_true_of_eq_false hs), hw]

/-- `60_exceptions.md` R231: ERRCLR is the command that an error on record does not skip. -/
theorem issue_errclrWord (hs : s.err = true) : issue errclrWord s = .next s.clearError := by
  rw [issue, if_pos hs, if_pos rfl, exec_errclr]

/-- Settles O8: the step is `issue`, whose last branch is the decoded command. -/
theorem stepRunsDecodedCommand : Obligations.StepRunsDecodedCommand := by
  unfold Obligations.StepRunsDecodedCommand
  intro s w rest i hmoves hs hw
  exact (step_of_command s hmoves).trans (issue_runs_decoded hs hw)

/-- Settles O11: the step is ERRCLR's rule, which is `clearError`. -/
theorem errclrRunsWhileErrorOnRecord : Obligations.ErrclrRunsWhileErrorOnRecord := by
  unfold Obligations.ErrclrRunsWhileErrorOnRecord
  intro s rest hmoves hs
  have hclears := issue_errclrWord (s := { s with moves := rest }) hs
  exact ⟨_, (step_of_command s hmoves).trans hclears, rfl, rfl, rfl, State.clearError_onlyRecord _⟩

/-! No move of the host. -/

theorem step_of_no_move (h : s.moves = []) : step s = .next s := by
  rw [step, nextMove, h]

/-- Settles O12, by the branch of the step for the empty list. -/
theorem idleUnitHoldsItsState : Obligations.IdleUnitHoldsItsState := by
  unfold Obligations.IdleUnitHoldsItsState
  exact fun _ => step_of_no_move

/-! Every command word retires (`70_reset_and_hazards.md` R264). -/

theorem exec_total (i : Instr) (s : State) : ∃ t, exec i s = .next t := by
  obtain ⟨r, hr⟩ := exec_retires s i
  exact ⟨_, hr⟩

/-- `60_exceptions.md` R230: `Issue` is total. -/
theorem issue_total (w : Word) (s : State) : ∃ t, issue w s = .next t := by
  cases hs : s.err with
  | true =>
    by_cases hw : w = errclrWord
    · obtain rfl := hw
      exact ⟨_, issue_errclrWord hs⟩
    · exact ⟨s, issue_skips s hs hw⟩
  | false =>
    by_cases hw : ∃ i, decode w = .ok i
    · obtain ⟨i, hw⟩ := hw
      rw [issue_runs_decoded hs hw]
      exact exec_total i s
    · exact ⟨_, issue_illegal hs (not_exists.1 hw)⟩

/-- No command makes or takes a move of the host. -/
theorem exec_keeps_moves {i : Instr} (h : exec i s = .next t) : t.moves = s.moves := by
  obtain ⟨e, -, rfl⟩ | ⟨-, n, f, rfl⟩ | ⟨-, r, v, rfl⟩ | ⟨-, x, out, -, rfl⟩ | ⟨-, rfl⟩ := exec_next_cases s h
  case inl => exact s.enter_moves e _
  case inr.inl => rfl
  case inr.inr.inl => exact s.writeA_moves r v
  case inr.inr.inr.inl => exact (State.setOlen_moves _ _).trans (s.memWrite_moves x out)
  case inr.inr.inr.inr => exact s.clearError_moves

theorem issue_keeps_moves (h : issue w s = .next t) : t.moves = s.moves := by
  obtain rfl | rfl | ⟨i, h⟩ := issue_next_cases h
  · rfl
  · exact s.enter_moves _ w
  · exact exec_keeps_moves h

/-- Settles O13: the step takes the move, and `issue` is total (`issue_total`) and leaves the moves that remain. -/
theorem everyCommandWordRetires : Obligations.EveryCommandWordRetires := by
  unfold Obligations.EveryCommandWordRetires
  intro s w rest hmoves
  obtain ⟨t, ht⟩ := issue_total w { s with moves := rest }
  exact ⟨t, (step_of_command s hmoves).trans ht, issue_keeps_moves ht⟩

/-! Sequences of skipped words. -/

/-- A run whose first step goes on is that step and the rest of the run. -/
theorem run_succ_of_step {M : Host.Core} {s t : M.State} (k : Nat) (h : M.step s = .next t) :
    M.run (k + 1) s = M.run k t := by
  rw [Host.Core.run, h]

/-- `60_exceptions.md` R231: a skipped word takes its move and does nothing else. -/
theorem step_skips {rest : List HostMove} (hmoves : s.moves = .write .word 0x000#11 w :: rest) (hs : s.err = true)
    (hw : w ≠ errclrWord) : step s = .next { s with moves := rest } :=
  (step_of_command s hmoves).trans (issue_skips { s with moves := rest } hs hw)

/-- Settles O10, by induction on the words: a skipped word leaves a state that still has its error on record and
faces the words that remain. -/
theorem commandsAreSkippedWhileErrorOnRecord : Obligations.CommandsAreSkippedWhileErrorOnRecord := by
  unfold Obligations.CommandsAreSkippedWhileErrorOnRecord
  intro ws rest s hws hs hmoves
  induction ws generalizing s with
  | nil =>
    obtain rfl : s.moves = rest := hmoves
    rfl
  | cons w ws ih =>
    obtain ⟨hw, hws⟩ := List.forall_mem_cons.1 hws
    have hskips := step_skips hmoves hs hw
    exact (run_succ_of_step (M := Sys2Proof.core) ws.length hskips).trans (ih _ hws hs rfl)

end Sys2Proof.Machine
end
